-- ==== Sys2Proof/Word.lean ====
section
/-! DEFINITION. The word types of the processor (spec 00_scope.md R4, R6; 30_encoding.md R61). -/

namespace Sys2Proof

/-- A 32-bit value: a register, a program counter, an address, an instruction (R4, R60). Read as UWORD it is `toNat`,
read as SWORD it is `toInt`, two's complement (R6). -/
abbrev Word := BitVec 32

/-- A byte of memory (R6, 20_memory.md R41). -/
abbrev Byte := BitVec 8

/-- The number of a general purpose register: a 5-bit field `s`, `t` or `d` (R61). -/
abbrev Reg := BitVec 5

/-- The shift amount field `h` (R61, R70). -/
abbrev Shamt := BitVec 5

/-- The 16-bit field `imm`: immediate, branch offset, or load and store offset (R61). -/
abbrev Imm := BitVec 16

/-- The 26-bit field `target` of J and JAL (R61, R69). -/
abbrev Target := BitVec 26

end Sys2Proof
end

