-- ==== Sys2Proof/Config.lean ====
section
/-! DEFINITION. The parameters the spec leaves open (spec 00_scope.md R4; 92_eei_decisions.md, "Parameters in one place") and
the free values. The parameters stand together in `Launch`, which State carries, so that a statement about every state
is a statement about every setting (DESIGN CHOICE, entry 1; safe: no instruction writes it). -/

namespace Sys2Proof

/-- BYTE_ORDER (20_memory.md R42, D1). -/
inductive ByteOrder where
  | big
  | little
deriving DecidableEq, Repr

/-- MULT_HI: what MULT and MULTU leave in `hi` (43_muldiv.md R144, D9). -/
inductive MultHi where
  /-- The default: `hi` holds an unspecified value. -/
  | any
  /-- Bits 63:32 of the 64-bit product. -/
  | highWord
  /-- The source's text: `hi` keeps its value. -/
  | unchanged
deriving DecidableEq, Repr

/-- LINK_NOT_TAKEN: what a not-taken BGEZAL or BLTZAL leaves in `x[31]` (42_branch.md R130, D17). -/
inductive LinkNotTaken where
  /-- The default: `x[31]` holds an unspecified value. -/
  | any
  /-- The source's text: `x[31]` keeps its value. -/
  | unchanged
  /-- `x[31] <- pc + 8`, as when taken. -/
  | link
deriving DecidableEq, Repr

/-- Whether a region of mapped addresses holds the program (CODE) or is outside CODE (20_memory.md R48, D24). -/
inductive RegionKind where
  | data
  | code
deriving DecidableEq, Repr

/-- A run of byte addresses that exist: `base`, `base + 1`, and so on, `size` of them. -/
structure Region where
  base : Nat
  size : Nat
  kind : RegionKind
deriving DecidableEq, Repr

/-- What the launch supplies besides the memory image and register values (70_reset_and_hazards.md R230, R4). MAPPED is
the union of the regions of `map` and CODE the union of its code regions, so CODE is a subset of MAPPED as R4 asks
(DESIGN CHOICE, entry 21). SYSCALL_EFFECT is not here: it is State's list of replies (entry 9). -/
structure Launch where
  byteOrder : ByteOrder
  entryPc : Word
  map : List Region
  multHi : MultHi
  linkNotTaken : LinkNotTaken
  /-- LOAD_DELAY_CHECK is on (R243, D33). -/
  loadDelayCheck : Bool
  /-- HILO_HAZARD_CHECK is on (R244, D33). -/
  hiLoHazardCheck : Bool
deriving DecidableEq, Repr

/-- The unspecified values (43_muldiv.md R136, 42_branch.md R130, D29): the `n`-th value drawn in a run. It has no body, so
nothing is provable of it; two draws need not agree (DESIGN CHOICE, entry 7; safe). -/
opaque Config.freeWord : Nat → Word

/-- The unspecified values at the start of a run (10_state.md R32, U1): of `x[n]` for `n` from 1 to 31, of `hi` for 32, of `lo` for 33.
It has no body, so nothing is provable of it (DESIGN CHOICE, entry 23; safe). -/
opaque Config.startWord : Nat → Word

end Sys2Proof
end

