-- ==== Sys2Proof/Syntax.lean ====
section
/-! DEFINITION. The abstract form of the 45 instructions (spec 30_encoding.md R72), in the order of opcode_table.json. A
constructor has one argument for each lettered field of its encoding string, under the letter's meaning of R61: `rs`,
`rt`, `rd` for the fields s, t, d. Hyphen bits are not part of an instruction (R63; entry 16). -/

namespace Sys2Proof

/-- The instructions of R2. -/
inductive Instr where
  /-- ADD, R101: `add $d, $s, $t`. -/
  | add (rs rt rd : Reg)
  /-- ADDI, R102: `addi $t, $s, imm`. -/
  | addi (rs rt : Reg) (imm : Imm)
  /-- ADDIU, R103: `addiu $t, $s, imm`. -/
  | addiu (rs rt : Reg) (imm : Imm)
  /-- ADDU, R104: `addu $d, $s, $t`. -/
  | addu (rs rt rd : Reg)
  /-- AND, R111: `and $d, $s, $t`. -/
  | and (rs rt rd : Reg)
  /-- ANDI, R112: `andi $t, $s, imm`. -/
  | andi (rs rt : Reg) (imm : Imm)
  /-- BEQ, R122: `beq $s, $t, offset`. -/
  | beq (rs rt : Reg) (imm : Imm)
  /-- BGEZ, R123: `bgez $s, offset`. -/
  | bgez (rs : Reg) (imm : Imm)
  /-- BGEZAL, R124: `bgezal $s, offset`. -/
  | bgezal (rs : Reg) (imm : Imm)
  /-- BGTZ, R125: `bgtz $s, offset`. -/
  | bgtz (rs : Reg) (imm : Imm)
  /-- BLEZ, R126: `blez $s, offset`. -/
  | blez (rs : Reg) (imm : Imm)
  /-- BLTZ, R127: `bltz $s, offset`. -/
  | bltz (rs : Reg) (imm : Imm)
  /-- BLTZAL, R128: `bltzal $s, offset`. -/
  | bltzal (rs : Reg) (imm : Imm)
  /-- BNE, R129: `bne $s, $t, offset`. -/
  | bne (rs rt : Reg) (imm : Imm)
  /-- DIV, R137: `div $s, $t`. -/
  | div (rs rt : Reg)
  /-- DIVU, R138: `divu $s, $t`. -/
  | divu (rs rt : Reg)
  /-- J, R151: `j target`. -/
  | j (target : Target)
  /-- JAL, R152: `jal target`. -/
  | jal (target : Target)
  /-- JR, R153: `jr $s`. -/
  | jr (rs : Reg)
  /-- LB, R161: `lb $t, offset($s)`. -/
  | lb (rs rt : Reg) (imm : Imm)
  /-- LUI, R162: `lui $t, imm`. -/
  | lui (rt : Reg) (imm : Imm)
  /-- LW, R163: `lw $t, offset($s)`. -/
  | lw (rs rt : Reg) (imm : Imm)
  /-- MFHI, R139: `mfhi $d`. -/
  | mfhi (rd : Reg)
  /-- MFLO, R140: `mflo $d`. -/
  | mflo (rd : Reg)
  /-- MULT, R141: `mult $s, $t`. -/
  | mult (rs rt : Reg)
  /-- MULTU, R142: `multu $s, $t`. -/
  | multu (rs rt : Reg)
  /-- NOOP, R170: `noop`, the all-zero word (R71). -/
  | noop
  /-- OR, R113: `or $d, $s, $t`. -/
  | or (rs rt rd : Reg)
  /-- ORI, R114: `ori $t, $s, imm`. -/
  | ori (rs rt : Reg) (imm : Imm)
  /-- SB, R164: `sb $t, offset($s)`. -/
  | sb (rs rt : Reg) (imm : Imm)
  /-- SLL, R171: `sll $d, $t, h`. The encoding string prints letters s in bits 25:21; the operation ignores them (R71). -/
  | sll (rs rt rd : Reg) (h : Shamt)
  /-- SLLV, R172: `sllv $d, $t, $s`. -/
  | sllv (rs rt rd : Reg)
  /-- SLT, R181: `slt $d, $s, $t`. -/
  | slt (rs rt rd : Reg)
  /-- SLTI, R182: `slti $t, $s, imm`. -/
  | slti (rs rt : Reg) (imm : Imm)
  /-- SLTIU, R183: `sltiu $t, $s, imm`. -/
  | sltiu (rs rt : Reg) (imm : Imm)
  /-- SLTU, R184: `sltu $d, $s, $t`. -/
  | sltu (rs rt rd : Reg)
  /-- SRA, R173: `sra $d, $t, h`. -/
  | sra (rt rd : Reg) (h : Shamt)
  /-- SRL, R174: `srl $d, $t, h`. -/
  | srl (rt rd : Reg) (h : Shamt)
  /-- SRLV, R175: `srlv $d, $t, $s`. -/
  | srlv (rs rt rd : Reg)
  /-- SUB, R105: `sub $d, $s, $t`. -/
  | sub (rs rt rd : Reg)
  /-- SUBU, R106: `subu $d, $s, $t`. -/
  | subu (rs rt rd : Reg)
  /-- SW, R165: `sw $t, offset($s)`. -/
  | sw (rs rt : Reg) (imm : Imm)
  /-- SYSCALL, R191: `syscall`. -/
  | syscall
  /-- XOR, R115: `xor $d, $s, $t`. -/
  | xor (rs rt rd : Reg)
  /-- XORI, R116: `xori $t, $s, imm`. -/
  | xori (rs rt : Reg) (imm : Imm)
deriving DecidableEq, Repr

end Sys2Proof
end

