-- ==== Sys2Proof/WellFormed.lean ====
section
/-! DEFINITION. Which terms of `Instr` stand for an instruction word of their own. Every field is as wide as its encoding, so
the one check left is the one overlap of the opcode map (spec 30_encoding.md R63, R71; 90_conflicts.md C12). -/

namespace Sys2Proof

/-- The all-zero word belongs to NOOP alone: an SLL with every field zero is not well formed, since its word is NOOP's
(R71; DEDUCED, entry 15; safe). Every other term is well formed. -/
def Instr.wellFormed : Instr → Bool
  | .sll rs rt rd h => !(rs == 0#5 && rt == 0#5 && rd == 0#5 && h == 0#5)
  | _ => true

end Sys2Proof
end

