-- ==== Sys2Proof/Decode.lean ====
section
/-! DEFINITION. Bytes to words (spec 20_memory.md R41, R43), words to instructions and back (30_encoding.md R60 to R75). The
decoder follows the selection tables of R72; `Instr.mapMatch` and `Instr.mapMask` transcribe their numeric columns a second
time, so that the two can be proved to agree. -/

namespace Sys2Proof

/-! ### Byte order -/

/-- The word assembled from the bytes at `a`, `a + 1`, `a + 2`, `a + 3` (R41). -/
def wordOfBytes (order : ByteOrder) (b0 b1 b2 b3 : Byte) : Word :=
  match order with
  | .big => b0 ++ b1 ++ b2 ++ b3
  | .little => b3 ++ b2 ++ b1 ++ b0

/-- The byte that a store of the word `v` at `a` puts at `a + k`, for `k` from 0 to 3 (R41, R42). -/
def byteOfWord (order : ByteOrder) (v : Word) (k : Nat) : Byte :=
  match order with
  | .big => v.extractLsb' (8 * (3 - k)) 8
  | .little => v.extractLsb' (8 * k) 8

/-! ### Fields (R61) -/

/-- Field `op`, bits 31:26. -/
def opOf (w : Word) : BitVec 6 := w.extractLsb' 26 6
/-- Field `s`, bits 25:21. -/
def sOf (w : Word) : Reg := w.extractLsb' 21 5
/-- Field `t`, bits 20:16. -/
def tOf (w : Word) : Reg := w.extractLsb' 16 5
/-- Field `d`, bits 15:11. -/
def dOf (w : Word) : Reg := w.extractLsb' 11 5
/-- Field `h`, bits 10:6. -/
def hOf (w : Word) : Shamt := w.extractLsb' 6 5
/-- Field `funct`, bits 5:0. -/
def functOf (w : Word) : BitVec 6 := w.extractLsb' 0 6
/-- Field `imm`, bits 15:0. -/
def immOf (w : Word) : Imm := w.extractLsb' 0 16
/-- Field `target`, bits 25:0. -/
def targetOf (w : Word) : Target := w.extractLsb' 0 26

/-! ### Decoding -/

/-- Why a word is reserved: one constructor for each bullet of R75, and one for bytes that are no whole word (R60). All but the
last make the step raise `ReservedInstruction`; the decoder never falls through to a neighbouring row (safe). -/
inductive DecodeError where
  /-- The major opcode has no row (R75, first bullet). -/
  | reservedOp
  /-- `op = 000001` with bits 20:16 of no branch (R75, second bullet). -/
  | reservedSelector
  /-- BLEZ or BGTZ with bits 20:16 not zero (R75, third bullet). -/
  | nonzeroSelector
  /-- `op = 000000` with a `funct` of no row (R75, fourth bullet). -/
  | reservedFunct
  /-- A listed `funct` with a 1 in a must-be-0 position (R75, fifth bullet; R73, D31). -/
  | fixedZeroBits
  /-- Fewer than four bytes were given (R60). Never met by a fetch. -/
  | truncated
deriving DecidableEq, Repr

/-- The instruction `i` if the must-be-0 bits are 0, and a reserved word otherwise (R63, R73). -/
def fixedZero (bitsAreZero : Bool) (i : Instr) : Except DecodeError Instr :=
  if bitsAreZero then .ok i else .error .fixedZeroBits

/-- The rows with `op = 000000`, selected by `funct` (R72, third table; R73 for the must-be-0 bits). The all-zero word is
tested first (R71, C12). -/
def decodeSpecial (w : Word) : Except DecodeError Instr :=
  let rs := sOf w
  let rt := tOf w
  let rd := dOf w
  let h := hOf w
  match functOf w with
  | 0x00#6 => if w = 0#32 then .ok .noop else .ok (.sll rs rt rd h)
  | 0x02#6 => .ok (.srl rt rd h)
  | 0x03#6 => .ok (.sra rt rd h)
  | 0x04#6 => .ok (.sllv rs rt rd)
  | 0x06#6 => fixedZero (h == 0#5) (.srlv rs rt rd)
  | 0x08#6 => fixedZero (rt == 0#5 && rd == 0#5 && h == 0#5) (.jr rs)
  | 0x0C#6 => .ok .syscall
  | 0x10#6 => fixedZero (rs == 0#5 && rt == 0#5 && h == 0#5) (.mfhi rd)
  | 0x12#6 => fixedZero (rs == 0#5 && rt == 0#5 && h == 0#5) (.mflo rd)
  | 0x18#6 => fixedZero (rd == 0#5 && h == 0#5) (.mult rs rt)
  | 0x19#6 => fixedZero (rd == 0#5 && h == 0#5) (.multu rs rt)
  | 0x1A#6 => fixedZero (rd == 0#5 && h == 0#5) (.div rs rt)
  | 0x1B#6 => fixedZero (rd == 0#5 && h == 0#5) (.divu rs rt)
  | 0x20#6 => fixedZero (h == 0#5) (.add rs rt rd)
  | 0x21#6 => fixedZero (h == 0#5) (.addu rs rt rd)
  | 0x22#6 => fixedZero (h == 0#5) (.sub rs rt rd)
  | 0x23#6 => fixedZero (h == 0#5) (.subu rs rt rd)
  | 0x24#6 => fixedZero (h == 0#5) (.and rs rt rd)
  | 0x25#6 => fixedZero (h == 0#5) (.or rs rt rd)
  | 0x26#6 => .ok (.xor rs rt rd)
  | 0x2A#6 => fixedZero (h == 0#5) (.slt rs rt rd)
  | 0x2B#6 => fixedZero (h == 0#5) (.sltu rs rt rd)
  | _ => .error .reservedFunct

/-- The rows with `op = 000001`, selected by bits 20:16 (R72, second table). -/
def decodeSelector (w : Word) : Except DecodeError Instr :=
  match tOf w with
  | 0x00#5 => .ok (.bltz (sOf w) (immOf w))
  | 0x01#5 => .ok (.bgez (sOf w) (immOf w))
  | 0x10#5 => .ok (.bltzal (sOf w) (immOf w))
  | 0x11#5 => .ok (.bgezal (sOf w) (immOf w))
  | _ => .error .reservedSelector

/-- BLEZ and BGTZ: bits 20:16 must be 0 (R72, R73). -/
def zeroSelector (w : Word) (i : Instr) : Except DecodeError Instr :=
  if tOf w = 0#5 then .ok i else .error .nonzeroSelector

/-- The decode rule R63 over the complete map R72: the instruction a word encodes, or why the word is reserved (R75). -/
def decode (w : Word) : Except DecodeError Instr :=
  let rs := sOf w
  let rt := tOf w
  let imm := immOf w
  match opOf w with
  | 0x00#6 => decodeSpecial w
  | 0x01#6 => decodeSelector w
  | 0x02#6 => .ok (.j (targetOf w))
  | 0x03#6 => .ok (.jal (targetOf w))
  | 0x04#6 => .ok (.beq rs rt imm)
  | 0x05#6 => .ok (.bne rs rt imm)
  | 0x06#6 => zeroSelector w (.blez rs imm)
  | 0x07#6 => zeroSelector w (.bgtz rs imm)
  | 0x08#6 => .ok (.addi rs rt imm)
  | 0x09#6 => .ok (.addiu rs rt imm)
  | 0x0A#6 => .ok (.slti rs rt imm)
  | 0x0B#6 => .ok (.sltiu rs rt imm)
  | 0x0C#6 => .ok (.andi rs rt imm)
  | 0x0D#6 => .ok (.ori rs rt imm)
  | 0x0E#6 => .ok (.xori rs rt imm)
  | 0x0F#6 => .ok (.lui rt imm)
  | 0x20#6 => .ok (.lb rs rt imm)
  | 0x23#6 => .ok (.lw rs rt imm)
  | 0x28#6 => .ok (.sb rs rt imm)
  | 0x2B#6 => .ok (.sw rs rt imm)
  | _ => .error .reservedOp

/-- The instruction in the first four of the given bytes, the first byte at the lowest address (R43, R60). -/
def decodeBytes (order : ByteOrder) : List Byte → Except DecodeError Instr
  | b0 :: b1 :: b2 :: b3 :: _ => decode (wordOfBytes order b0 b1 b2 b3)
  | _ => .error .truncated

/-- The four bytes of a word as they lie in memory, the lowest address first (R41, R43). -/
def bytesOfWord (order : ByteOrder) (v : Word) : List Byte :=
  [byteOfWord order v 0, byteOfWord order v 1, byteOfWord order v 2, byteOfWord order v 3]

/-- The instruction the decoder reads from the low `nbits` bits of `w`, the bits above them 0. The word is laid out as bytes and
assembled again in big order; the order does not matter, since both use the same one (R43; entry 17). -/
def decodeTableWord (nbits w : Nat) : Option Instr :=
  (decodeBytes .big (bytesOfWord .big (BitVec.ofNat 32 (w % 2 ^ nbits)))).toOption

/-! ### Encoding -/

/-- A word of the R layout with `op = 000000` (R62). -/
def rWord (rs rt rd : Reg) (h : Shamt) (funct : BitVec 6) : Word := 0#6 ++ rs ++ rt ++ rd ++ h ++ funct

/-- A word of the I layout (R62). -/
def iWord (op : BitVec 6) (rs rt : Reg) (imm : Imm) : Word := op ++ rs ++ rt ++ imm

/-- A word of the J layout (R62). -/
def jWord (op : BitVec 6) (target : Target) : Word := op ++ target

/-- The word of an instruction by its encoding string (R72), every hyphen bit 0 (DESIGN CHOICE, entry 16; safe: the hyphen bits
are ignored by the decoder). -/
def encode : Instr → Word
  | .add rs rt rd => rWord rs rt rd 0 0x20
  | .addi rs rt imm => iWord 0x08 rs rt imm
  | .addiu rs rt imm => iWord 0x09 rs rt imm
  | .addu rs rt rd => rWord rs rt rd 0 0x21
  | .and rs rt rd => rWord rs rt rd 0 0x24
  | .andi rs rt imm => iWord 0x0C rs rt imm
  | .beq rs rt imm => iWord 0x04 rs rt imm
  | .bgez rs imm => iWord 0x01 rs 0x01 imm
  | .bgezal rs imm => iWord 0x01 rs 0x11 imm
  | .bgtz rs imm => iWord 0x07 rs 0 imm
  | .blez rs imm => iWord 0x06 rs 0 imm
  | .bltz rs imm => iWord 0x01 rs 0x00 imm
  | .bltzal rs imm => iWord 0x01 rs 0x10 imm
  | .bne rs rt imm => iWord 0x05 rs rt imm
  | .div rs rt => rWord rs rt 0 0 0x1A
  | .divu rs rt => rWord rs rt 0 0 0x1B
  | .j target => jWord 0x02 target
  | .jal target => jWord 0x03 target
  | .jr rs => rWord rs 0 0 0 0x08
  | .lb rs rt imm => iWord 0x20 rs rt imm
  | .lui rt imm => iWord 0x0F 0 rt imm
  | .lw rs rt imm => iWord 0x23 rs rt imm
  | .mfhi rd => rWord 0 0 rd 0 0x10
  | .mflo rd => rWord 0 0 rd 0 0x12
  | .mult rs rt => rWord rs rt 0 0 0x18
  | .multu rs rt => rWord rs rt 0 0 0x19
  | .noop => 0
  | .or rs rt rd => rWord rs rt rd 0 0x25
  | .ori rs rt imm => iWord 0x0D rs rt imm
  | .sb rs rt imm => iWord 0x28 rs rt imm
  | .sll rs rt rd h => rWord rs rt rd h 0x00
  | .sllv rs rt rd => rWord rs rt rd 0 0x04
  | .slt rs rt rd => rWord rs rt rd 0 0x2A
  | .slti rs rt imm => iWord 0x0A rs rt imm
  | .sltiu rs rt imm => iWord 0x0B rs rt imm
  | .sltu rs rt rd => rWord rs rt rd 0 0x2B
  | .sra rt rd h => rWord 0 rt rd h 0x03
  | .srl rt rd h => rWord 0 rt rd h 0x02
  | .srlv rs rt rd => rWord rs rt rd 0 0x06
  | .sub rs rt rd => rWord rs rt rd 0 0x22
  | .subu rs rt rd => rWord rs rt rd 0 0x23
  | .sw rs rt imm => iWord 0x2B rs rt imm
  | .syscall => rWord 0 0 0 0 0x0C
  | .xor rs rt rd => rWord rs rt rd 0 0x26
  | .xori rs rt imm => iWord 0x0E rs rt imm

/-! ### The numeric columns of the opcode map (R72) -/

/-- The `match` column of an instruction's row. -/
def Instr.mapMatch : Instr → Word
  | .add .. => 0x00000020
  | .addi .. => 0x20000000
  | .addiu .. => 0x24000000
  | .addu .. => 0x00000021
  | .and .. => 0x00000024
  | .andi .. => 0x30000000
  | .beq .. => 0x10000000
  | .bgez .. => 0x04010000
  | .bgezal .. => 0x04110000
  | .bgtz .. => 0x1C000000
  | .blez .. => 0x18000000
  | .bltz .. => 0x04000000
  | .bltzal .. => 0x04100000
  | .bne .. => 0x14000000
  | .div .. => 0x0000001A
  | .divu .. => 0x0000001B
  | .j .. => 0x08000000
  | .jal .. => 0x0C000000
  | .jr .. => 0x00000008
  | .lb .. => 0x80000000
  | .lui .. => 0x3C000000
  | .lw .. => 0x8C000000
  | .mfhi .. => 0x00000010
  | .mflo .. => 0x00000012
  | .mult .. => 0x00000018
  | .multu .. => 0x00000019
  | .noop => 0x00000000
  | .or .. => 0x00000025
  | .ori .. => 0x34000000
  | .sb .. => 0xA0000000
  | .sll .. => 0x00000000
  | .sllv .. => 0x00000004
  | .slt .. => 0x0000002A
  | .slti .. => 0x28000000
  | .sltiu .. => 0x2C000000
  | .sltu .. => 0x0000002B
  | .sra .. => 0x00000003
  | .srl .. => 0x00000002
  | .srlv .. => 0x00000006
  | .sub .. => 0x00000022
  | .subu .. => 0x00000023
  | .sw .. => 0xAC000000
  | .syscall => 0x0000000C
  | .xor .. => 0x00000026
  | .xori .. => 0x38000000

/-- The `mask` column of an instruction's row. -/
def Instr.mapMask : Instr → Word
  | .add .. => 0xFC0007FF
  | .addi .. => 0xFC000000
  | .addiu .. => 0xFC000000
  | .addu .. => 0xFC0007FF
  | .and .. => 0xFC0007FF
  | .andi .. => 0xFC000000
  | .beq .. => 0xFC000000
  | .bgez .. => 0xFC1F0000
  | .bgezal .. => 0xFC1F0000
  | .bgtz .. => 0xFC1F0000
  | .blez .. => 0xFC1F0000
  | .bltz .. => 0xFC1F0000
  | .bltzal .. => 0xFC1F0000
  | .bne .. => 0xFC000000
  | .div .. => 0xFC00FFFF
  | .divu .. => 0xFC00FFFF
  | .j .. => 0xFC000000
  | .jal .. => 0xFC000000
  | .jr .. => 0xFC1FFFFF
  | .lb .. => 0xFC000000
  | .lui .. => 0xFC000000
  | .lw .. => 0xFC000000
  | .mfhi .. => 0xFFFF07FF
  | .mflo .. => 0xFFFF07FF
  | .mult .. => 0xFC00FFFF
  | .multu .. => 0xFC00FFFF
  | .noop => 0xFFFFFFFF
  | .or .. => 0xFC0007FF
  | .ori .. => 0xFC000000
  | .sb .. => 0xFC000000
  | .sll .. => 0xFC00003F
  | .sllv .. => 0xFC00003F
  | .slt .. => 0xFC0007FF
  | .slti .. => 0xFC000000
  | .sltiu .. => 0xFC000000
  | .sltu .. => 0xFC0007FF
  | .sra .. => 0xFC00003F
  | .srl .. => 0xFC00003F
  | .srlv .. => 0xFC0007FF
  | .sub .. => 0xFC0007FF
  | .subu .. => 0xFC0007FF
  | .sw .. => 0xFC000000
  | .syscall => 0xFC00003F
  | .xor .. => 0xFC00003F
  | .xori .. => 0xFC000000

/-- The hyphen bits of an instruction's row, which decoding ignores (R63, R73; SLL's bits 25:21 are letters and are kept as
an operand, entry 15). -/
def Instr.hyphenBits : Instr → Word
  | .xor .. | .sllv .. => 0x000007C0
  | .srl .. | .sra .. | .lui .. => 0x03E00000
  | .syscall => 0x03FFFFC0
  | _ => 0

end Sys2Proof
end

