-- ==== Sys2Proof/Machine/Flags.lean ====
section
/-! DEFINITION. The processor has no flags (spec 10_state.md R29). The one condition an instruction computes beside its result is
the signed overflow of ADD, ADDI and SUB (40_add_sub.md R100). -/

namespace Sys2Proof.Machine

/-- The integer does not fit a SWORD (R6, R100). -/
def outsideSword (r : Int) : Bool := decide (r < -2 ^ 31 ∨ r > 2 ^ 31 - 1)

/-- `add_overflows(a, b)`: the exact signed sum does not fit (R100). -/
def addOverflows (a b : Word) : Bool := outsideSword (a.toInt + b.toInt)

/-- `sub_overflows(a, b)`: the exact signed difference does not fit (R100). -/
def subOverflows (a b : Word) : Bool := outsideSword (a.toInt - b.toInt)

end Sys2Proof.Machine
end

