-- ==== Sys2Proof/Machine/Operands.lean ====
section
/-! DEFINITION. The operand forms and result values of the instructions, as functions of bits alone (spec 30_encoding.md R64 to
R70; 43_muldiv.md R143, R144; 45_load_store.md R160; 46_shift.md R176; 47_compare.md R180). -/

namespace Sys2Proof.Machine

/-- The operand of ADDI, ADDIU, SLTI and SLTIU: `sext_32(imm)` (R64). -/
def arithImm (imm : Imm) : Word := imm.signExtend 32

/-- The operand of ANDI, ORI and XORI: `zext_32(imm)` (R65, D13; entry 19). -/
def logicImm (imm : Imm) : Word := imm.zeroExtend 32

/-- LUI's result: `imm ++ 0x0000` (R66). -/
def upperImm (imm : Imm) : Word := imm ++ 0#16

/-- What a taken branch adds to `npc`: `sext_32(imm) << 2` (R67, D15). -/
def branchOffset (imm : Imm) : Word := imm.signExtend 32 <<< 2

/-- The effective address `base + sext_32(imm)` modulo `2^32` (R47, R68, R160). -/
def effectiveAddress (base : Word) (imm : Imm) : Word := base + imm.signExtend 32

/-- The destination of J and JAL, `pcAfter` being the address of the instruction after the jump (R69, R150, D18). -/
def jumpTarget (pcAfter : Word) (target : Target) : Word :=
  (pcAfter &&& 0xF0000000) ||| (target.zeroExtend 32 <<< 2)

/-- `shl(v, n)` (R176). -/
def shl (v : Word) (n : Shamt) : Word := v <<< n.toNat

/-- `shrl(v, n)` (R176). -/
def shrl (v : Word) (n : Shamt) : Word := v >>> n.toNat

/-- `shra(v, n)` (R176). -/
def shra (v : Word) (n : Shamt) : Word := v.sshiftRight n.toNat

/-- The shift count of SLLV and SRLV: the low five bits of the register (R176, D14; entry 19). -/
def shiftCount (v : Word) : Shamt := v.extractLsb' 0 5

/-- The value of a comparison instruction: all 32 bits, 1 or 0 (R180). -/
def setOn (c : Bool) : Word := if c then 1 else 0

/-- Less than as SWORD (R180). -/
def lessSigned (a b : Word) : Bool := decide (a.toInt < b.toInt)

/-- Less than as UWORD (R180). -/
def lessUnsigned (a b : Word) : Bool := decide (a.toNat < b.toNat)

/-- The byte in a register after LB: sign-extended (R161, D12; entry 19). -/
def loadedByte (b : Byte) : Word := b.signExtend 32

/-- The byte SB stores: `x[t][7:0]` (R164). -/
def storedByte (v : Word) : Byte := v.extractLsb' 0 8

/-- The product of MULT as an exact integer (R141). -/
def signedProduct (a b : Word) : Int := a.toInt * b.toInt

/-- The product of MULTU as an exact integer (R142). -/
def unsignedProduct (a b : Word) : Int := (a.toNat * b.toNat : Nat)

/-- Bits 31:0 of a product (R144). -/
def productLow (p : Int) : Word := BitVec.ofInt 32 p

/-- Bits 63:32 of the 64-bit pattern of a product (R144). -/
def productHigh (p : Int) : Word := (BitVec.ofInt 64 p).extractLsb' 32 32

/-- DIV has no specified result: a zero divisor or the overflowing pair (R137, R143, D10). -/
def divUndefined (n m : Word) : Bool := decide (m.toInt = 0 ∨ (n.toInt = -2 ^ 31 ∧ m.toInt = -1))

/-- The quotient of DIV, rounded toward zero (R137, R143, D11). -/
def signedQuotient (n m : Word) : Word := BitVec.ofInt 32 (n.toInt.tdiv m.toInt)

/-- The remainder of DIV, `n - q * m` (R137, R143). -/
def signedRemainder (n m : Word) : Word := BitVec.ofInt 32 (n.toInt - n.toInt.tdiv m.toInt * m.toInt)

/-- The quotient of DIVU (R138). -/
def unsignedQuotient (n m : Word) : Word := BitVec.ofNat 32 (n.toNat / m.toNat)

/-- The remainder of DIVU, `n - q * m` (R138). -/
def unsignedRemainder (n m : Word) : Word := BitVec.ofNat 32 (n.toNat - n.toNat / m.toNat * m.toNat)

end Sys2Proof.Machine
end

