-- ==== Sys2Proof/Machine/Launch.lean ====
section
/-! DEFINITION. The address map of a launch (spec 20_memory.md R48, 00_scope.md R4) and the launch of `State.reset`
(70_reset_and_hazards.md R230). -/

namespace Sys2Proof.Machine

/-- The byte address `a` lies in the region. -/
def regionHas (r : Region) (a : Nat) : Bool := r.base ≤ a && a < r.base + r.size

/-- `a` is in MAPPED: some region has it (R48). -/
def inMapped (l : Launch) (a : Nat) : Bool := l.map.any fun r => regionHas r a

/-- `a` is in CODE: some code region has it (R48). -/
def inCode (l : Launch) (a : Nat) : Bool := l.map.any fun r => r.kind == .code && regionHas r a

/-- The byte addresses `a`, `a + 1`, ... of an access of `n` bytes, each modulo `2^32` (R41). -/
def accessBytes (a : Word) (n : Nat) : List Nat := (List.range n).map fun k => (a + BitVec.ofNat 32 k).toNat

/-- Every byte of the access is in MAPPED. -/
def allMapped (l : Launch) (a : Word) (n : Nat) : Bool := (accessBytes a n).all (inMapped l)

/-- Every byte of the access is in CODE. -/
def allInCode (l : Launch) (a : Word) (n : Nat) : Bool := (accessBytes a n).all (inCode l)

/-- Some byte of the access is in CODE. -/
def someInCode (l : Launch) (a : Word) (n : Nat) : Bool := (accessBytes a n).any (inCode l)

/-- `addr[1:0] = 0`: a multiple of 4 (R44, R45). -/
def aligned4 (a : Word) : Bool := a.extractLsb' 0 2 == 0#2

/-- A launch the spec admits: the regions lie in the 32-bit space and code regions are made of whole words (R4, R40;
92_eei_decisions.md, "4-byte granular"), and ENTRY_PC is a multiple of 4 inside CODE (R4, R32). No step depends on it. -/
def launchWf (l : Launch) : Bool :=
  (l.map.all fun r => r.base + r.size ≤ 2 ^ 32 && (r.kind != .code || (r.base % 4 == 0 && r.size % 4 == 0)))
    && aligned4 l.entryPc && allInCode l l.entryPc 4

/-- The launch of `State.reset`. The spec leaves BYTE_ORDER, ENTRY_PC, MAPPED and CODE to the launch: big order, and the entry
and the map A1 of 95_test_vectors.md (DESIGN CHOICE, entry 2; unsafe). The rest are the defaults of 92_eei_decisions.md. -/
def resetLaunch : Launch where
  byteOrder := .big
  entryPc := 0x00400000
  map := [⟨0x00400000, 0x100, .code⟩, ⟨0x10010000, 0x10000, .data⟩]
  multHi := .any
  linkNotTaken := .any
  loadDelayCheck := false
  hiLoHazardCheck := false

end Sys2Proof.Machine
end

