-- ==== Sys2Proof/Machine/Memory.lean ====
section
/-! DEFINITION. `MEM`: a byte for each byte address (spec 20_memory.md R40, R41), as a list of cells in one canonical form. Which
addresses exist is the launch's (Launch.lean); an access to one that does not exist faults before it comes here. -/

namespace Sys2Proof.Machine

/-- Memory as its listed cells; every other address reads as `unlistedByte`. -/
structure Memory where
  cells : List Host.Cell
deriving DecidableEq, Repr

/-- What an address that is not listed reads as: the byte 00 (DESIGN CHOICE, entry 6; unsafe for a run from `State.reset`
only: the launch image is a parameter of R230, and every image is some memory). -/
def unlistedByte : Byte := 0

/-- The byte that a list of cells has at `a`. -/
def readCells : List Host.Cell → Nat → Byte
  | [], _ => unlistedByte
  | (b, v) :: rest, a => if a = b then v else readCells rest a

/-- The cells but those for `a`. -/
def eraseCell (cells : List Host.Cell) (a : Nat) : List Host.Cell := cells.filter fun c => c.1 ≠ a

/-- The cells with one for `a` put before the first higher address. -/
def insertCell : List Host.Cell → Nat → Byte → List Host.Cell
  | [], a, v => [(a, v)]
  | (b, u) :: rest, a, v => if a < b then (a, v) :: (b, u) :: rest else (b, u) :: insertCell rest a v

/-- The cells after `MEM[a] <- v`: a byte that an unlisted address reads as is not listed. -/
def writeCells (cells : List Host.Cell) (a : Nat) (v : Byte) : List Host.Cell :=
  if v = unlistedByte then eraseCell cells a else insertCell (eraseCell cells a) a v

/-- `MEM[a]` (R41). -/
def Memory.read (m : Memory) (a : Nat) : Byte := readCells m.cells a

/-- `MEM[a] <- v` (R41): no other byte changes (R46). -/
def Memory.write (m : Memory) (a : Nat) (v : Byte) : Memory := ⟨writeCells m.cells a v⟩

/-- Each cell's address is below the next one's, inside the 32-bit space (R40), and its byte is not `unlistedByte`. -/
def cellsWf : List Host.Cell → Bool
  | [] => true
  | (a, v) :: rest =>
    decide (a < 2 ^ 32) && v != unlistedByte && (match rest with | [] => true | (b, _) :: _ => decide (a < b)) && cellsWf rest

/-- The canonical form, so that equal memories are equal data. -/
def Memory.wf (m : Memory) : Bool := cellsWf m.cells

end Sys2Proof.Machine
end

