-- ==== Sys2Proof/Machine/State.lean ====
section
/-! DEFINITION. The state of the processor, its stops, and the state after reset (spec 10_state.md R20 to R32; 00_scope.md R10;
60_exceptions.md R200, R212). -/

namespace Sys2Proof.Machine

/-- Whether the last step's outcome was EnvCall (R10). The host's interface has three outcomes and the spec four: EnvCall(state')
is the outcome `next state'` with this mark set (DESIGN CHOICE, entry 8; safe). -/
inductive RunStatus where
  /-- No EnvCall is pending. -/
  | running
  /-- A SYSCALL was executed: this is the state' of EnvCall(state'), and the environment acts next (R191). -/
  | envCall
deriving DecidableEq, Repr

/-- What the environment does to the state at one EnvCall that it lets resume (SYSCALL_EFFECT: R24, R191, R209): values for
registers, `hi`, `lo` and bytes of memory; `pc` and `npc` stay as SYSCALL left them (DESIGN CHOICE, entry 9; safe). -/
structure EnvReply where
  regs : List (Reg × Word)
  hi : Option Word
  lo : Option Word
  mem : List (Word × Byte)
deriving DecidableEq, Repr

/-- How many of the two instructions after the last MFHI or MFLO are still to come (R244). -/
inductive HiLoWindow where
  | clear
  | oneLeft
  | twoLeft
deriving DecidableEq, Repr

/-- The faults of R200. A fault ends the run; the state is that before the instruction (R201). Each carries its info, where the
spec records one, then `pc` and `npc` of the state it was raised in. -/
inductive Fault where
  /-- ADD, ADDI, SUB: the signed result does not fit 32 bits (R100). Safe: the spec's own outcome. -/
  | overflow (pc npc : Word)
  /-- LW: the effective address is not a multiple of 4 (R44). Safe: the spec's own outcome. -/
  | addressErrorLoad (ea pc npc : Word)
  /-- SW: the effective address is not a multiple of 4 (R44). Safe: the spec's own outcome. -/
  | addressErrorStore (ea pc npc : Word)
  /-- Any fetch: `pc`, which is the info, is not a multiple of 4 (R45). Safe: the spec's own outcome. -/
  | addressErrorFetch (pc npc : Word)
  /-- Any fetch: a byte of `pc .. pc+3` is outside CODE; `pc` is the info (R48). Safe: the spec's own outcome. -/
  | busErrorFetch (pc npc : Word)
  /-- LB, LW, SB, SW: a byte of the access is outside MAPPED (R48). Safe: the spec's own outcome. -/
  | busErrorData (ea pc npc : Word)
  /-- Any decode: the fetched word is reserved (R75). Safe: the spec's own outcome. -/
  | reservedInstruction (word pc npc : Word)
deriving DecidableEq, Repr

/-- The refusals of R212, each with the `pc` of R10, and those of the model. -/
inductive Refusal where
  /-- The eleven control transfers, when `npc != pc + 4` (R120). Safe: the spec's own outcome. -/
  | ctiInDelaySlot (pc : Word)
  /-- SB, SW: a byte of the store is in CODE (R53). Safe: the spec's own outcome. -/
  | storeToCode (pc : Word)
  /-- Any instruction that reads the register loaded by the step before, when LOAD_DELAY_CHECK is on (R243). Safe. -/
  | loadDelay (pc : Word)
  /-- MULT, MULTU, DIV, DIVU within two instructions after MFHI or MFLO, when HILO_HAZARD_CHECK is on (R244). Safe. -/
  | hiLoHazard (pc : Word)
  /-- A step after the run's normal end: an EnvCall to which the environment gives no reply (R219). Safe: the run is over and
  nothing is claimed of it (entry 10). -/
  | runEnded (pc : Word)
  /-- A resuming step whose reply would write a byte outside MAPPED or inside CODE. Safe: no verdict (entry 11). -/
  | envReplyOutsideMap (pc : Word)
  /-- The host's refusal for an instruction without a meaning; no arm of `exec` uses it. Safe. -/
  | notModelled (mnemonic : String)
deriving DecidableEq, Repr

/-- The state: all that R20 names, then the launch's parameters (entry 1), then the model's own bookkeeping. -/
structure State where
  /-- The general purpose registers; slot 0 is never read (R21, R22). -/
  x : Vector Word 32
  /-- `$HI` (R25). -/
  hi : Word
  /-- `$LO` (R25). -/
  lo : Word
  /-- The address of the instruction being executed (R26). -/
  pc : Word
  /-- The address of the instruction to be executed next (R26). -/
  npc : Word
  /-- `MEM` (R40, R41). -/
  mem : Memory
  /-- The open parameters (R4): configuration that no step changes. -/
  launch : Launch
  /-- Whether the state is that of an EnvCall (R10). -/
  run : RunStatus
  /-- The environment's replies still to come; with none left it ends the run at the next EnvCall (SYSCALL_EFFECT, R191). -/
  env : List EnvReply
  /-- How many unspecified values have been drawn (R136, D29; entry 7). -/
  draws : Nat
  /-- The register loaded by an LB or LW executed in the step before, if not `x[0]` (R243). -/
  lastLoad : Option Reg
  /-- The window of R244. -/
  hiLoWindow : HiLoWindow
deriving DecidableEq, Repr

/-- The start of a run (R32, R230): `x[0] = 0`, `pc = ENTRY_PC`, `npc = ENTRY_PC + 4`, under the launch `resetLaunch`. The spec gives
no value for `x[1]` to `x[31]`, `hi` and `lo`: they are named 0 here (DESIGN CHOICE, entries 4 and 5; unsafe), and nothing is
listed in memory (entry 6). -/
def State.reset : State where
  x := Vector.replicate 32 0
  hi := 0
  lo := 0
  pc := resetLaunch.entryPc
  npc := resetLaunch.entryPc + 4#32
  mem := ⟨[]⟩
  launch := resetLaunch
  run := .running
  env := []
  draws := 0
  lastLoad := none
  hiLoWindow := .clear

end Sys2Proof.Machine
end

