-- ==== Sys2Proof/Machine/Ops.lean ====
section
/-! DEFINITION. The named operations over registers, program counters and memory, raising an exception, and the environment's act
at an EnvCall (spec 00_scope.md R7, R8; 20_memory.md R41 to R48; 60_exceptions.md R201, R209). -/

namespace Sys2Proof.Machine

/-- The outcomes of a step of this machine. -/
abbrev Result := Host.Outcome State Fault Refusal

/-! ### Registers -/

/-- `x[i]` (R7): register 0 reads as 0 (R22). -/
def State.readReg (s : State) (i : Reg) : Word := if i = 0#5 then 0 else s.x[i.toNat]'i.isLt

/-- `x[i] <- v` (R7): a write to register 0 is discarded (R22). -/
def State.writeReg (s : State) (i : Reg) (v : Word) : State :=
  if i = 0#5 then s else { s with x := s.x.set i.toNat v i.isLt }

/-- `x[i] <- v` for each pair of the list in its order, so that the last value for a register stays. -/
def State.writeRegs (s : State) (values : List (Reg × Word)) : State := values.foldl (fun s w => s.writeReg w.1 w.2) s

/-- `hi <- v` (R25). -/
def State.setHi (s : State) (v : Word) : State := { s with hi := v }

/-- `lo <- v` (R25). -/
def State.setLo (s : State) (v : Word) : State := { s with lo := v }

/-- The next unspecified value (R136, D29). -/
def State.drawn (s : State) : Word := Config.freeWord s.draws

/-- The state after that value has been drawn, so that the next draw is another one. -/
def State.afterDraw (s : State) : State := { s with draws := s.draws + 1 }

/-- `hi <- unspecified` (R136). -/
def State.freeHi (s : State) : State := s.afterDraw.setHi s.drawn

/-- `lo <- unspecified` (R136). -/
def State.freeLo (s : State) : State := s.afterDraw.setLo s.drawn

/-- `x[i] <- unspecified` (R130). -/
def State.freeReg (s : State) (i : Reg) : State := s.afterDraw.writeReg i s.drawn

/-! ### Program counters -/

/-- `pc <- npc; npc <- target`: the counters after a jump (R150). -/
def State.jumpTo (s : State) (target : Word) : State := { s with pc := s.npc, npc := target }

/-- `advance_pc(off)`: `pc <- npc; npc <- npc + off` (R8). -/
def State.advancePc (s : State) (off : Word) : State := s.jumpTo (s.npc + off)

/-- The end of every instruction that is no taken branch and no jump: `advance_pc(4)` (R27). -/
def advance (s : State) : Result := .next (s.advancePc 4#32)

/-! ### Exceptions and refusals -/

/-- Raising an exception (R201): the step's outcome is the fault with `pc` and `npc` as they are; no state follows it. The spec
gives no handler, no vector and no return (R209; entry 12). -/
def raise (kind : Word → Word → Fault) (s : State) : Result := .fault (kind s.pc s.npc)

/-- `refuse K` (R7, R10). -/
def refuse (kind : Word → Refusal) (s : State) : Result := .refused (kind s.pc)

/-- The end of an instruction whose one result goes to register `d`: `x[d] <- v; advance_pc(4)`. -/
def setReg (s : State) (d : Reg) (v : Word) : Result := advance (s.writeReg d v)

/-- `if overflows then raise Overflow()`, else the result is written (R100). The check is made even when `d = 0` (R22). -/
def setRegTrapping (s : State) (overflows : Bool) (d : Reg) (v : Word) : Result :=
  if overflows then raise .overflow s else setReg s d v

/-- What a control transfer does, unless it is executed with `npc != pc + 4`, in a taken delay slot, where it is refused (R120,
R150; entry 13). -/
def transfer (s after : State) : Result :=
  if s.npc = s.pc + 4#32 then .next after else refuse .ctiInDelaySlot s

/-- A conditional branch: `advance_pc(sext_32(imm) << 2)` when taken, else `advance_pc(4)` (R121). -/
def branch (s : State) (taken : Bool) (imm : Imm) : Result :=
  transfer s (s.advancePc (if taken then branchOffset imm else 4#32))

/-- The register 31 that links write (R23). -/
def linkReg : Reg := 31#5

/-- `x[31] <- pc + 8` (R130). -/
def State.link (s : State) : State := s.writeReg linkReg (s.pc + 8#32)

/-- `link_not_taken()`: what a not-taken BGEZAL or BLTZAL does to `x[31]` (R130, D17). -/
def State.linkNotTaken (s : State) : State :=
  match s.launch.linkNotTaken with
  | .any => s.freeReg linkReg
  | .unchanged => s
  | .link => s.link

/-- A linking conditional branch (R124, R128, R130). -/
def branchAndLink (s : State) (taken : Bool) (imm : Imm) : Result :=
  transfer s (if taken then s.link.advancePc (branchOffset imm) else s.linkNotTaken.advancePc 4#32)

/-- `hi` after a multiply whose exact product is `p` (R144, D9). -/
def State.multHi (s : State) (p : Int) : State :=
  match s.launch.multHi with
  | .any => s.freeHi
  | .highWord => s.setHi (productHigh p)
  | .unchanged => s

/-! ### Memory -/

/-- `MEM[a]`, without the checks (R41). -/
def State.readByte (s : State) (a : Word) : Byte := s.mem.read a.toNat

/-- `MEM[a] <- v`, without the checks (R41). -/
def State.writeByte (s : State) (a : Word) (v : Byte) : State := { s with mem := s.mem.write a.toNat v }

/-- `MEM[a] <- v` for each pair of the list in its order, so that the last value for an address stays. -/
def State.writeBytes (s : State) (values : List (Word × Byte)) : State := values.foldl (fun s w => s.writeByte w.1 w.2) s

/-- `MemRead(a, 4)`, without the checks (R41). -/
def State.readWord (s : State) (a : Word) : Word :=
  wordOfBytes s.launch.byteOrder (s.readByte a) (s.readByte (a + 1#32)) (s.readByte (a + 2#32)) (s.readByte (a + 3#32))

/-- `MemWrite(a, 4, v)`, without the checks (R41). -/
def State.writeWord (s : State) (a : Word) (v : Word) : State :=
  (((s.writeByte a (byteOfWord s.launch.byteOrder v 0)).writeByte (a + 1#32) (byteOfWord s.launch.byteOrder v 1)).writeByte
    (a + 2#32) (byteOfWord s.launch.byteOrder v 2)).writeByte (a + 3#32) (byteOfWord s.launch.byteOrder v 3)

/-- A load of one byte: `BusErrorData` outside MAPPED (R48), else `use` of the byte. -/
def loadByte (s : State) (ea : Word) (use : Byte → Result) : Result :=
  if allMapped s.launch ea 1 then use (s.readByte ea) else raise (.busErrorData ea) s

/-- A load of a word: alignment (R44), then mapping (R48), then `use` of the word. -/
def loadWord (s : State) (ea : Word) (use : Word → Result) : Result :=
  if aligned4 ea then
    if allMapped s.launch ea 4 then use (s.readWord ea) else raise (.busErrorData ea) s
  else raise (.addressErrorLoad ea) s

/-- The checks of a store of `n` bytes after its alignment check: mapping (R48), then the CODE refusal (R53), in the order of
R208; then `go`. -/
def storeChecks (s : State) (ea : Word) (n : Nat) (go : Result) : Result :=
  if allMapped s.launch ea n then
    if someInCode s.launch ea n then refuse .storeToCode s else go
  else raise (.busErrorData ea) s

/-- A store of one byte, then `advance_pc(4)` (R164). -/
def storeByte (s : State) (ea : Word) (v : Byte) : Result :=
  storeChecks s ea 1 (advance (s.writeByte ea v))

/-- A store of a word, then `advance_pc(4)` (R165). -/
def storeWord (s : State) (ea : Word) (v : Word) : Result :=
  if aligned4 ea then storeChecks s ea 4 (advance (s.writeWord ea v)) else raise (.addressErrorStore ea) s

/-! ### The environment -/

/-- Every byte the reply writes is mapped and outside CODE, which is never stored to (R4). -/
def replyAllowed (l : Launch) (r : EnvReply) : Bool := r.mem.all fun c => inMapped l c.1.toNat && !inCode l c.1.toNat

/-- The state as the reply leaves it: registers, `hi`, `lo`, then bytes of memory, each list in its order (entry 9). -/
def State.applyReply (s : State) (r : EnvReply) : State :=
  (((s.writeRegs r.regs).setHi (r.hi.getD s.hi)).setLo (r.lo.getD s.lo)).writeBytes r.mem

/-- The state in which the next instruction is fetched. While the run goes on it is the state itself; at an EnvCall the
environment's next reply resumes the run at the advanced `pc` (R191, R209), and with no reply left the run has ended (R219;
entry 10). -/
def State.resume (s : State) : Except Refusal State :=
  match s.run, s.env with
  | .running, _ => .ok s
  | .envCall, [] => .error (.runEnded s.pc)
  | .envCall, r :: rest =>
    if replyAllowed s.launch r then .ok { s.applyReply r with run := .running, env := rest }
    else .error (.envReplyOutsideMap s.pc)

end Sys2Proof.Machine
end

