-- ==== Sys2Proof/Machine/AddSub.lean ====
section
/-! DEFINITION. ADD, ADDI, ADDIU, ADDU, SUB, SUBU (spec 40_add_sub.md). -/

namespace Sys2Proof.Machine

/-- ADD (R101). -/
def execAdd (rs rt rd : Reg) (s : State) : Result :=
  setRegTrapping s (addOverflows (s.readReg rs) (s.readReg rt)) rd (s.readReg rs + s.readReg rt)

/-- ADDI (R102). -/
def execAddi (rs rt : Reg) (imm : Imm) (s : State) : Result :=
  setRegTrapping s (addOverflows (s.readReg rs) (arithImm imm)) rt (s.readReg rs + arithImm imm)

/-- ADDIU (R103). -/
def execAddiu (rs rt : Reg) (imm : Imm) (s : State) : Result := setReg s rt (s.readReg rs + arithImm imm)

/-- ADDU (R104). -/
def execAddu (rs rt rd : Reg) (s : State) : Result := setReg s rd (s.readReg rs + s.readReg rt)

/-- SUB (R105). -/
def execSub (rs rt rd : Reg) (s : State) : Result :=
  setRegTrapping s (subOverflows (s.readReg rs) (s.readReg rt)) rd (s.readReg rs - s.readReg rt)

/-- SUBU (R106). -/
def execSubu (rs rt rd : Reg) (s : State) : Result := setReg s rd (s.readReg rs - s.readReg rt)

end Sys2Proof.Machine
end

