-- ==== Sys2Proof/Machine/Branch.lean ====
section
/-! DEFINITION. BEQ, BGEZ, BGEZAL, BGTZ, BLEZ, BLTZ, BLTZAL, BNE (spec 42_branch.md). Conditions read the registers before the
instruction; the comparisons with zero are of SWORD values (R123). -/

namespace Sys2Proof.Machine

/-- BEQ (R122). -/
def execBeq (rs rt : Reg) (imm : Imm) (s : State) : Result := branch s (s.readReg rs == s.readReg rt) imm

/-- BGEZ (R123). -/
def execBgez (rs : Reg) (imm : Imm) (s : State) : Result := branch s (decide (0 ≤ (s.readReg rs).toInt)) imm

/-- BGEZAL (R124): the old `x[s]` is tested, also when `s = 31` (R130). -/
def execBgezal (rs : Reg) (imm : Imm) (s : State) : Result := branchAndLink s (decide (0 ≤ (s.readReg rs).toInt)) imm

/-- BGTZ (R125). -/
def execBgtz (rs : Reg) (imm : Imm) (s : State) : Result := branch s (decide (0 < (s.readReg rs).toInt)) imm

/-- BLEZ (R126). -/
def execBlez (rs : Reg) (imm : Imm) (s : State) : Result := branch s (decide ((s.readReg rs).toInt ≤ 0)) imm

/-- BLTZ (R127). -/
def execBltz (rs : Reg) (imm : Imm) (s : State) : Result := branch s (decide ((s.readReg rs).toInt < 0)) imm

/-- BLTZAL (R128): the old `x[s]` is tested, also when `s = 31` (R130). -/
def execBltzal (rs : Reg) (imm : Imm) (s : State) : Result := branchAndLink s (decide ((s.readReg rs).toInt < 0)) imm

/-- BNE (R129). -/
def execBne (rs rt : Reg) (imm : Imm) (s : State) : Result := branch s (s.readReg rs != s.readReg rt) imm

end Sys2Proof.Machine
end

