-- ==== Sys2Proof/Machine/Compare.lean ====
section
/-! DEFINITION. SLT, SLTI, SLTIU, SLTU (spec 47_compare.md R180). -/

namespace Sys2Proof.Machine

/-- SLT (R181). -/
def execSlt (rs rt rd : Reg) (s : State) : Result := setReg s rd (setOn (lessSigned (s.readReg rs) (s.readReg rt)))

/-- SLTI (R182). -/
def execSlti (rs rt : Reg) (imm : Imm) (s : State) : Result :=
  setReg s rt (setOn (lessSigned (s.readReg rs) (arithImm imm)))

/-- SLTIU (R183): the immediate is sign-extended, then compared as UWORD. -/
def execSltiu (rs rt : Reg) (imm : Imm) (s : State) : Result :=
  setReg s rt (setOn (lessUnsigned (s.readReg rs) (arithImm imm)))

/-- SLTU (R184). -/
def execSltu (rs rt rd : Reg) (s : State) : Result :=
  setReg s rd (setOn (lessUnsigned (s.readReg rs) (s.readReg rt)))

end Sys2Proof.Machine
end

