-- ==== Sys2Proof/Machine/Jump.lean ====
section
/-! DEFINITION. J, JAL, JR (spec 44_jump.md). The region bits of J and JAL come from the new `pc`, which is the old `npc` (R150). -/

namespace Sys2Proof.Machine

/-- J (R151). -/
def execJ (target : Target) (s : State) : Result := transfer s (s.jumpTo (jumpTarget s.npc target))

/-- JAL (R152). -/
def execJal (target : Target) (s : State) : Result := transfer s (s.link.jumpTo (jumpTarget s.npc target))

/-- JR (R153). No check of the destination is made here (R28). -/
def execJr (rs : Reg) (s : State) : Result := transfer s (s.jumpTo (s.readReg rs))

end Sys2Proof.Machine
end

