-- ==== Sys2Proof/Machine/LoadStore.lean ====
section
/-! DEFINITION. LB, LUI, LW, SB, SW (spec 45_load_store.md). A load to `x[0]` still makes its access (R22). -/

namespace Sys2Proof.Machine

/-- LB (R161). -/
def execLb (rs rt : Reg) (imm : Imm) (s : State) : Result :=
  loadByte s (effectiveAddress (s.readReg rs) imm) fun b => setReg s rt (loadedByte b)

/-- LUI (R162). -/
def execLui (rt : Reg) (imm : Imm) (s : State) : Result := setReg s rt (upperImm imm)

/-- LW (R163). -/
def execLw (rs rt : Reg) (imm : Imm) (s : State) : Result :=
  loadWord s (effectiveAddress (s.readReg rs) imm) fun w => setReg s rt w

/-- SB (R164). -/
def execSb (rs rt : Reg) (imm : Imm) (s : State) : Result :=
  storeByte s (effectiveAddress (s.readReg rs) imm) (storedByte (s.readReg rt))

/-- SW (R165). -/
def execSw (rs rt : Reg) (imm : Imm) (s : State) : Result :=
  storeWord s (effectiveAddress (s.readReg rs) imm) (s.readReg rt)

end Sys2Proof.Machine
end

