-- ==== Sys2Proof/Machine/Logical.lean ====
section
/-! DEFINITION. AND, ANDI, OR, ORI, XOR, XORI (spec 41_logical.md R110). -/

namespace Sys2Proof.Machine

/-- AND (R111). -/
def execAnd (rs rt rd : Reg) (s : State) : Result := setReg s rd (s.readReg rs &&& s.readReg rt)

/-- ANDI (R112). -/
def execAndi (rs rt : Reg) (imm : Imm) (s : State) : Result := setReg s rt (s.readReg rs &&& logicImm imm)

/-- OR (R113). -/
def execOr (rs rt rd : Reg) (s : State) : Result := setReg s rd (s.readReg rs ||| s.readReg rt)

/-- ORI (R114). -/
def execOri (rs rt : Reg) (imm : Imm) (s : State) : Result := setReg s rt (s.readReg rs ||| logicImm imm)

/-- XOR (R115). -/
def execXor (rs rt rd : Reg) (s : State) : Result := setReg s rd (s.readReg rs ^^^ s.readReg rt)

/-- XORI (R116). -/
def execXori (rs rt : Reg) (imm : Imm) (s : State) : Result := setReg s rt (s.readReg rs ^^^ logicImm imm)

end Sys2Proof.Machine
end

