-- ==== Sys2Proof/Machine/MulDiv.lean ====
section
/-! DEFINITION. DIV, DIVU, MFHI, MFLO, MULT, MULTU (spec 43_muldiv.md). None raises an exception (R135). -/

namespace Sys2Proof.Machine

/-- The end of a division: the specified quotient and remainder, or two unspecified values (R136, R143), `lo` first. -/
def setQuotient (s : State) (undefined : Bool) (q r : Word) : Result :=
  advance (if undefined then s.freeLo.freeHi else (s.setLo q).setHi r)

/-- The end of a multiply with exact product `p`: `lo` gets its low word, `hi` what MULT_HI says (R144). -/
def setProduct (s : State) (p : Int) : Result := advance ((s.setLo (productLow p)).multHi p)

/-- DIV (R137). -/
def execDiv (rs rt : Reg) (s : State) : Result :=
  setQuotient s (divUndefined (s.readReg rs) (s.readReg rt)) (signedQuotient (s.readReg rs) (s.readReg rt))
    (signedRemainder (s.readReg rs) (s.readReg rt))

/-- DIVU (R138). -/
def execDivu (rs rt : Reg) (s : State) : Result :=
  setQuotient s (s.readReg rt == 0#32) (unsignedQuotient (s.readReg rs) (s.readReg rt))
    (unsignedRemainder (s.readReg rs) (s.readReg rt))

/-- MFHI (R139). -/
def execMfhi (rd : Reg) (s : State) : Result := setReg s rd s.hi

/-- MFLO (R140). -/
def execMflo (rd : Reg) (s : State) : Result := setReg s rd s.lo

/-- MULT (R141). -/
def execMult (rs rt : Reg) (s : State) : Result := setProduct s (signedProduct (s.readReg rs) (s.readReg rt))

/-- MULTU (R142). -/
def execMultu (rs rt : Reg) (s : State) : Result := setProduct s (unsignedProduct (s.readReg rs) (s.readReg rt))

end Sys2Proof.Machine
end

