-- ==== Sys2Proof/Machine/Shift.lean ====
section
/-! DEFINITION. NOOP, SLL, SLLV, SRA, SRL, SRLV (spec 46_shift.md R176). -/

namespace Sys2Proof.Machine

/-- NOOP (R170). -/
def execNoop (s : State) : Result := advance s

/-- SLL (R171): the field s is not used. -/
def execSll (rt rd : Reg) (h : Shamt) (s : State) : Result := setReg s rd (shl (s.readReg rt) h)

/-- SLLV (R172). -/
def execSllv (rs rt rd : Reg) (s : State) : Result := setReg s rd (shl (s.readReg rt) (shiftCount (s.readReg rs)))

/-- SRA (R173). -/
def execSra (rt rd : Reg) (h : Shamt) (s : State) : Result := setReg s rd (shra (s.readReg rt) h)

/-- SRL (R174). -/
def execSrl (rt rd : Reg) (h : Shamt) (s : State) : Result := setReg s rd (shrl (s.readReg rt) h)

/-- SRLV (R175). -/
def execSrlv (rs rt rd : Reg) (s : State) : Result := setReg s rd (shrl (s.readReg rt) (shiftCount (s.readReg rs)))

end Sys2Proof.Machine
end

