-- ==== Sys2Proof/Machine/System.lean ====
section
/-! DEFINITION. SYSCALL (spec 48_system.md R190, R191; 60_exceptions.md R210). -/

namespace Sys2Proof.Machine

/-- SYSCALL (R191): `advance_pc(4)`, and the outcome is EnvCall of that state (R10), which is the next state with `run` set
(entry 8). What the environment then does is `State.resume`. -/
def execSyscall (s : State) : Result := advance { s with run := .envCall }

end Sys2Proof.Machine
end

