-- ==== Sys2Proof/Machine/Dispatch.lean ====
section
/-! DEFINITION. Each instruction to its meaning, in the order of opcode_table.json. -/

namespace Sys2Proof.Machine

/-- Executing one instruction (spec 10_state.md R27, the last line of the cycle). -/
def exec (i : Instr) (s : State) : Host.Outcome State Fault Refusal :=
  match i with
  | .add rs rt rd => Sys2Proof.Machine.execAdd rs rt rd s
  | .addi rs rt imm => Sys2Proof.Machine.execAddi rs rt imm s
  | .addiu rs rt imm => Sys2Proof.Machine.execAddiu rs rt imm s
  | .addu rs rt rd => Sys2Proof.Machine.execAddu rs rt rd s
  | .and rs rt rd => Sys2Proof.Machine.execAnd rs rt rd s
  | .andi rs rt imm => Sys2Proof.Machine.execAndi rs rt imm s
  | .beq rs rt imm => Sys2Proof.Machine.execBeq rs rt imm s
  | .bgez rs imm => Sys2Proof.Machine.execBgez rs imm s
  | .bgezal rs imm => Sys2Proof.Machine.execBgezal rs imm s
  | .bgtz rs imm => Sys2Proof.Machine.execBgtz rs imm s
  | .blez rs imm => Sys2Proof.Machine.execBlez rs imm s
  | .bltz rs imm => Sys2Proof.Machine.execBltz rs imm s
  | .bltzal rs imm => Sys2Proof.Machine.execBltzal rs imm s
  | .bne rs rt imm => Sys2Proof.Machine.execBne rs rt imm s
  | .div rs rt => Sys2Proof.Machine.execDiv rs rt s
  | .divu rs rt => Sys2Proof.Machine.execDivu rs rt s
  | .j target => Sys2Proof.Machine.execJ target s
  | .jal target => Sys2Proof.Machine.execJal target s
  | .jr rs => Sys2Proof.Machine.execJr rs s
  | .lb rs rt imm => Sys2Proof.Machine.execLb rs rt imm s
  | .lui rt imm => Sys2Proof.Machine.execLui rt imm s
  | .lw rs rt imm => Sys2Proof.Machine.execLw rs rt imm s
  | .mfhi rd => Sys2Proof.Machine.execMfhi rd s
  | .mflo rd => Sys2Proof.Machine.execMflo rd s
  | .mult rs rt => Sys2Proof.Machine.execMult rs rt s
  | .multu rs rt => Sys2Proof.Machine.execMultu rs rt s
  | .noop => Sys2Proof.Machine.execNoop s
  | .or rs rt rd => Sys2Proof.Machine.execOr rs rt rd s
  | .ori rs rt imm => Sys2Proof.Machine.execOri rs rt imm s
  | .sb rs rt imm => Sys2Proof.Machine.execSb rs rt imm s
  | .sll _ rt rd h => Sys2Proof.Machine.execSll rt rd h s
  | .sllv rs rt rd => Sys2Proof.Machine.execSllv rs rt rd s
  | .slt rs rt rd => Sys2Proof.Machine.execSlt rs rt rd s
  | .slti rs rt imm => Sys2Proof.Machine.execSlti rs rt imm s
  | .sltiu rs rt imm => Sys2Proof.Machine.execSltiu rs rt imm s
  | .sltu rs rt rd => Sys2Proof.Machine.execSltu rs rt rd s
  | .sra rt rd h => Sys2Proof.Machine.execSra rt rd h s
  | .srl rt rd h => Sys2Proof.Machine.execSrl rt rd h s
  | .srlv rs rt rd => Sys2Proof.Machine.execSrlv rs rt rd s
  | .sub rs rt rd => Sys2Proof.Machine.execSub rs rt rd s
  | .subu rs rt rd => Sys2Proof.Machine.execSubu rs rt rd s
  | .sw rs rt imm => Sys2Proof.Machine.execSw rs rt imm s
  | .syscall => Sys2Proof.Machine.execSyscall s
  | .xor rs rt rd => Sys2Proof.Machine.execXor rs rt rd s
  | .xori rs rt imm => Sys2Proof.Machine.execXori rs rt imm s

end Sys2Proof.Machine
end

