-- ==== Sys2Proof/Machine/Hazards.lean ====
section
/-! DEFINITION. The two optional refusals of programs that would misbehave on early pipelines (spec 70_reset_and_hazards.md R243,
R244, D33), and the table of the registers an instruction reads (10_state.md R24). -/

namespace Sys2Proof.Machine

/-- The registers named by a field that the instruction reads (R24). -/
def readsRegs : Instr → List Reg
  | .add rs rt _ | .addu rs rt _ | .sub rs rt _ | .subu rs rt _ => [rs, rt]
  | .and rs rt _ | .or rs rt _ | .xor rs rt _ => [rs, rt]
  | .slt rs rt _ | .sltu rs rt _ => [rs, rt]
  | .addi rs _ _ | .addiu rs _ _ | .andi rs _ _ | .ori rs _ _ | .xori rs _ _ => [rs]
  | .slti rs _ _ | .sltiu rs _ _ => [rs]
  | .lui _ _ => []
  | .noop => []
  | .sll _ rt _ _ => [rt]
  | .srl rt _ _ | .sra rt _ _ => [rt]
  | .sllv rs rt _ | .srlv rs rt _ => [rs, rt]
  | .mult rs rt | .multu rs rt | .div rs rt | .divu rs rt => [rs, rt]
  | .mfhi _ | .mflo _ => []
  | .lb rs _ _ | .lw rs _ _ => [rs]
  | .sb rs rt _ | .sw rs rt _ => [rs, rt]
  | .beq rs rt _ | .bne rs rt _ => [rs, rt]
  | .bgez rs _ | .bgtz rs _ | .blez rs _ | .bltz rs _ | .bgezal rs _ | .bltzal rs _ => [rs]
  | .j _ | .jal _ => []
  | .jr rs => [rs]
  | .syscall => []

/-- The instruction names the register loaded by the step before in a field it reads (R243). -/
def loadDelayHazard (i : Instr) (s : State) : Bool :=
  match s.lastLoad with
  | none => false
  | some r => (readsRegs i).contains r

/-- The instruction is a MULT, MULTU, DIV or DIVU (R244). -/
def writesHiLo : Instr → Bool
  | .mult .. | .multu .. | .div .. | .divu .. => true
  | _ => false

/-- The instruction is an MFHI or MFLO (R244). -/
def readsHiLo : Instr → Bool
  | .mfhi .. | .mflo .. => true
  | _ => false

/-- The instruction writes `hi` or `lo` as the first or second one after an MFHI or MFLO (R244). -/
def hiLoHazard (i : Instr) (s : State) : Bool := writesHiLo i && s.hiLoWindow != .clear

/-- The refusal of the optional checks that are on, if any. They are made after decoding and before the instruction's own checks,
the load delay first (DESIGN CHOICE, entry 14; safe: each ends the run). -/
def hazardCheck (i : Instr) (s : State) : Option Refusal :=
  if s.launch.loadDelayCheck && loadDelayHazard i s then some (.loadDelay s.pc)
  else if s.launch.hiLoHazardCheck && hiLoHazard i s then some (.hiLoHazard s.pc)
  else none

/-- The register that an LB or LW loads, if not `x[0]` (R243). -/
def loadedReg : Instr → Option Reg
  | .lb _ rt _ | .lw _ rt _ => if rt = 0#5 then none else some rt
  | _ => none

/-- The window of R244 after one more instruction. -/
def HiLoWindow.tick : HiLoWindow → HiLoWindow
  | .twoLeft => .oneLeft
  | .oneLeft | .clear => .clear

/-- What the next steps' checks need to know of the instruction just executed. -/
def State.noteHazards (s : State) (i : Instr) : State :=
  { s with lastLoad := loadedReg i, hiLoWindow := if readsHiLo i then .twoLeft else s.hiLoWindow.tick }

end Sys2Proof.Machine
end

