-- ==== Sys2Proof/Machine/Cycle.lean ====
section
/-! DEFINITION. The parts of the instruction cycle (spec 10_state.md R27; 60_exceptions.md R208): fetch with its checks, decode,
execute. Step.lean puts them together. -/

namespace Sys2Proof.Machine

/-- The checks of the fetch, alignment (R45) before mapping (R48), then the word at `pc` (R43) for `use`. -/
def fetch (s : State) (use : Word → Result) : Result :=
  if aligned4 s.pc then
    if allInCode s.launch s.pc 4 then use (s.readWord s.pc) else raise .busErrorFetch s
  else raise .addressErrorFetch s

/-- The bookkeeping of the optional checks, added to a next state. -/
def noted (i : Instr) : Result → Result
  | .next s => .next (s.noteHazards i)
  | .fault f => .fault f
  | .refused r => .refused r

/-- One decoded instruction: the optional checks, the instruction, their bookkeeping. -/
def runInstr (i : Instr) (s : State) : Result :=
  match hazardCheck i s with
  | some r => .refused r
  | none => noted i (exec i s)

/-- One fetched word: `ReservedInstruction` if it encodes nothing (R75), else its instruction. -/
def runWord (w : Word) (s : State) : Result :=
  match decode w with
  | .ok i => runInstr i s
  | .error _ => raise (.reservedInstruction w) s

/-- The instruction cycle of R27 at a state in which the run goes on. -/
def cycle (s : State) : Result := fetch s fun w => runWord w s

/-- The map with the four bytes at `a` added as a code region, unless they are in CODE already. -/
def addCode (l : Launch) (a : Word) : Launch :=
  if allInCode l a 4 then l else { l with map := l.map ++ [⟨a.toNat, 4, .code⟩] }

/-- A word placed where the next fetch finds it, from outside the machine: its bytes stand at `pc` in the launch's byte order, the
four bytes are in CODE, and no EnvCall is pending. A `pc` that is not a multiple of 4 is left alone: R45 lets nothing be fetched
there (entry 18). -/
def placeAtPc (s : State) (w : Word) : State :=
  { s.writeWord s.pc w with launch := addCode s.launch s.pc, run := .running }

end Sys2Proof.Machine
end

