-- ==== Sys2Proof/Machine/Step.lean ====
section
/-! DEFINITION. One step of the processor (spec 10_state.md R27). -/

namespace Sys2Proof.Machine

/-- One step: a pending EnvCall is resumed or ends the run (R191, R219), then the instruction cycle runs (R27). -/
def step (s : State) : Host.Outcome State Fault Refusal :=
  match s.resume with
  | .error r => .refused r
  | .ok s' => cycle s'

/-- `s` with the instruction whose low `nbits` bits are `w` stored where `step` fetches its next instruction (entry 18). -/
def State.withFetchWord (s : State) (nbits w : Nat) : State := placeAtPc s (BitVec.ofNat 32 (w % 2 ^ nbits))

end Sys2Proof.Machine
end

