-- ==== Sys2Proof/Machine/Assembly.lean ====
section
/-! DEFINITION. The assembly text of an instruction (spec 30_encoding.md R77, R78). No step uses it. The source gives the operand
order and leaves number bases open: sign-extended fields are printed in signed decimal, the others in hexadecimal, as the examples
of the spec do (DESIGN CHOICE, entry 20; safe). -/

namespace Sys2Proof.Machine

/-- The last `n` hexadecimal digits of `v`, upper case. -/
def hexText : Nat → Nat → String
  | 0, _ => ""
  | n + 1, v => hexText n (v / 16) ++ String.singleton ("0123456789ABCDEF".toList.getD (v % 16) '0')

/-- A register operand: `$` and the number (R77). -/
def regText (r : Reg) : String := "$" ++ toString r.toNat

/-- A field that the instruction reads as a signed number. -/
def signedText (imm : Imm) : String := toString imm.toInt

/-- A field that the instruction reads as a bit pattern. -/
def bitsText (imm : Imm) : String := "0x" ++ hexText 4 imm.toNat

/-- The target field of a jump: 26 bits, seven digits. -/
def targetText (target : Target) : String := "0x" ++ hexText 7 target.toNat

/-- Operands separated by commas (R77). -/
def operandsText (name : String) (operands : List String) : String :=
  if operands.isEmpty then name else name ++ " " ++ ", ".intercalate operands

/-- `op $d, $s, $t`. -/
def threeRegText (name : String) (rs rt rd : Reg) : String := operandsText name [regText rd, regText rs, regText rt]

/-- `op $d, $t, $s`: the order of SLLV and SRLV. -/
def shiftVarText (name : String) (rs rt rd : Reg) : String := operandsText name [regText rd, regText rt, regText rs]

/-- `op $d, $t, h`. -/
def shiftText (name : String) (rt rd : Reg) (h : Shamt) : String :=
  operandsText name [regText rd, regText rt, toString h.toNat]

/-- `op $t, offset($s)`. -/
def memText (name : String) (rs rt : Reg) (imm : Imm) : String :=
  operandsText name [regText rt, signedText imm ++ "(" ++ regText rs ++ ")"]

/-- The statement that stands for an instruction, in the forms of R77. -/
def asmText : Instr → String
  | .add rs rt rd => threeRegText "add" rs rt rd
  | .addi rs rt imm => operandsText "addi" [regText rt, regText rs, signedText imm]
  | .addiu rs rt imm => operandsText "addiu" [regText rt, regText rs, signedText imm]
  | .addu rs rt rd => threeRegText "addu" rs rt rd
  | .and rs rt rd => threeRegText "and" rs rt rd
  | .andi rs rt imm => operandsText "andi" [regText rt, regText rs, bitsText imm]
  | .beq rs rt imm => operandsText "beq" [regText rs, regText rt, signedText imm]
  | .bgez rs imm => operandsText "bgez" [regText rs, signedText imm]
  | .bgezal rs imm => operandsText "bgezal" [regText rs, signedText imm]
  | .bgtz rs imm => operandsText "bgtz" [regText rs, signedText imm]
  | .blez rs imm => operandsText "blez" [regText rs, signedText imm]
  | .bltz rs imm => operandsText "bltz" [regText rs, signedText imm]
  | .bltzal rs imm => operandsText "bltzal" [regText rs, signedText imm]
  | .bne rs rt imm => operandsText "bne" [regText rs, regText rt, signedText imm]
  | .div rs rt => operandsText "div" [regText rs, regText rt]
  | .divu rs rt => operandsText "divu" [regText rs, regText rt]
  | .j target => operandsText "j" [targetText target]
  | .jal target => operandsText "jal" [targetText target]
  | .jr rs => operandsText "jr" [regText rs]
  | .lb rs rt imm => memText "lb" rs rt imm
  | .lui rt imm => operandsText "lui" [regText rt, bitsText imm]
  | .lw rs rt imm => memText "lw" rs rt imm
  | .mfhi rd => operandsText "mfhi" [regText rd]
  | .mflo rd => operandsText "mflo" [regText rd]
  | .mult rs rt => operandsText "mult" [regText rs, regText rt]
  | .multu rs rt => operandsText "multu" [regText rs, regText rt]
  | .noop => operandsText "noop" []
  | .or rs rt rd => threeRegText "or" rs rt rd
  | .ori rs rt imm => operandsText "ori" [regText rt, regText rs, bitsText imm]
  | .sb rs rt imm => memText "sb" rs rt imm
  | .sll _ rt rd h => shiftText "sll" rt rd h
  | .sllv rs rt rd => shiftVarText "sllv" rs rt rd
  | .slt rs rt rd => threeRegText "slt" rs rt rd
  | .slti rs rt imm => operandsText "slti" [regText rt, regText rs, signedText imm]
  | .sltiu rs rt imm => operandsText "sltiu" [regText rt, regText rs, signedText imm]
  | .sltu rs rt rd => threeRegText "sltu" rs rt rd
  | .sra rt rd h => shiftText "sra" rt rd h
  | .srl rt rd h => shiftText "srl" rt rd h
  | .srlv rs rt rd => shiftVarText "srlv" rs rt rd
  | .sub rs rt rd => threeRegText "sub" rs rt rd
  | .subu rs rt rd => threeRegText "subu" rs rt rd
  | .sw rs rt imm => memText "sw" rs rt imm
  | .syscall => operandsText "syscall" []
  | .xor rs rt rd => threeRegText "xor" rs rt rd
  | .xori rs rt imm => operandsText "xori" [regText rt, regText rs, bitsText imm]

end Sys2Proof.Machine
end

