-- ==== Sys2Proof/Machine/Start.lean ====
section
/-! DEFINITION. The start of a run from any launch (spec 70_reset_and_hazards.md R230; 10_state.md R32). `State.reset` is the start
from one launch, `resetStart`. -/

namespace Sys2Proof.Machine

/-- What a launch supplies (R230): the parameters, the program's words, initial data, values for registers it names as premises,
and SYSCALL_EFFECT as the environment's replies (entry 9). -/
structure Start where
  /-- ENTRY_PC, MAPPED, CODE, BYTE_ORDER and the other parameters of R4. -/
  launch : Launch
  /-- The program: words at their addresses in CODE. -/
  program : List (Word × Word)
  /-- Initial data: bytes at their addresses in MAPPED. -/
  data : List (Word × Byte)
  /-- The registers the launch names a value for. -/
  regs : List (Reg × Word)
  /-- The value named for `hi`, if any. -/
  hi : Option Word
  /-- The value named for `lo`, if any. -/
  lo : Option Word
  /-- The replies of the environment. -/
  env : List EnvReply
deriving DecidableEq, Repr

/-- The bytes of a word at `a`, assembled with BYTE_ORDER (R230, R41). -/
def wordAt (order : ByteOrder) (a v : Word) : List (Word × Byte) :=
  (List.range 4).map fun k => (a + BitVec.ofNat 32 k, byteOfWord order v k)

/-- The launch image: the bytes of the program, then the data. -/
def startImage (u : Start) : List (Word × Byte) := (u.program.flatMap fun c => wordAt u.launch.byteOrder c.1 c.2) ++ u.data

/-- A start the spec admits: the launch is one, the program's words lie in CODE, the data in MAPPED (R230). No step depends on it. -/
def startWf (u : Start) : Bool :=
  launchWf u.launch && (u.program.all fun c => aligned4 c.1 && allInCode u.launch c.1 4)
    && u.data.all fun c => inMapped u.launch c.1.toNat

/-- The table of R32 before the launch's image and named values: `x[0] = 0`, `pc = ENTRY_PC`, `npc = ENTRY_PC + 4`, every other
register unspecified (entry 23), no byte listed (entry 6). -/
def unnamedStart (l : Launch) (env : List EnvReply) : State where
  x := Vector.ofFn fun i => if i.val = 0 then 0 else Config.startWord i.val
  hi := Config.startWord 32
  lo := Config.startWord 33
  pc := l.entryPc
  npc := l.entryPc + 4#32
  mem := ⟨[]⟩
  launch := l
  run := .running
  env := env
  draws := 0
  lastLoad := none
  hiLoWindow := .clear

/-- The initial state of a run (R230): the table of R32 with the values the launch names and its image. Addresses outside MAPPED have
no byte (R41), so an image entry there is left out. -/
def startState (u : Start) : State :=
  (unnamedStart u.launch u.env).applyReply
    { regs := u.regs, hi := u.hi, lo := u.lo, mem := (startImage u).filter fun c => inMapped u.launch c.1.toNat }

/-- The start that `State.reset` is: no program, no data, and the zeros of entries 4 and 5 as named values. -/
def resetStart : Start where
  launch := resetLaunch
  program := []
  data := []
  regs := (List.range 31).map fun k => (BitVec.ofNat 5 (k + 1), 0#32)
  hi := some 0#32
  lo := some 0#32
  env := []

end Sys2Proof.Machine
end

