-- ==== Sys2Proof/Safety.lean ====
section
/-! DEFINITION. The words of the claims: which state an instruction may write (spec 10_state.md R24), how a next state differs from
the state before, and the invariant that every step keeps. No step uses this file. -/

namespace Sys2Proof.Machine

/-! ### What an instruction may write (R24) -/

/-- The eleven control transfers of R120. -/
def isTransfer : Instr → Bool
  | .beq .. | .bne .. | .bgez .. | .bgezal .. | .bgtz .. | .blez .. | .bltz .. | .bltzal .. => true
  | .j .. | .jal .. | .jr .. => true
  | _ => false

/-- The general purpose register in the column "writes" of R24, if there is one. -/
def destReg : Instr → Option Reg
  | .add _ _ rd | .addu _ _ rd | .sub _ _ rd | .subu _ _ rd => some rd
  | .and _ _ rd | .or _ _ rd | .xor _ _ rd => some rd
  | .slt _ _ rd | .sltu _ _ rd => some rd
  | .addi _ rt _ | .addiu _ rt _ | .andi _ rt _ | .ori _ rt _ | .xori _ rt _ => some rt
  | .slti _ rt _ | .sltiu _ rt _ => some rt
  | .lui rt _ => some rt
  | .sll _ _ rd _ => some rd
  | .srl _ rd _ | .sra _ rd _ => some rd
  | .noop => some 0#5
  | .sllv _ _ rd | .srlv _ _ rd => some rd
  | .mfhi rd | .mflo rd => some rd
  | .lb _ rt _ | .lw _ rt _ => some rt
  | .bgezal .. | .bltzal .. | .jal .. => some 31#5
  | .mult .. | .multu .. | .div .. | .divu .. => none
  | .sb .. | .sw .. => none
  | .beq .. | .bne .. | .bgez .. | .bgtz .. | .blez .. | .bltz .. | .j .. | .jr .. => none
  | .syscall => none

/-- The address a store writes to and the number of bytes it writes, computed as its meaning does (R164, R165). -/
def storeTarget (i : Instr) (s : State) : Option (Word × Nat) :=
  match i with
  | .sb rs _ imm => some (effectiveAddress (s.readReg rs) imm, 1)
  | .sw rs _ imm => some (effectiveAddress (s.readReg rs) imm, 4)
  | _ => none

/-! ### How a next state differs -/

/-- The launch and the model's bookkeeping are as before. -/
def KeepsControl (s s' : State) : Prop :=
  s'.launch = s.launch ∧ s'.run = s.run ∧ s'.env = s.env ∧ s'.lastLoad = s.lastLoad ∧ s'.hiLoWindow = s.hiLoWindow

/-- Every byte of memory reads as before. -/
def KeepsMem (s s' : State) : Prop := ∀ a : Word, s'.readByte a = s.readByte a

/-- Every general purpose register reads as before. -/
def KeepsRegs (s s' : State) : Prop := ∀ r : Reg, s'.readReg r = s.readReg r

/-- `hi` and `lo` are as before. -/
def KeepsHiLo (s s' : State) : Prop := s'.hi = s.hi ∧ s'.lo = s.lo

/-- `advance_pc(off)` has happened (R8). -/
def Advanced (s s' : State) (off : Word) : Prop := s'.pc = s.npc ∧ s'.npc = s.npc + off

/-- Nothing but `pc` and `npc` has changed. -/
def OnlyCounters (s s' : State) : Prop :=
  KeepsRegs s s' ∧ KeepsHiLo s s' ∧ KeepsMem s s' ∧ KeepsControl s s' ∧ s'.draws = s.draws

/-- `x[d] <- v` has happened, nothing but that, `pc` and `npc` has changed; with `d = 0` no register has changed (R22). -/
def OnlyReg (s s' : State) (d : Reg) (v : Word) : Prop :=
  (∀ r : Reg, s'.readReg r = if r = d ∧ d ≠ 0#5 then v else s.readReg r) ∧
    KeepsHiLo s s' ∧ KeepsMem s s' ∧ KeepsControl s s' ∧ s'.draws = s.draws

/-- Nothing but `hi`, `lo`, `pc`, `npc` and the number of values drawn has changed. -/
def OnlyHiLo (s s' : State) : Prop := KeepsRegs s s' ∧ KeepsMem s s' ∧ KeepsControl s s'

/-- The instruction completes with `x[d] <- v; advance_pc(4)` and changes nothing else. -/
def CompletesReg (i : Instr) (s : State) (d : Reg) (v : Word) : Prop :=
  ∃ s', exec i s = .next s' ∧ OnlyReg s s' d v ∧ Advanced s s' 4#32

/-- The branch completes: the instruction after it is next, then the target if `taken`, else the one after that; nothing else has
changed (R121). -/
def CompletesBranch (i : Instr) (s : State) (taken : Prop) (imm : Imm) : Prop :=
  ∃ s', exec i s = .next s' ∧ OnlyCounters s s' ∧ s'.pc = s.pc + 4#32 ∧
    (taken → s'.npc = s.pc + 4#32 + BitVec.ofInt 32 (4 * imm.toInt)) ∧ (¬taken → s'.npc = s.pc + 8#32)

/-- An integer that fits a SWORD (R6). -/
def FitsSword (r : Int) : Prop := -2 ^ 31 ≤ r ∧ r ≤ 2 ^ 31 - 1

/-- The word matches the instruction's row of the opcode map (R63). -/
def MatchesRow (w : Word) (i : Instr) : Prop := w &&& i.mapMask = i.mapMatch

/-- Two instructions have the same row of the opcode map. -/
def SameRow (i j : Instr) : Prop := i.mapMask = j.mapMask ∧ i.mapMatch = j.mapMatch

/-- Every word that matches a row of the opcode map (its `match` and `mask` columns, R63, R72) decodes to `i` of that word. -/
def RowDecodes (mtch mask : Word) (i : Word → Instr) : Prop := ∀ w : Word, w &&& mask = mtch → decode w = .ok (i w)

/-- `pc` is in `CODE` and a multiple of 4, no EnvCall is pending, and the word there decodes to `i` (R27). -/
def Fetches (s : State) (i : Instr) : Prop :=
  s.run = .running ∧ s.pc.toNat % 4 = 0 ∧ allInCode s.launch s.pc 4 = true ∧ decode (s.readWord s.pc) = .ok i

/-- A function of the next state applied to an outcome; stops are left as they are. -/
def mapNext (f : State → State) : Result → Result
  | .next s => .next (f s)
  | .fault e => .fault e
  | .refused r => .refused r

/-- The state with other values in `hi` and `lo`. -/
def withHiLo (s : State) (h l : Word) : State := { s with hi := h, lo := l }

/-- The instruction writes `hi` under the state's MULT_HI (R24, R144). -/
def setsHi (i : Instr) (s : State) : Bool :=
  match i with
  | .div .. | .divu .. => true
  | .mult .. | .multu .. => s.launch.multHi != .unchanged
  | _ => false

/-- The state with LOAD_DELAY_CHECK and HILO_HAZARD_CHECK off (R4). -/
def checksOff (s : State) : State :=
  { s with launch := { s.launch with loadDelayCheck := false, hiLoHazardCheck := false } }

/-- The `pc` a fault carries (R201). -/
def faultPc : Fault → Word
  | .overflow pc _ | .addressErrorLoad _ pc _ | .addressErrorStore _ pc _ | .addressErrorFetch pc _
  | .busErrorFetch pc _ | .busErrorData _ pc _ | .reservedInstruction _ pc _ => pc

/-- The `npc` a fault carries (R201). -/
def faultNpc : Fault → Word
  | .overflow _ npc | .addressErrorLoad _ _ npc | .addressErrorStore _ _ npc | .addressErrorFetch _ npc
  | .busErrorFetch _ npc | .busErrorData _ _ npc | .reservedInstruction _ _ npc => npc

/-! ### The invariant -/

/-- Memory has its canonical form and lists only addresses in MAPPED (R41), the slot of register 0 holds 0 (R22), and the
load-delay check never waits for register 0 (R243). -/
def Inv (s : State) : Prop :=
  s.mem.wf = true ∧ (∀ c ∈ s.mem.cells, inMapped s.launch c.1 = true) ∧ s.x[0] = 0#32 ∧ s.lastLoad ≠ some 0#5

end Sys2Proof.Machine
end

