-- ==== Sys2Proof/Certificates/Slice0/Obligations.lean ====
section
/-! DEFINITION. The statements. Each docstring names the rules of spec/ it formalises, or says that it is about the model's own
choice and names the log entry. -/

open Sys2Proof Sys2Proof.Machine

/-! ### Encoding -/

/-- Every well-formed instruction, with every operand value, is read back from its word (30_encoding.md R61 to R63, R72). The words
it is about have every hyphen bit 0 (entry 16). -/
def Obligations.DecodeOfEncode : Prop := ∀ i : Instr, i.wellFormed = true → decode (encode i) = .ok i

/-- A word that decodes is the encoding of what it decodes to, but for the hyphen bits of that row (R63, R73; entries 15, 16). -/
def Obligations.EncodeOfDecode : Prop :=
  ∀ (w : Word) (i : Instr), decode w = .ok i → i.wellFormed = true ∧ encode i = w &&& ~~~i.hyphenBits

/-- The decode rule R63 over the masks of R72: a word decodes to an instruction of a row it matches; one row at most matches, but for
the all-zero word and the rows of NOOP and SLL; a word that matches none is an error; hyphen bits are not considered. -/
def Obligations.DecodeRule : Prop :=
  ∀ w : Word,
    (∀ i, decode w = .ok i → MatchesRow w i) ∧
    (∀ i, MatchesRow w i → w ≠ 0#32 → ∃ j, decode w = .ok j ∧ SameRow i j) ∧
    (∀ i j, MatchesRow w i → MatchesRow w j → SameRow i j ∨
      (w = 0#32 ∧ (SameRow i .noop ∨ SameRow i (.sll 0 0 0 0)) ∧ (SameRow j .noop ∨ SameRow j (.sll 0 0 0 0)))) ∧
    MatchesRow 0#32 .noop ∧ MatchesRow 0#32 (.sll 0 0 0 0) ∧
    ((∃ e, decode w = .error e) ↔ ∀ i, ¬MatchesRow w i) ∧
    (∀ i v, decode w = .ok i → v &&& ~~~i.hyphenBits = w &&& ~~~i.hyphenBits → decode v = .ok i)

/-- Words written out in the examples of spec/ decode to the instructions they are examples of (40_add_sub.md to 48_system.md). -/
def Obligations.SampleWordsDecode : Prop :=
  decode 0x012A4020 = .ok (.add 9 10 8) ∧
  decode 0x2128FFFF = .ok (.addi 9 8 0xFFFF) ∧
  decode 0x3128FF00 = .ok (.andi 9 8 0xFF00) ∧
  decode 0x05110004 = .ok (.bgezal 8 4) ∧
  decode 0x1500FFFD = .ok (.bne 8 0 0xFFFD) ∧
  decode 0x0109001A = .ok (.div 8 9) ∧
  decode 0x0C100010 = .ok (.jal 0x0100010) ∧
  decode 0x03E00008 = .ok (.jr 31) ∧
  decode 0x81280003 = .ok (.lb 9 8 3) ∧
  decode 0xAFA80004 = .ok (.sw 29 8 4) ∧
  decode 0x00094103 = .ok (.sra 9 8 4) ∧
  decode 0x01494006 = .ok (.srlv 10 9 8) ∧
  decode 0x2D28FFFF = .ok (.sltiu 9 8 0xFFFF) ∧
  decode 0x0000000C = .ok .syscall

/-- The operand order of every assembler statement (R77, R78). Registers are `$` and a decimal number; how the other operands are
printed is the model's choice (entry 20). No step uses it. -/
def Obligations.AssemblyForms : Prop :=
  (∀ r : Reg, regText r = "$" ++ toString r.toNat) ∧
  ∀ (rs rt rd : Reg) (h : Shamt) (imm : Imm) (target : Target),
    asmText (.add rs rt rd) = "add" ++ " " ++ (regText rd ++ ", " ++ regText rs ++ ", " ++ regText rt) ∧
    asmText (.addi rs rt imm) = "addi" ++ " " ++ (regText rt ++ ", " ++ regText rs ++ ", " ++ signedText imm) ∧
    asmText (.addiu rs rt imm) = "addiu" ++ " " ++ (regText rt ++ ", " ++ regText rs ++ ", " ++ signedText imm) ∧
    asmText (.addu rs rt rd) = "addu" ++ " " ++ (regText rd ++ ", " ++ regText rs ++ ", " ++ regText rt) ∧
    asmText (.and rs rt rd) = "and" ++ " " ++ (regText rd ++ ", " ++ regText rs ++ ", " ++ regText rt) ∧
    asmText (.andi rs rt imm) = "andi" ++ " " ++ (regText rt ++ ", " ++ regText rs ++ ", " ++ bitsText imm) ∧
    asmText (.beq rs rt imm) = "beq" ++ " " ++ (regText rs ++ ", " ++ regText rt ++ ", " ++ signedText imm) ∧
    asmText (.bgez rs imm) = "bgez" ++ " " ++ (regText rs ++ ", " ++ signedText imm) ∧
    asmText (.bgezal rs imm) = "bgezal" ++ " " ++ (regText rs ++ ", " ++ signedText imm) ∧
    asmText (.bgtz rs imm) = "bgtz" ++ " " ++ (regText rs ++ ", " ++ signedText imm) ∧
    asmText (.blez rs imm) = "blez" ++ " " ++ (regText rs ++ ", " ++ signedText imm) ∧
    asmText (.bltz rs imm) = "bltz" ++ " " ++ (regText rs ++ ", " ++ signedText imm) ∧
    asmText (.bltzal rs imm) = "bltzal" ++ " " ++ (regText rs ++ ", " ++ signedText imm) ∧
    asmText (.bne rs rt imm) = "bne" ++ " " ++ (regText rs ++ ", " ++ regText rt ++ ", " ++ signedText imm) ∧
    asmText (.div rs rt) = "div" ++ " " ++ (regText rs ++ ", " ++ regText rt) ∧
    asmText (.divu rs rt) = "divu" ++ " " ++ (regText rs ++ ", " ++ regText rt) ∧
    asmText (.j target) = "j" ++ " " ++ (targetText target) ∧
    asmText (.jal target) = "jal" ++ " " ++ (targetText target) ∧
    asmText (.jr rs) = "jr" ++ " " ++ (regText rs) ∧
    asmText (.lb rs rt imm) = "lb" ++ " " ++ (regText rt ++ ", " ++ (signedText imm ++ "(" ++ regText rs ++ ")")) ∧
    asmText (.lui rt imm) = "lui" ++ " " ++ (regText rt ++ ", " ++ bitsText imm) ∧
    asmText (.lw rs rt imm) = "lw" ++ " " ++ (regText rt ++ ", " ++ (signedText imm ++ "(" ++ regText rs ++ ")")) ∧
    asmText (.mfhi rd) = "mfhi" ++ " " ++ (regText rd) ∧
    asmText (.mflo rd) = "mflo" ++ " " ++ (regText rd) ∧
    asmText (.mult rs rt) = "mult" ++ " " ++ (regText rs ++ ", " ++ regText rt) ∧
    asmText (.multu rs rt) = "multu" ++ " " ++ (regText rs ++ ", " ++ regText rt) ∧
    asmText .noop = "noop" ∧
    asmText (.or rs rt rd) = "or" ++ " " ++ (regText rd ++ ", " ++ regText rs ++ ", " ++ regText rt) ∧
    asmText (.ori rs rt imm) = "ori" ++ " " ++ (regText rt ++ ", " ++ regText rs ++ ", " ++ bitsText imm) ∧
    asmText (.sb rs rt imm) = "sb" ++ " " ++ (regText rt ++ ", " ++ (signedText imm ++ "(" ++ regText rs ++ ")")) ∧
    asmText (.sll rs rt rd h) = "sll" ++ " " ++ (regText rd ++ ", " ++ regText rt ++ ", " ++ toString h.toNat) ∧
    asmText (.sllv rs rt rd) = "sllv" ++ " " ++ (regText rd ++ ", " ++ regText rt ++ ", " ++ regText rs) ∧
    asmText (.slt rs rt rd) = "slt" ++ " " ++ (regText rd ++ ", " ++ regText rs ++ ", " ++ regText rt) ∧
    asmText (.slti rs rt imm) = "slti" ++ " " ++ (regText rt ++ ", " ++ regText rs ++ ", " ++ signedText imm) ∧
    asmText (.sltiu rs rt imm) = "sltiu" ++ " " ++ (regText rt ++ ", " ++ regText rs ++ ", " ++ signedText imm) ∧
    asmText (.sltu rs rt rd) = "sltu" ++ " " ++ (regText rd ++ ", " ++ regText rs ++ ", " ++ regText rt) ∧
    asmText (.sra rt rd h) = "sra" ++ " " ++ (regText rd ++ ", " ++ regText rt ++ ", " ++ toString h.toNat) ∧
    asmText (.srl rt rd h) = "srl" ++ " " ++ (regText rd ++ ", " ++ regText rt ++ ", " ++ toString h.toNat) ∧
    asmText (.srlv rs rt rd) = "srlv" ++ " " ++ (regText rd ++ ", " ++ regText rt ++ ", " ++ regText rs) ∧
    asmText (.sub rs rt rd) = "sub" ++ " " ++ (regText rd ++ ", " ++ regText rs ++ ", " ++ regText rt) ∧
    asmText (.subu rs rt rd) = "subu" ++ " " ++ (regText rd ++ ", " ++ regText rs ++ ", " ++ regText rt) ∧
    asmText (.sw rs rt imm) = "sw" ++ " " ++ (regText rt ++ ", " ++ (signedText imm ++ "(" ++ regText rs ++ ")")) ∧
    asmText .syscall = "syscall" ∧
    asmText (.xor rs rt rd) = "xor" ++ " " ++ (regText rd ++ ", " ++ regText rs ++ ", " ++ regText rt) ∧
    asmText (.xori rs rt imm) = "xori" ++ " " ++ (regText rt ++ ", " ++ regText rs ++ ", " ++ bitsText imm)

/-! ### The step -/

/-- The instruction cycle (10_state.md R27, 60_exceptions.md R208): the fetch checks, the decode, and the execution of the decoded
instruction. The place of the optional checks of R243 and R244 between the last two, and the fields `lastLoad` and `hiLoWindow` that a
completed instruction leaves for their next use, are the model's choice (entry 14); the premise that no EnvCall is pending is the
model's form of R10 (entry 8). -/
def Obligations.InstructionCycle : Prop :=
  ∀ s : State, s.run = .running →
    (s.pc.toNat % 4 ≠ 0 → step s = .fault (.addressErrorFetch s.pc s.npc)) ∧
    (s.pc.toNat % 4 = 0 → allInCode s.launch s.pc 4 = false → step s = .fault (.busErrorFetch s.pc s.npc)) ∧
    (s.pc.toNat % 4 = 0 → allInCode s.launch s.pc 4 = true → (∃ e, decode (s.readWord s.pc) = .error e) →
      step s = .fault (.reservedInstruction (s.readWord s.pc) s.pc s.npc)) ∧
    (∀ i, s.pc.toNat % 4 = 0 → allInCode s.launch s.pc 4 = true → decode (s.readWord s.pc) = .ok i →
      (∀ r, hazardCheck i s = some r → step s = .refused r) ∧
      (hazardCheck i s = none →
        (∀ t, exec i s = .next t → step s = .next { t with
          lastLoad := loadedReg i, hiLoWindow := if readsHiLo i then .twoLeft else t.hiLoWindow.tick }) ∧
        (∀ f, exec i s = .fault f → step s = .fault f) ∧ (∀ r, exec i s = .refused r → step s = .refused r)) ∧
      (s.launch.loadDelayCheck = false → s.launch.hiLoHazardCheck = false → hazardCheck i s = none))

/-- The model's way of placing an instruction (entry 18): at an aligned `pc` the next step runs exactly the placed instruction. -/
def Obligations.WithFetchWordRuns : Prop :=
  ∀ (s : State) (w : Nat) (i : Instr), s.pc.toNat % 4 = 0 → w < 2 ^ 32 → decode (BitVec.ofNat 32 w) = .ok i →
    Fetches (s.withFetchWord 32 w) i ∧ step (s.withFetchWord 32 w) = runInstr i (s.withFetchWord 32 w)

/-- The model's form of SYSCALL_EFFECT (R191, R209, R219; entries 9, 10, 11): at a pending EnvCall with no reply left no step is
taken. With an allowed reply the step runs the cycle, at the advanced `pc`, in the state with the reply applied: a register other
than 0 and a byte have the last value the reply gives them, all that it does not name, the launch, the bookkeeping and every byte of
CODE are as they were. -/
def Obligations.EnvironmentActs : Prop :=
  ∀ s : State, s.run = .envCall →
    (s.env = [] → step s = .refused (.runEnded s.pc)) ∧
    (∀ r rest, s.env = r :: rest →
      (replyAllowed s.launch r = false → step s = .refused (.envReplyOutsideMap s.pc)) ∧
      (replyAllowed s.launch r = true → ∃ t : State, t = { s.applyReply r with run := .running, env := rest } ∧ step s = cycle t ∧
        t.pc = s.pc ∧ t.npc = s.npc ∧ t.launch = s.launch ∧ t.draws = s.draws ∧ t.lastLoad = s.lastLoad ∧
        t.hiLoWindow = s.hiLoWindow ∧ t.hi = r.hi.getD s.hi ∧ t.lo = r.lo.getD s.lo ∧ t.readReg 0#5 = 0#32 ∧
        (∀ (d : Reg) (v : Word) pre post, r.regs = pre ++ (d, v) :: post → (∀ w ∈ post, w.1 ≠ d) → d ≠ 0#5 → t.readReg d = v) ∧
        (∀ d : Reg, (∀ w ∈ r.regs, w.1 ≠ d) → t.readReg d = s.readReg d) ∧
        (∀ (a : Word) (v : Byte) pre post, r.mem = pre ++ (a, v) :: post → (∀ c ∈ post, c.1 ≠ a) → t.readByte a = v) ∧
        (∀ a : Word, (∀ c ∈ r.mem, c.1 ≠ a) → t.readByte a = s.readByte a) ∧
        (∀ a : Word, inCode s.launch a.toNat = true → t.readByte a = s.readByte a)))

/-- A completed step copies `npc` to `pc` (R27: "copy nPC to PC"). -/
def Obligations.PcBecomesNpc : Prop := ∀ s t : State, step s = .next t → t.pc = s.npc

/-- `npc` differs from `pc + 4` only after a control transfer, and for one instruction (R26, R120). -/
def Obligations.TakenSlotLastsOneStep : Prop :=
  ∀ s t : State, step s = .next t →
    (s.npc ≠ s.pc + 4#32 → t.npc = t.pc + 4#32) ∧
    (t.npc ≠ t.pc + 4#32 → ∃ i, decode (s.readWord s.pc) = .ok i ∧ isTransfer i = true)

/-- From aligned counters only JR can make `npc` no multiple of 4, by copying such a register (R28, R45). -/
def Obligations.OnlyJrMisaligns : Prop :=
  ∀ s t : State, s.run = .running → step s = .next t → s.npc.toNat % 4 = 0 →
    t.npc.toNat % 4 = 0 ∨ ∃ rs, decode (s.readWord s.pc) = .ok (.jr rs) ∧ t.npc = s.readReg rs

/-- No step changes a parameter of the launch (R20, R42). -/
def Obligations.LaunchFixed : Prop := ∀ s t : State, step s = .next t → t.launch = s.launch

/-! ### Add and subtract -/

/-- ADD and ADDI (R101, R102): the exact signed sum if it fits, else the Overflow fault, whatever the destination. -/
def Obligations.AddRules : Prop :=
  RowDecodes 0x00000020 0xFC0007FF (fun w => .add (sOf w) (tOf w) (dOf w)) ∧
  RowDecodes 0x20000000 0xFC000000 (fun w => .addi (sOf w) (tOf w) (immOf w)) ∧
  ∀ (rs rt rd : Reg) (imm : Imm) (s : State),
    (FitsSword ((s.readReg rs).toInt + (s.readReg rt).toInt) →
      CompletesReg (.add rs rt rd) s rd (BitVec.ofInt 32 ((s.readReg rs).toInt + (s.readReg rt).toInt))) ∧
    (¬FitsSword ((s.readReg rs).toInt + (s.readReg rt).toInt) →
      exec (.add rs rt rd) s = .fault (.overflow s.pc s.npc)) ∧
    (FitsSword ((s.readReg rs).toInt + imm.toInt) →
      CompletesReg (.addi rs rt imm) s rt (BitVec.ofInt 32 ((s.readReg rs).toInt + imm.toInt))) ∧
    (¬FitsSword ((s.readReg rs).toInt + imm.toInt) → exec (.addi rs rt imm) s = .fault (.overflow s.pc s.npc))

/-- SUB (R105): the exact signed difference if it fits, else the Overflow fault. -/
def Obligations.SubRule : Prop :=
  RowDecodes 0x00000022 0xFC0007FF (fun w => .sub (sOf w) (tOf w) (dOf w)) ∧
  ∀ (rs rt rd : Reg) (s : State),
    (FitsSword ((s.readReg rs).toInt - (s.readReg rt).toInt) →
      CompletesReg (.sub rs rt rd) s rd (BitVec.ofInt 32 ((s.readReg rs).toInt - (s.readReg rt).toInt))) ∧
    (¬FitsSword ((s.readReg rs).toInt - (s.readReg rt).toInt) → exec (.sub rs rt rd) s = .fault (.overflow s.pc s.npc))

/-- ADDU, ADDIU, SUBU (R103, R104, R106): they always complete, with the sum or difference modulo `2^32`. -/
def Obligations.WrappingRules : Prop :=
  RowDecodes 0x00000021 0xFC0007FF (fun w => .addu (sOf w) (tOf w) (dOf w)) ∧
  RowDecodes 0x24000000 0xFC000000 (fun w => .addiu (sOf w) (tOf w) (immOf w)) ∧
  RowDecodes 0x00000023 0xFC0007FF (fun w => .subu (sOf w) (tOf w) (dOf w)) ∧
  ∀ (rs rt rd : Reg) (imm : Imm) (s : State),
    CompletesReg (.addu rs rt rd) s rd (BitVec.ofNat 32 ((s.readReg rs).toNat + (s.readReg rt).toNat)) ∧
    CompletesReg (.addiu rs rt imm) s rt (BitVec.ofInt 32 ((s.readReg rs).toInt + imm.toInt)) ∧
    CompletesReg (.subu rs rt rd) s rd (BitVec.ofInt 32 ((s.readReg rs).toNat - (s.readReg rt).toNat : Int))

/-- R100: the two forms of each overflow condition agree; ADD, ADDI and SUB raise Overflow exactly then and otherwise do what their
unsigned partner does; no other instruction raises it. -/
def Obligations.OverflowRule : Prop :=
  (∀ a b : Word,
    (addOverflows a b = true ↔ ¬FitsSword (a.toInt + b.toInt)) ∧
    (addOverflows a b = true ↔ a.msb = b.msb ∧ (a + b).msb ≠ a.msb) ∧
    (subOverflows a b = true ↔ ¬FitsSword (a.toInt - b.toInt)) ∧
    (subOverflows a b = true ↔ a.msb ≠ b.msb ∧ (a - b).msb ≠ a.msb)) ∧
  (∀ (rs rt rd : Reg) (imm : Imm) (s : State),
    exec (.add rs rt rd) s = (if addOverflows (s.readReg rs) (s.readReg rt) then .fault (.overflow s.pc s.npc)
      else exec (.addu rs rt rd) s) ∧
    exec (.addi rs rt imm) s = (if addOverflows (s.readReg rs) (imm.signExtend 32) then .fault (.overflow s.pc s.npc)
      else exec (.addiu rs rt imm) s) ∧
    exec (.sub rs rt rd) s = (if subOverflows (s.readReg rs) (s.readReg rt) then .fault (.overflow s.pc s.npc)
      else exec (.subu rs rt rd) s)) ∧
  (∀ (i : Instr) (s : State) (p n : Word), exec i s = .fault (.overflow p n) →
    (∃ rs rt rd, i = .add rs rt rd) ∨ (∃ rs rt imm, i = .addi rs rt imm) ∨ (∃ rs rt rd, i = .sub rs rt rd))

/-! ### Logical -/

/-- AND, OR, XOR (R111, R113, R115): bit `k` of the result is the and, or, exclusive or of the operands' bits `k`. -/
def Obligations.LogicRegisters : Prop :=
  RowDecodes 0x00000024 0xFC0007FF (fun w => .and (sOf w) (tOf w) (dOf w)) ∧
  RowDecodes 0x00000025 0xFC0007FF (fun w => .or (sOf w) (tOf w) (dOf w)) ∧
  RowDecodes 0x00000026 0xFC00003F (fun w => .xor (sOf w) (tOf w) (dOf w)) ∧
  ∀ (rs rt rd : Reg) (s : State),
    (∃ v, CompletesReg (.and rs rt rd) s rd v ∧
      ∀ k < 32, v.getLsbD k = ((s.readReg rs).getLsbD k && (s.readReg rt).getLsbD k)) ∧
    (∃ v, CompletesReg (.or rs rt rd) s rd v ∧
      ∀ k < 32, v.getLsbD k = ((s.readReg rs).getLsbD k || (s.readReg rt).getLsbD k)) ∧
    (∃ v, CompletesReg (.xor rs rt rd) s rd v ∧
      ∀ k < 32, v.getLsbD k = ((s.readReg rs).getLsbD k != (s.readReg rt).getLsbD k))

/-- ANDI, ORI, XORI (R112, R114, R116, R65): as the register forms, the second operand's bits 31:16 being 0. -/
def Obligations.LogicImmediates : Prop :=
  RowDecodes 0x30000000 0xFC000000 (fun w => .andi (sOf w) (tOf w) (immOf w)) ∧
  RowDecodes 0x34000000 0xFC000000 (fun w => .ori (sOf w) (tOf w) (immOf w)) ∧
  RowDecodes 0x38000000 0xFC000000 (fun w => .xori (sOf w) (tOf w) (immOf w)) ∧
  ∀ (rs rt : Reg) (imm : Imm) (s : State),
    (∃ v, CompletesReg (.andi rs rt imm) s rt v ∧
      ∀ k < 32, v.getLsbD k = if k < 16 then (s.readReg rs).getLsbD k && imm.getLsbD k else false) ∧
    (∃ v, CompletesReg (.ori rs rt imm) s rt v ∧
      ∀ k < 32, v.getLsbD k = if k < 16 then (s.readReg rs).getLsbD k || imm.getLsbD k else (s.readReg rs).getLsbD k) ∧
    (∃ v, CompletesReg (.xori rs rt imm) s rt v ∧
      ∀ k < 32, v.getLsbD k = if k < 16 then (s.readReg rs).getLsbD k != imm.getLsbD k else (s.readReg rs).getLsbD k)

/-! ### Branches and jumps -/

/-- BEQ and BNE (R122, R129), with the target of R67 and R121 and the refusal of R120. -/
def Obligations.EqualityBranches : Prop :=
  RowDecodes 0x10000000 0xFC000000 (fun w => .beq (sOf w) (tOf w) (immOf w)) ∧
  RowDecodes 0x14000000 0xFC000000 (fun w => .bne (sOf w) (tOf w) (immOf w)) ∧
  ∀ (rs rt : Reg) (imm : Imm) (s : State),
    (s.npc = s.pc + 4#32 →
      CompletesBranch (.beq rs rt imm) s (s.readReg rs = s.readReg rt) imm ∧
      CompletesBranch (.bne rs rt imm) s (s.readReg rs ≠ s.readReg rt) imm) ∧
    (s.npc ≠ s.pc + 4#32 →
      exec (.beq rs rt imm) s = .refused (.ctiInDelaySlot s.pc) ∧ exec (.bne rs rt imm) s = .refused (.ctiInDelaySlot s.pc))

/-- BGEZ, BGTZ, BLEZ, BLTZ (R123, R125, R126, R127): the register is read as SWORD. -/
def Obligations.SignBranches : Prop :=
  RowDecodes 0x04010000 0xFC1F0000 (fun w => .bgez (sOf w) (immOf w)) ∧
  RowDecodes 0x1C000000 0xFC1F0000 (fun w => .bgtz (sOf w) (immOf w)) ∧
  RowDecodes 0x18000000 0xFC1F0000 (fun w => .blez (sOf w) (immOf w)) ∧
  RowDecodes 0x04000000 0xFC1F0000 (fun w => .bltz (sOf w) (immOf w)) ∧
  ∀ (rs : Reg) (imm : Imm) (s : State),
    (s.npc = s.pc + 4#32 →
      CompletesBranch (.bgez rs imm) s (0 ≤ (s.readReg rs).toInt) imm ∧
      CompletesBranch (.bgtz rs imm) s (0 < (s.readReg rs).toInt) imm ∧
      CompletesBranch (.blez rs imm) s ((s.readReg rs).toInt ≤ 0) imm ∧
      CompletesBranch (.bltz rs imm) s ((s.readReg rs).toInt < 0) imm) ∧
    (s.npc ≠ s.pc + 4#32 →
      exec (.bgez rs imm) s = .refused (.ctiInDelaySlot s.pc) ∧ exec (.bgtz rs imm) s = .refused (.ctiInDelaySlot s.pc) ∧
      exec (.blez rs imm) s = .refused (.ctiInDelaySlot s.pc) ∧ exec (.bltz rs imm) s = .refused (.ctiInDelaySlot s.pc))

/-- BGEZAL and BLTZAL (R124, R128, R130): a taken one links `pc + 8` after testing the old register; a not-taken one leaves in
register 31 what LINK_NOT_TAKEN says, of which nothing is claimed when it is `any` (entry 7). -/
def Obligations.LinkingBranches : Prop :=
  RowDecodes 0x04110000 0xFC1F0000 (fun w => .bgezal (sOf w) (immOf w)) ∧
  RowDecodes 0x04100000 0xFC1F0000 (fun w => .bltzal (sOf w) (immOf w)) ∧
  ∀ (rs : Reg) (imm : Imm) (s : State) (i : Instr) (taken : Prop),
    (i = .bgezal rs imm ∧ (taken ↔ 0 ≤ (s.readReg rs).toInt) ∨ i = .bltzal rs imm ∧ (taken ↔ (s.readReg rs).toInt < 0)) →
    (s.npc ≠ s.pc + 4#32 → exec i s = .refused (.ctiInDelaySlot s.pc)) ∧
    (s.npc = s.pc + 4#32 → taken → ∃ s', exec i s = .next s' ∧ OnlyReg s s' 31#5 (s.pc + 8#32) ∧
      s'.pc = s.pc + 4#32 ∧ s'.npc = s.pc + 4#32 + BitVec.ofInt 32 (4 * imm.toInt)) ∧
    (s.npc = s.pc + 4#32 → ¬taken → ∃ s', exec i s = .next s' ∧ (∀ r : Reg, r ≠ 31#5 → s'.readReg r = s.readReg r) ∧
      KeepsHiLo s s' ∧ KeepsMem s s' ∧ KeepsControl s s' ∧ s'.pc = s.pc + 4#32 ∧ s'.npc = s.pc + 8#32 ∧
      (s.launch.linkNotTaken = .unchanged → s'.readReg 31#5 = s.readReg 31#5) ∧
      (s.launch.linkNotTaken = .link → s'.readReg 31#5 = s.pc + 8#32))

/-- R120: the eleven control transfers are refused when `npc` is not `pc + 4`, whether or not their condition holds, and complete
otherwise; no other instruction is refused so. -/
def Obligations.TransferInTakenSlot : Prop :=
  ∀ (i : Instr) (s : State),
    (isTransfer i = true → s.npc ≠ s.pc + 4#32 → exec i s = .refused (.ctiInDelaySlot s.pc)) ∧
    (isTransfer i = true → s.npc = s.pc + 4#32 → ∃ t, exec i s = .next t) ∧
    (isTransfer i = false → ∀ p, exec i s ≠ .refused (.ctiInDelaySlot p))

/-- J and JAL (R151, R152, R69): the region bits are those of the address of the instruction after the jump, and JAL links
`pc + 8`. -/
def Obligations.JumpRules : Prop :=
  RowDecodes 0x08000000 0xFC000000 (fun w => .j (targetOf w)) ∧
  RowDecodes 0x0C000000 0xFC000000 (fun w => .jal (targetOf w)) ∧
  ∀ (target : Target) (s : State),
    (s.npc = s.pc + 4#32 →
      (∃ s', exec (.j target) s = .next s' ∧ OnlyCounters s s' ∧ s'.pc = s.npc ∧
        s'.npc = s.npc.extractLsb' 28 4 ++ target ++ 0#2) ∧
      (∃ s', exec (.jal target) s = .next s' ∧ OnlyReg s s' 31#5 (s.pc + 8#32) ∧ s'.pc = s.npc ∧
        s'.npc = s.npc.extractLsb' 28 4 ++ target ++ 0#2)) ∧
    (s.npc ≠ s.pc + 4#32 →
      exec (.j target) s = .refused (.ctiInDelaySlot s.pc) ∧ exec (.jal target) s = .refused (.ctiInDelaySlot s.pc))

/-- JR (R153): the register is copied to `npc` as it is, aligned or not. -/
def Obligations.JrRule : Prop :=
  RowDecodes 0x00000008 0xFC1FFFFF (fun w => .jr (sOf w)) ∧
  ∀ (rs : Reg) (s : State),
    (s.npc = s.pc + 4#32 → ∃ s', exec (.jr rs) s = .next s' ∧ OnlyCounters s s' ∧ s'.pc = s.npc ∧ s'.npc = s.readReg rs) ∧
    (s.npc ≠ s.pc + 4#32 → exec (.jr rs) s = .refused (.ctiInDelaySlot s.pc))

/-! ### Multiply and divide -/

/-- DIV and DIVU (R137, R138, R143): quotient rounded toward zero and its remainder; with a zero divisor or the overflowing pair the
instruction completes and nothing is claimed of `hi` and `lo` (R136, entry 7). -/
def Obligations.DivisionRules : Prop :=
  RowDecodes 0x0000001A 0xFC00FFFF (fun w => .div (sOf w) (tOf w)) ∧
  RowDecodes 0x0000001B 0xFC00FFFF (fun w => .divu (sOf w) (tOf w)) ∧
  ∀ (rs rt : Reg) (s : State),
    (∀ n m : Int, n = (s.readReg rs).toInt → m = (s.readReg rt).toInt → m ≠ 0 → ¬(n = -2 ^ 31 ∧ m = -1) →
      ∃ s', exec (.div rs rt) s = .next s' ∧ OnlyHiLo s s' ∧ s'.draws = s.draws ∧ Advanced s s' 4#32 ∧
        s'.hi.toInt = n - s'.lo.toInt * m ∧ |s'.hi.toInt| < |m| ∧ (s'.hi.toInt < 0 → n < 0) ∧ (0 < s'.hi.toInt → 0 < n) ∧
        (s'.lo.toInt < 0 ↔ (n < 0 ∧ 0 < m ∨ 0 < n ∧ m < 0) ∧ |m| ≤ |n|)) ∧
    (((s.readReg rt).toInt = 0 ∨ ((s.readReg rs).toInt = -2 ^ 31 ∧ (s.readReg rt).toInt = -1)) →
      ∃ s', exec (.div rs rt) s = .next s' ∧ OnlyHiLo s s' ∧ Advanced s s' 4#32) ∧
    (∀ n m : Nat, n = (s.readReg rs).toNat → m = (s.readReg rt).toNat → m ≠ 0 →
      ∃ s', exec (.divu rs rt) s = .next s' ∧ OnlyHiLo s s' ∧ s'.draws = s.draws ∧ Advanced s s' 4#32 ∧
        s'.lo.toNat = n / m ∧ s'.hi.toNat = n - s'.lo.toNat * m) ∧
    ((s.readReg rt).toNat = 0 → ∃ s', exec (.divu rs rt) s = .next s' ∧ OnlyHiLo s s' ∧ Advanced s s' 4#32)

/-- MULT and MULTU (R141, R142, R144): `lo` is the low word of the exact product, the same for both; `hi` is what MULT_HI says, of
which nothing is claimed when it is `any` (R136, entry 7). -/
def Obligations.MultiplyRules : Prop :=
  RowDecodes 0x00000018 0xFC00FFFF (fun w => .mult (sOf w) (tOf w)) ∧
  RowDecodes 0x00000019 0xFC00FFFF (fun w => .multu (sOf w) (tOf w)) ∧
  ∀ (rs rt : Reg) (s : State),
    ∃ t u, exec (.mult rs rt) s = .next t ∧ exec (.multu rs rt) s = .next u ∧
      OnlyHiLo s t ∧ OnlyHiLo s u ∧ Advanced s t 4#32 ∧ Advanced s u 4#32 ∧
      t.lo = BitVec.ofInt 32 ((s.readReg rs).toInt * (s.readReg rt).toInt) ∧
      u.lo = BitVec.ofNat 32 ((s.readReg rs).toNat * (s.readReg rt).toNat) ∧ t.lo = u.lo ∧
      (s.launch.multHi = .highWord →
        t.hi = BitVec.ofInt 32 ((s.readReg rs).toInt * (s.readReg rt).toInt / 2 ^ 32) ∧
        u.hi = BitVec.ofNat 32 ((s.readReg rs).toNat * (s.readReg rt).toNat / 2 ^ 32)) ∧
      (s.launch.multHi = .unchanged → t.hi = s.hi ∧ u.hi = s.hi)

/-- MFHI and MFLO (R139, R140): a copy; `hi` and `lo` keep their values. -/
def Obligations.MoveRules : Prop :=
  RowDecodes 0x00000010 0xFFFF07FF (fun w => .mfhi (dOf w)) ∧
  RowDecodes 0x00000012 0xFFFF07FF (fun w => .mflo (dOf w)) ∧
  ∀ (rd : Reg) (s : State), CompletesReg (.mfhi rd) s rd s.hi ∧ CompletesReg (.mflo rd) s rd s.lo

/-! ### Loads and stores -/

/-- R160, R47: the effective address is the exact sum of the base and the signed field, modulo `2^32`. -/
def Obligations.EffectiveAddress : Prop :=
  ∀ (b : Word) (imm : Imm), effectiveAddress b imm = BitVec.ofInt 32 (b.toInt + imm.toInt)

/-- LB (R161): the byte sign-extended, at any mapped address; a bus error elsewhere. -/
def Obligations.LoadByteRule : Prop :=
  RowDecodes 0x80000000 0xFC000000 (fun w => .lb (sOf w) (tOf w) (immOf w)) ∧
  ∀ (rs rt : Reg) (imm : Imm) (s : State) (ea : Word), ea = effectiveAddress (s.readReg rs) imm →
    (inMapped s.launch ea.toNat = true → CompletesReg (.lb rs rt imm) s rt (BitVec.ofInt 32 (s.readByte ea).toInt)) ∧
    (inMapped s.launch ea.toNat = false → exec (.lb rs rt imm) s = .fault (.busErrorData ea s.pc s.npc))

/-- LW (R163, R41): the four bytes in BYTE_ORDER; the alignment check before the mapping check (R208). -/
def Obligations.LoadWordRule : Prop :=
  RowDecodes 0x8C000000 0xFC000000 (fun w => .lw (sOf w) (tOf w) (immOf w)) ∧
  ∀ (rs rt : Reg) (imm : Imm) (s : State) (ea : Word), ea = effectiveAddress (s.readReg rs) imm →
    (ea.toNat % 4 ≠ 0 → exec (.lw rs rt imm) s = .fault (.addressErrorLoad ea s.pc s.npc)) ∧
    (ea.toNat % 4 = 0 → (∃ k < 4, inMapped s.launch (ea.toNat + k) = false) →
      exec (.lw rs rt imm) s = .fault (.busErrorData ea s.pc s.npc)) ∧
    (ea.toNat % 4 = 0 → (∀ k < 4, inMapped s.launch (ea.toNat + k) = true) →
      (s.launch.byteOrder = .big → CompletesReg (.lw rs rt imm) s rt
        (s.readByte ea ++ s.readByte (ea + 1#32) ++ s.readByte (ea + 2#32) ++ s.readByte (ea + 3#32))) ∧
      (s.launch.byteOrder = .little → CompletesReg (.lw rs rt imm) s rt
        (s.readByte (ea + 3#32) ++ s.readByte (ea + 2#32) ++ s.readByte (ea + 1#32) ++ s.readByte ea)))

/-- SB (R164): one byte changes; the mapping check before the CODE refusal (R208). -/
def Obligations.StoreByteRule : Prop :=
  RowDecodes 0xA0000000 0xFC000000 (fun w => .sb (sOf w) (tOf w) (immOf w)) ∧
  ∀ (rs rt : Reg) (imm : Imm) (s : State) (ea : Word), ea = effectiveAddress (s.readReg rs) imm →
    (inMapped s.launch ea.toNat = false → exec (.sb rs rt imm) s = .fault (.busErrorData ea s.pc s.npc)) ∧
    (inMapped s.launch ea.toNat = true → inCode s.launch ea.toNat = true →
      exec (.sb rs rt imm) s = .refused (.storeToCode s.pc)) ∧
    (inMapped s.launch ea.toNat = true → inCode s.launch ea.toNat = false →
      ∃ s', exec (.sb rs rt imm) s = .next s' ∧ KeepsRegs s s' ∧ KeepsHiLo s s' ∧ KeepsControl s s' ∧ s'.draws = s.draws ∧
        Advanced s s' 4#32 ∧ ∀ a : Word, s'.readByte a = if a = ea then (s.readReg rt).extractLsb' 0 8 else s.readByte a)

/-- SW (R165, R41): four bytes change, in BYTE_ORDER; alignment, then mapping, then the CODE refusal (R208). -/
def Obligations.StoreWordRule : Prop :=
  RowDecodes 0xAC000000 0xFC000000 (fun w => .sw (sOf w) (tOf w) (immOf w)) ∧
  ∀ (rs rt : Reg) (imm : Imm) (s : State) (ea : Word), ea = effectiveAddress (s.readReg rs) imm →
    (ea.toNat % 4 ≠ 0 → exec (.sw rs rt imm) s = .fault (.addressErrorStore ea s.pc s.npc)) ∧
    (ea.toNat % 4 = 0 → (∃ k < 4, inMapped s.launch (ea.toNat + k) = false) →
      exec (.sw rs rt imm) s = .fault (.busErrorData ea s.pc s.npc)) ∧
    (ea.toNat % 4 = 0 → (∀ k < 4, inMapped s.launch (ea.toNat + k) = true) →
      ((∃ k < 4, inCode s.launch (ea.toNat + k) = true) → exec (.sw rs rt imm) s = .refused (.storeToCode s.pc)) ∧
      ((∀ k < 4, inCode s.launch (ea.toNat + k) = false) →
        ∃ s', exec (.sw rs rt imm) s = .next s' ∧ KeepsRegs s s' ∧ KeepsHiLo s s' ∧ KeepsControl s s' ∧ s'.draws = s.draws ∧
          Advanced s s' 4#32 ∧
          (∀ k < 4, s'.readByte (ea + BitVec.ofNat 32 k) =
            (s.readReg rt).extractLsb' (match s.launch.byteOrder with | .big => 24 - 8 * k | .little => 8 * k) 8) ∧
          ∀ a : Word, (∀ k < 4, a ≠ ea + BitVec.ofNat 32 k) → s'.readByte a = s.readByte a))

/-- A word stored by SW is read back unchanged by LW at the same address under either byte order (R163), into any register. -/
def Obligations.StoreThenLoadWord : Prop :=
  ∀ (rs rt rd : Reg) (imm : Imm) (s t : State), exec (.sw rs rt imm) s = .next t →
    CompletesReg (.lw rs rd imm) t rd (s.readReg rt)

/-- LUI (R162, R66). -/
def Obligations.LoadUpperImmediate : Prop :=
  RowDecodes 0x3C000000 0xFC000000 (fun w => .lui (tOf w) (immOf w)) ∧
  ∀ (rt : Reg) (imm : Imm) (s : State), CompletesReg (.lui rt imm) s rt (imm ++ 0#16)

/-! ### Shifts and comparisons -/

/-- SLL, SRL, SRA (R171, R174, R173) by the arithmetic forms of R176; the all-zero word is NOOP's. -/
def Obligations.ShiftRules : Prop :=
  (∀ w : Word, w ≠ 0#32 → w &&& 0xFC00003F = 0#32 → decode w = .ok (.sll (sOf w) (tOf w) (dOf w) (hOf w))) ∧
  RowDecodes 0x00000002 0xFC00003F (fun w => .srl (tOf w) (dOf w) (hOf w)) ∧
  RowDecodes 0x00000003 0xFC00003F (fun w => .sra (tOf w) (dOf w) (hOf w)) ∧
  ∀ (rs rt rd : Reg) (h : Shamt) (s : State),
    CompletesReg (.sll rs rt rd h) s rd (BitVec.ofNat 32 ((s.readReg rt).toNat * 2 ^ h.toNat)) ∧
    CompletesReg (.srl rt rd h) s rd (BitVec.ofNat 32 ((s.readReg rt).toNat / 2 ^ h.toNat)) ∧
    CompletesReg (.sra rt rd h) s rd (BitVec.ofInt 32 ((s.readReg rt).toInt / 2 ^ h.toNat))

/-- SLLV and SRLV (R172, R175): the count is the register modulo 32 (R176). -/
def Obligations.VariableShiftRules : Prop :=
  RowDecodes 0x00000004 0xFC00003F (fun w => .sllv (sOf w) (tOf w) (dOf w)) ∧
  RowDecodes 0x00000006 0xFC0007FF (fun w => .srlv (sOf w) (tOf w) (dOf w)) ∧
  ∀ (rs rt rd : Reg) (s : State),
    CompletesReg (.sllv rs rt rd) s rd
      (BitVec.ofNat 32 ((s.readReg rt).toNat * 2 ^ ((s.readReg rs).toNat % 32))) ∧
    CompletesReg (.srlv rs rt rd) s rd
      (BitVec.ofNat 32 ((s.readReg rt).toNat / 2 ^ ((s.readReg rs).toNat % 32)))

/-- NOOP (R170) only advances, and is what SLL with all fields 0 does. R71 lets a decoder report the all-zero word under either name;
that decode answers NOOP is the model's (entry 15). -/
def Obligations.NoopRule : Prop :=
  decode 0#32 = .ok .noop ∧
  ∀ s : State, (∃ s', exec .noop s = .next s' ∧ OnlyCounters s s' ∧ Advanced s s' 4#32) ∧
    exec (.sll 0 0 0 0) s = exec .noop s

/-- SLT and SLTU (R181, R184): the exact comparison, as SWORD and as UWORD. -/
def Obligations.CompareRegisters : Prop :=
  RowDecodes 0x0000002A 0xFC0007FF (fun w => .slt (sOf w) (tOf w) (dOf w)) ∧
  RowDecodes 0x0000002B 0xFC0007FF (fun w => .sltu (sOf w) (tOf w) (dOf w)) ∧
  ∀ (rs rt rd : Reg) (s : State),
    CompletesReg (.slt rs rt rd) s rd (if (s.readReg rs).toInt < (s.readReg rt).toInt then 1#32 else 0#32) ∧
    CompletesReg (.sltu rs rt rd) s rd (if (s.readReg rs).toNat < (s.readReg rt).toNat then 1#32 else 0#32)

/-- SLTI and SLTIU (R182, R183): the sign-extended immediate, compared as SWORD and as UWORD. -/
def Obligations.CompareImmediates : Prop :=
  RowDecodes 0x28000000 0xFC000000 (fun w => .slti (sOf w) (tOf w) (immOf w)) ∧
  RowDecodes 0x2C000000 0xFC000000 (fun w => .sltiu (sOf w) (tOf w) (immOf w)) ∧
  ∀ (rs rt : Reg) (imm : Imm) (s : State),
    CompletesReg (.slti rs rt imm) s rt (if (s.readReg rs).toInt < imm.toInt then 1#32 else 0#32) ∧
    CompletesReg (.sltiu rs rt imm) s rt
      (if (s.readReg rs).toNat < (BitVec.ofInt 32 imm.toInt).toNat then 1#32 else 0#32)

/-! ### System -/

/-- SYSCALL (R191): the counters advance by 4 and nothing else of the spec's state changes. That EnvCall is a next state marked
`envCall` is the model's form of the fourth outcome (entry 8). -/
def Obligations.SyscallRule : Prop :=
  RowDecodes 0x0000000C 0xFC00003F (fun _ => .syscall) ∧
  ∀ s : State, ∃ s', exec .syscall s = .next s' ∧ s'.run = .envCall ∧ KeepsRegs s s' ∧ KeepsHiLo s s' ∧ KeepsMem s s' ∧
    s'.launch = s.launch ∧ s'.env = s.env ∧ s'.draws = s.draws ∧ Advanced s s' 4#32

/-! ### What instructions leave alone and what they read -/

/-- Frame of the general purpose registers, for every instruction (R24): only the register of the column "writes" changes. -/
def Obligations.RegisterFrame : Prop :=
  ∀ (i : Instr) (s t : State), exec i s = .next t → ∀ r : Reg, destReg i ≠ some r → t.readReg r = s.readReg r

/-- Frame of `hi` and `lo`, for every instruction (R24, R25): only MULT, MULTU, DIV and DIVU change them. -/
def Obligations.HiLoFrame : Prop :=
  ∀ (i : Instr) (s t : State), exec i s = .next t → writesHiLo i = false → t.hi = s.hi ∧ t.lo = s.lo

/-- Frame of memory, for every instruction (R24, R46): only SB and SW change it, and only the bytes from the address computed as their
meaning computes it. -/
def Obligations.MemoryFrame : Prop :=
  ∀ (i : Instr) (s t : State), exec i s = .next t → ∀ a : Word,
    (∀ ea n, storeTarget i s = some (ea, n) → ∀ k < n, a ≠ ea + BitVec.ofNat 32 k) → t.readByte a = s.readByte a

/-- Only MFHI and MFLO read `hi` or `lo` (R24): with other values in them any other instruction has the same outcome, in which each of
the two holds what the instruction writes to it, the same as before, or else the other value. -/
def Obligations.OnlyMovesReadHiLo : Prop :=
  ∀ (i : Instr) (s : State) (h l : Word), readsHiLo i = false →
    exec i (withHiLo s h l) =
      mapNext (fun t => withHiLo t (if setsHi i s then t.hi else h) (if writesHiLo i then t.lo else l)) (exec i s)

/-- An instruction reads only the registers of the column "reads" (R24): with another value in a register that it neither reads nor
writes, it does the same and keeps that value. -/
def Obligations.OnlyNamedRegistersRead : Prop :=
  ∀ (i : Instr) (s : State) (r : Reg) (v : Word), (readsRegs i).contains r = false → destReg i ≠ some r →
    exec i (s.writeReg r v) = mapNext (fun t => t.writeReg r v) (exec i s)

/-- R22: register 0 reads as 0 and discards writes; an instruction with destination 0 that completes does what NOOP does, and one
that raises with another destination raises the same with destination 0. -/
def Obligations.RegisterZero : Prop :=
  (∀ (s : State) (v : Word), s.readReg 0#5 = 0#32 ∧ s.writeReg 0#5 v = s) ∧
  (∀ (i : Instr) (s t : State), destReg i = some 0#5 → exec i s = .next t → exec .noop s = .next t) ∧
  (∀ (rs rt d : Reg) (imm : Imm) (s : State) (f : Fault),
    (exec (.add rs rt d) s = .fault f ↔ exec (.add rs rt 0) s = .fault f) ∧
    (exec (.addi rs d imm) s = .fault f ↔ exec (.addi rs 0 imm) s = .fault f) ∧
    (exec (.sub rs rt d) s = .fault f ↔ exec (.sub rs rt 0) s = .fault f) ∧
    (exec (.lb rs d imm) s = .fault f ↔ exec (.lb rs 0 imm) s = .fault f) ∧
    (exec (.lw rs d imm) s = .fault f ↔ exec (.lw rs 0 imm) s = .fault f))

/-! ### Exceptions and refusals -/

/-- The table of R200, for a step: which instruction raises each fault, when, and with what info. -/
def Obligations.FaultTable : Prop :=
  ∀ (s : State) (f : Fault), s.run = .running → step s = .fault f →
    match f with
    | .overflow _ _ => ∃ i, Fetches s i ∧
        ((∃ rs rt rd, i = .add rs rt rd ∧ ¬FitsSword ((s.readReg rs).toInt + (s.readReg rt).toInt)) ∨
          (∃ rs rt imm, i = .addi rs rt imm ∧ ¬FitsSword ((s.readReg rs).toInt + imm.toInt)) ∨
          (∃ rs rt rd, i = .sub rs rt rd ∧ ¬FitsSword ((s.readReg rs).toInt - (s.readReg rt).toInt)))
    | .addressErrorLoad ea _ _ => ea.toNat % 4 ≠ 0 ∧
        ∃ rs rt imm, Fetches s (.lw rs rt imm) ∧ ea = effectiveAddress (s.readReg rs) imm
    | .addressErrorStore ea _ _ => ea.toNat % 4 ≠ 0 ∧
        ∃ rs rt imm, Fetches s (.sw rs rt imm) ∧ ea = effectiveAddress (s.readReg rs) imm
    | .addressErrorFetch pc _ => pc = s.pc ∧ pc.toNat % 4 ≠ 0
    | .busErrorFetch pc _ => pc = s.pc ∧ pc.toNat % 4 = 0 ∧ ∃ k < 4, inCode s.launch (pc.toNat + k) = false
    | .busErrorData ea _ _ => ∃ rs rt imm, ea = effectiveAddress (s.readReg rs) imm ∧
        ((Fetches s (.lb rs rt imm) ∨ Fetches s (.sb rs rt imm)) ∧ inMapped s.launch ea.toNat = false ∨
          (Fetches s (.lw rs rt imm) ∨ Fetches s (.sw rs rt imm)) ∧ ∃ k < 4, inMapped s.launch (ea.toNat + k) = false)
    | .reservedInstruction w _ _ => w = s.readWord s.pc ∧ ∀ i, ¬MatchesRow w i

/-- A fault carries the `pc` of the faulting instruction and the `npc` of that moment, also in a delay slot (R201, R211). -/
def Obligations.FaultCarriesCounters : Prop :=
  ∀ (s : State) (f : Fault), step s = .fault f → faultPc f = s.pc ∧ faultNpc f = s.npc

/-- R53: a store whose mapped bytes touch CODE is refused; instructions are fetched only from CODE; no completed step changes a byte of
CODE. That the environment changes none either is the model's choice, by R4's "never stored to" (entries 9 and 11). -/
def Obligations.CodeIsImmutable : Prop :=
  (∀ (i : Instr) (s : State) (ea : Word) (n : Nat), storeTarget i s = some (ea, n) → (n = 4 → ea.toNat % 4 = 0) →
    allMapped s.launch ea n = true → someInCode s.launch ea n = true → exec i s = .refused (.storeToCode s.pc)) ∧
  (∀ s t : State, step s = .next t → allInCode s.launch s.pc 4 = true) ∧
  (∀ s t : State, step s = .next t → ∀ a : Word, inCode s.launch a.toNat = true → t.readByte a = s.readByte a)

/-- R243 at a state that resumes no EnvCall: with LOAD_DELAY_CHECK on, the step is refused exactly when the instruction reads the
register that the step before loaded; off, never. That this refusal comes before the instruction's own checks (R208 gives it no
place), and that a completed step remembers the load in `lastLoad`, is the model's choice (entry 14). -/
def Obligations.LoadDelayRule : Prop :=
  ∀ (s : State) (i : Instr), Fetches s i →
    (s.launch.loadDelayCheck = true → (∃ r, s.lastLoad = some r ∧ r ∈ readsRegs i) → step s = .refused (.loadDelay s.pc)) ∧
    (∀ p, step s = .refused (.loadDelay p) → s.launch.loadDelayCheck = true ∧ ∃ r, s.lastLoad = some r ∧ r ∈ readsRegs i) ∧
    (∀ t, step s = .next t → ∀ r : Reg,
      t.lastLoad = some r ↔ r ≠ 0#5 ∧ ∃ rs imm, i = .lb rs r imm ∨ i = .lw rs r imm)

/-- R244 at a state that resumes no EnvCall: with HILO_HAZARD_CHECK on, a MULT, MULTU, DIV or DIVU that is the first or second
instruction after an MFHI or MFLO is refused, unless the load check refuses it first; off, never. The order of the two checks, their
place before the instruction's own checks, and the field `hiLoWindow` are the model's choice (entry 14). -/
def Obligations.HiLoHazardRule : Prop :=
  ∀ (s : State) (i : Instr), Fetches s i →
    (s.launch.hiLoHazardCheck = true → writesHiLo i = true → s.hiLoWindow ≠ .clear →
      step s = .refused (.hiLoHazard s.pc) ∨ (s.launch.loadDelayCheck = true ∧ step s = .refused (.loadDelay s.pc))) ∧
    (∀ p, step s = .refused (.hiLoHazard p) →
      s.launch.hiLoHazardCheck = true ∧ writesHiLo i = true ∧ s.hiLoWindow ≠ .clear) ∧
    (∀ t, step s = .next t →
      (t.hiLoWindow = .twoLeft ↔ readsHiLo i = true) ∧
      (t.hiLoWindow = .oneLeft ↔ readsHiLo i = false ∧ s.hiLoWindow = .twoLeft))

/-- The optional checks only remove runs (R243): a step that completes completes the same with them off. -/
def Obligations.ChecksOnlyRemoveRuns : Prop :=
  ∀ s t : State, step s = .next t → step (checksOff s) = .next (checksOff t)

/-! ### Invariant and reset -/

/-- Every step keeps the invariant: memory canonical and inside MAPPED, register 0 zero, no wait for register 0. -/
def Obligations.StepKeepsInv : Prop := ∀ s t : State, Inv s → step s = .next t → Inv t

/-- The invariant holds after reset. -/
def Obligations.ResetMeetsInv : Prop := Inv State.reset

/-- The start of a run (R32, R230): register 0, `pc`, `npc` are as the spec says for the launch that reset carries, and that launch
is one R4 admits. The values of the other registers and of memory are the model's choice (entries 4, 5, 6), and so is the launch
(entries 2, 3). -/
def Obligations.ResetValues : Prop :=
  State.reset.readReg 0#5 = 0#32 ∧ State.reset.pc = State.reset.launch.entryPc ∧
  State.reset.npc = State.reset.launch.entryPc + 4#32 ∧ launchWf State.reset.launch = true ∧
  State.reset.run = .running ∧ (∀ r : Reg, State.reset.readReg r = 0#32) ∧ State.reset.hi = 0#32 ∧ State.reset.lo = 0#32 ∧
  (∀ a : Word, State.reset.readByte a = 0#8)

/-- The start of a run from any launch (R230, R32): the counters, the parameters, the values the launch names and its image, of which
the last value given stays. Nothing is claimed of a register the launch does not name (entry 23). That no EnvCall is pending and that
the environment's replies are those of the launch is the model's form (entries 8, 9). -/
def Obligations.StartOfARun : Prop :=
  ∀ u : Start,
    (startState u).launch = u.launch ∧ (startState u).pc = u.launch.entryPc ∧ (startState u).npc = u.launch.entryPc + 4#32 ∧
    (startState u).readReg 0#5 = 0#32 ∧ (startState u).run = .running ∧ (startState u).env = u.env ∧
    (∀ (d : Reg) (v : Word) pre post, u.regs = pre ++ (d, v) :: post → (∀ w ∈ post, w.1 ≠ d) → d ≠ 0#5 →
      (startState u).readReg d = v) ∧
    (∀ v, u.hi = some v → (startState u).hi = v) ∧ (∀ v, u.lo = some v → (startState u).lo = v) ∧
    (∀ (a : Word) (v : Byte) pre post, startImage u = pre ++ (a, v) :: post → (∀ c ∈ post, c.1 ≠ a) →
      inMapped u.launch a.toNat = true → (startState u).readByte a = v)

/-- A program's word stands at its address at the start, in the byte order of the launch (R230), if no later word of the program and
no data lies over it; the one at ENTRY_PC is the first instruction fetched (R27, R32). -/
def Obligations.ProgramIsLoaded : Prop :=
  ∀ (u : Start) (a w : Word) (pre post : List (Word × Word)), startWf u = true → u.program = pre ++ (a, w) :: post →
    (∀ c ∈ post, c.1 ≠ a) → (∀ c ∈ u.data, ∀ k < 4, c.1 ≠ a + BitVec.ofNat 32 k) →
    (startState u).readWord a = w ∧
    (∀ i, a = u.launch.entryPc → decode w = .ok i → Fetches (startState u) i)

/-- The invariant of StepKeepsInv holds at the start of a run from any launch. -/
def Obligations.StartMeetsInv : Prop := ∀ u : Start, Inv (startState u)

/-- `State.reset` is the start from one launch, with the zeros of entries 4 and 5 as its named values and no image (entries 2, 6). -/
def Obligations.ResetIsAStart : Prop := State.reset = startState resetStart
end

