-- ==== Sys2Proof/Laws/Encoding.lean ====
section
/-! SUPPORT. The fields of a word laid out by R62, and a word as its fields. -/

namespace Sys2Proof

/-! ### Fields of the R layout -/

section
variable (rs rt rd : Reg) (h : Shamt) (f : BitVec 6)

@[simp] theorem opOf_rWord : opOf (rWord rs rt rd h f) = 0#6 := by
  apply BitVec.eq_of_getLsbD_eq; intro i hi
  simp only [opOf, rWord, BitVec.getLsbD_extractLsb', BitVec.getLsbD_append]
  interval_cases i <;> simp

@[simp] theorem sOf_rWord : sOf (rWord rs rt rd h f) = rs := by
  apply BitVec.eq_of_getLsbD_eq; intro i hi
  simp only [sOf, rWord, BitVec.getLsbD_extractLsb', BitVec.getLsbD_append]
  interval_cases i <;> simp

@[simp] theorem tOf_rWord : tOf (rWord rs rt rd h f) = rt := by
  apply BitVec.eq_of_getLsbD_eq; intro i hi
  simp only [tOf, rWord, BitVec.getLsbD_extractLsb', BitVec.getLsbD_append]
  interval_cases i <;> simp

@[simp] theorem dOf_rWord : dOf (rWord rs rt rd h f) = rd := by
  apply BitVec.eq_of_getLsbD_eq; intro i hi
  simp only [dOf, rWord, BitVec.getLsbD_extractLsb', BitVec.getLsbD_append]
  interval_cases i <;> simp

@[simp] theorem hOf_rWord : hOf (rWord rs rt rd h f) = h := by
  apply BitVec.eq_of_getLsbD_eq; intro i hi
  simp only [hOf, rWord, BitVec.getLsbD_extractLsb', BitVec.getLsbD_append]
  interval_cases i <;> simp

@[simp] theorem functOf_rWord : functOf (rWord rs rt rd h f) = f := by
  apply BitVec.eq_of_getLsbD_eq; intro i hi
  simp only [functOf, rWord, BitVec.getLsbD_extractLsb', BitVec.getLsbD_append]
  interval_cases i <;> simp

/-- Only the all-zero fields give the all-zero word. -/
theorem rWord_eq_zero : rWord rs rt rd h f = 0#32 ↔ rs = 0#5 ∧ rt = 0#5 ∧ rd = 0#5 ∧ h = 0#5 ∧ f = 0#6 := by
  constructor
  · intro hw
    have h1 := congrArg sOf hw; have h2 := congrArg tOf hw; have h3 := congrArg dOf hw
    have h4 := congrArg hOf hw; have h5 := congrArg functOf hw
    simp only [sOf_rWord, tOf_rWord, dOf_rWord, hOf_rWord, functOf_rWord] at h1 h2 h3 h4 h5
    exact ⟨h1.trans (by decide), h2.trans (by decide), h3.trans (by decide), h4.trans (by decide), h5.trans (by decide)⟩
  · rintro ⟨rfl, rfl, rfl, rfl, rfl⟩; decide

end

/-! ### Fields of the I and J layouts -/

section
variable (op : BitVec 6) (rs rt : Reg) (imm : Imm) (target : Target)

@[simp] theorem opOf_iWord : opOf (iWord op rs rt imm) = op := by
  apply BitVec.eq_of_getLsbD_eq; intro i hi
  simp only [opOf, iWord, BitVec.getLsbD_extractLsb', BitVec.getLsbD_append]
  interval_cases i <;> simp

@[simp] theorem sOf_iWord : sOf (iWord op rs rt imm) = rs := by
  apply BitVec.eq_of_getLsbD_eq; intro i hi
  simp only [sOf, iWord, BitVec.getLsbD_extractLsb', BitVec.getLsbD_append]
  interval_cases i <;> simp

@[simp] theorem tOf_iWord : tOf (iWord op rs rt imm) = rt := by
  apply BitVec.eq_of_getLsbD_eq; intro i hi
  simp only [tOf, iWord, BitVec.getLsbD_extractLsb', BitVec.getLsbD_append]
  interval_cases i <;> simp

@[simp] theorem immOf_iWord : immOf (iWord op rs rt imm) = imm := by
  apply BitVec.eq_of_getLsbD_eq; intro i hi
  simp only [immOf, iWord, BitVec.getLsbD_extractLsb', BitVec.getLsbD_append]
  interval_cases i <;> simp

@[simp] theorem opOf_jWord : opOf (jWord op target) = op := by
  apply BitVec.eq_of_getLsbD_eq; intro i hi
  simp only [opOf, jWord, BitVec.getLsbD_extractLsb', BitVec.getLsbD_append]
  interval_cases i <;> simp

@[simp] theorem targetOf_jWord : targetOf (jWord op target) = target := by
  apply BitVec.eq_of_getLsbD_eq; intro i hi
  simp only [targetOf, jWord, BitVec.getLsbD_extractLsb', BitVec.getLsbD_append]
  interval_cases i <;> simp

end

/-! ### A word as its fields -/

theorem word_eq_rFields (w : Word) : w = opOf w ++ sOf w ++ tOf w ++ dOf w ++ hOf w ++ functOf w := by
  apply BitVec.eq_of_getLsbD_eq; intro i hi
  simp only [opOf, sOf, tOf, dOf, hOf, functOf, BitVec.getLsbD_extractLsb', BitVec.getLsbD_append]
  interval_cases i <;> simp

theorem word_eq_iFields (w : Word) : w = iWord (opOf w) (sOf w) (tOf w) (immOf w) := by
  apply BitVec.eq_of_getLsbD_eq; intro i hi
  simp only [iWord, opOf, sOf, tOf, immOf, BitVec.getLsbD_extractLsb', BitVec.getLsbD_append]
  interval_cases i <;> simp

theorem word_eq_jFields (w : Word) : w = jWord (opOf w) (targetOf w) := by
  apply BitVec.eq_of_getLsbD_eq; intro i hi
  simp only [jWord, opOf, targetOf, BitVec.getLsbD_extractLsb', BitVec.getLsbD_append]
  interval_cases i <;> simp

/-- A word with `op = 000000` is the R layout of its fields. -/
theorem word_eq_rWord {w : Word} (h : opOf w = 0#6) : w = rWord (sOf w) (tOf w) (dOf w) (hOf w) (functOf w) := by
  conv_lhs => rw [word_eq_rFields w, h]
  rfl

/-! ### Masking a word field by field -/

theorem rWord_and (rs rt rd : Reg) (h : Shamt) (f : BitVec 6) (a b c : Reg) (d : Shamt) (e : BitVec 6) (op : BitVec 6) :
    rWord rs rt rd h f &&& (op ++ a ++ b ++ c ++ d ++ e) = rWord (rs &&& a) (rt &&& b) (rd &&& c) (h &&& d) (f &&& e) := by
  apply BitVec.eq_of_getLsbD_eq; intro i hi
  simp only [rWord, BitVec.getLsbD_and, BitVec.getLsbD_append]
  interval_cases i <;> simp

theorem iWord_and (op : BitVec 6) (rs rt : Reg) (imm : Imm) (o : BitVec 6) (a b : Reg) (c : Imm) :
    iWord op rs rt imm &&& iWord o a b c = iWord (op &&& o) (rs &&& a) (rt &&& b) (imm &&& c) := by
  apply BitVec.eq_of_getLsbD_eq; intro i hi
  simp only [iWord, BitVec.getLsbD_and, BitVec.getLsbD_append]
  interval_cases i <;> simp

theorem jWord_and (op : BitVec 6) (target : Target) (o : BitVec 6) (t : Target) :
    jWord op target &&& jWord o t = jWord (op &&& o) (target &&& t) := by
  apply BitVec.eq_of_getLsbD_eq; intro i hi
  simp only [jWord, BitVec.getLsbD_and, BitVec.getLsbD_append]
  interval_cases i <;> simp

end Sys2Proof
end

