-- ==== Sys2Proof/Laws/State.lean ====
section
/-! SUPPORT. What each update of the state does to each field, so that no later proof unfolds a record update. -/

namespace Sys2Proof.Machine

variable (s : State)

/-! ### One update, one field -/

@[simp] theorem State.setHi_x (v : Word) : (s.setHi v).x = s.x := rfl
@[simp] theorem State.setHi_hi (v : Word) : (s.setHi v).hi = v := rfl
@[simp] theorem State.setHi_lo (v : Word) : (s.setHi v).lo = s.lo := rfl
@[simp] theorem State.setHi_pc (v : Word) : (s.setHi v).pc = s.pc := rfl
@[simp] theorem State.setHi_npc (v : Word) : (s.setHi v).npc = s.npc := rfl
@[simp] theorem State.setHi_mem (v : Word) : (s.setHi v).mem = s.mem := rfl
@[simp] theorem State.setHi_launch (v : Word) : (s.setHi v).launch = s.launch := rfl
@[simp] theorem State.setHi_run (v : Word) : (s.setHi v).run = s.run := rfl
@[simp] theorem State.setHi_env (v : Word) : (s.setHi v).env = s.env := rfl
@[simp] theorem State.setHi_draws (v : Word) : (s.setHi v).draws = s.draws := rfl
@[simp] theorem State.setHi_lastLoad (v : Word) : (s.setHi v).lastLoad = s.lastLoad := rfl
@[simp] theorem State.setHi_hiLoWindow (v : Word) : (s.setHi v).hiLoWindow = s.hiLoWindow := rfl

@[simp] theorem State.setLo_x (v : Word) : (s.setLo v).x = s.x := rfl
@[simp] theorem State.setLo_hi (v : Word) : (s.setLo v).hi = s.hi := rfl
@[simp] theorem State.setLo_lo (v : Word) : (s.setLo v).lo = v := rfl
@[simp] theorem State.setLo_pc (v : Word) : (s.setLo v).pc = s.pc := rfl
@[simp] theorem State.setLo_npc (v : Word) : (s.setLo v).npc = s.npc := rfl
@[simp] theorem State.setLo_mem (v : Word) : (s.setLo v).mem = s.mem := rfl
@[simp] theorem State.setLo_launch (v : Word) : (s.setLo v).launch = s.launch := rfl
@[simp] theorem State.setLo_run (v : Word) : (s.setLo v).run = s.run := rfl
@[simp] theorem State.setLo_env (v : Word) : (s.setLo v).env = s.env := rfl
@[simp] theorem State.setLo_draws (v : Word) : (s.setLo v).draws = s.draws := rfl
@[simp] theorem State.setLo_lastLoad (v : Word) : (s.setLo v).lastLoad = s.lastLoad := rfl
@[simp] theorem State.setLo_hiLoWindow (v : Word) : (s.setLo v).hiLoWindow = s.hiLoWindow := rfl

@[simp] theorem State.afterDraw_x : (s.afterDraw).x = s.x := rfl
@[simp] theorem State.afterDraw_hi : (s.afterDraw).hi = s.hi := rfl
@[simp] theorem State.afterDraw_lo : (s.afterDraw).lo = s.lo := rfl
@[simp] theorem State.afterDraw_pc : (s.afterDraw).pc = s.pc := rfl
@[simp] theorem State.afterDraw_npc : (s.afterDraw).npc = s.npc := rfl
@[simp] theorem State.afterDraw_mem : (s.afterDraw).mem = s.mem := rfl
@[simp] theorem State.afterDraw_launch : (s.afterDraw).launch = s.launch := rfl
@[simp] theorem State.afterDraw_run : (s.afterDraw).run = s.run := rfl
@[simp] theorem State.afterDraw_env : (s.afterDraw).env = s.env := rfl
@[simp] theorem State.afterDraw_draws : (s.afterDraw).draws = s.draws + 1 := rfl
@[simp] theorem State.afterDraw_lastLoad : (s.afterDraw).lastLoad = s.lastLoad := rfl
@[simp] theorem State.afterDraw_hiLoWindow : (s.afterDraw).hiLoWindow = s.hiLoWindow := rfl

@[simp] theorem State.freeHi_x : (s.freeHi).x = s.x := rfl
@[simp] theorem State.freeHi_hi : (s.freeHi).hi = s.drawn := rfl
@[simp] theorem State.freeHi_lo : (s.freeHi).lo = s.lo := rfl
@[simp] theorem State.freeHi_pc : (s.freeHi).pc = s.pc := rfl
@[simp] theorem State.freeHi_npc : (s.freeHi).npc = s.npc := rfl
@[simp] theorem State.freeHi_mem : (s.freeHi).mem = s.mem := rfl
@[simp] theorem State.freeHi_launch : (s.freeHi).launch = s.launch := rfl
@[simp] theorem State.freeHi_run : (s.freeHi).run = s.run := rfl
@[simp] theorem State.freeHi_env : (s.freeHi).env = s.env := rfl
@[simp] theorem State.freeHi_draws : (s.freeHi).draws = s.draws + 1 := rfl
@[simp] theorem State.freeHi_lastLoad : (s.freeHi).lastLoad = s.lastLoad := rfl
@[simp] theorem State.freeHi_hiLoWindow : (s.freeHi).hiLoWindow = s.hiLoWindow := rfl

@[simp] theorem State.freeLo_x : (s.freeLo).x = s.x := rfl
@[simp] theorem State.freeLo_hi : (s.freeLo).hi = s.hi := rfl
@[simp] theorem State.freeLo_lo : (s.freeLo).lo = s.drawn := rfl
@[simp] theorem State.freeLo_pc : (s.freeLo).pc = s.pc := rfl
@[simp] theorem State.freeLo_npc : (s.freeLo).npc = s.npc := rfl
@[simp] theorem State.freeLo_mem : (s.freeLo).mem = s.mem := rfl
@[simp] theorem State.freeLo_launch : (s.freeLo).launch = s.launch := rfl
@[simp] theorem State.freeLo_run : (s.freeLo).run = s.run := rfl
@[simp] theorem State.freeLo_env : (s.freeLo).env = s.env := rfl
@[simp] theorem State.freeLo_draws : (s.freeLo).draws = s.draws + 1 := rfl
@[simp] theorem State.freeLo_lastLoad : (s.freeLo).lastLoad = s.lastLoad := rfl
@[simp] theorem State.freeLo_hiLoWindow : (s.freeLo).hiLoWindow = s.hiLoWindow := rfl

@[simp] theorem State.jumpTo_x (t : Word) : (s.jumpTo t).x = s.x := rfl
@[simp] theorem State.jumpTo_hi (t : Word) : (s.jumpTo t).hi = s.hi := rfl
@[simp] theorem State.jumpTo_lo (t : Word) : (s.jumpTo t).lo = s.lo := rfl
@[simp] theorem State.jumpTo_pc (t : Word) : (s.jumpTo t).pc = s.npc := rfl
@[simp] theorem State.jumpTo_npc (t : Word) : (s.jumpTo t).npc = t := rfl
@[simp] theorem State.jumpTo_mem (t : Word) : (s.jumpTo t).mem = s.mem := rfl
@[simp] theorem State.jumpTo_launch (t : Word) : (s.jumpTo t).launch = s.launch := rfl
@[simp] theorem State.jumpTo_run (t : Word) : (s.jumpTo t).run = s.run := rfl
@[simp] theorem State.jumpTo_env (t : Word) : (s.jumpTo t).env = s.env := rfl
@[simp] theorem State.jumpTo_draws (t : Word) : (s.jumpTo t).draws = s.draws := rfl
@[simp] theorem State.jumpTo_lastLoad (t : Word) : (s.jumpTo t).lastLoad = s.lastLoad := rfl
@[simp] theorem State.jumpTo_hiLoWindow (t : Word) : (s.jumpTo t).hiLoWindow = s.hiLoWindow := rfl

@[simp] theorem State.advancePc_x (off : Word) : (s.advancePc off).x = s.x := rfl
@[simp] theorem State.advancePc_hi (off : Word) : (s.advancePc off).hi = s.hi := rfl
@[simp] theorem State.advancePc_lo (off : Word) : (s.advancePc off).lo = s.lo := rfl
@[simp] theorem State.advancePc_pc (off : Word) : (s.advancePc off).pc = s.npc := rfl
@[simp] theorem State.advancePc_npc (off : Word) : (s.advancePc off).npc = s.npc + off := rfl
@[simp] theorem State.advancePc_mem (off : Word) : (s.advancePc off).mem = s.mem := rfl
@[simp] theorem State.advancePc_launch (off : Word) : (s.advancePc off).launch = s.launch := rfl
@[simp] theorem State.advancePc_run (off : Word) : (s.advancePc off).run = s.run := rfl
@[simp] theorem State.advancePc_env (off : Word) : (s.advancePc off).env = s.env := rfl
@[simp] theorem State.advancePc_draws (off : Word) : (s.advancePc off).draws = s.draws := rfl
@[simp] theorem State.advancePc_lastLoad (off : Word) : (s.advancePc off).lastLoad = s.lastLoad := rfl
@[simp] theorem State.advancePc_hiLoWindow (off : Word) : (s.advancePc off).hiLoWindow = s.hiLoWindow := rfl

@[simp] theorem State.writeByte_x (a : Word) (v : Byte) : (s.writeByte a v).x = s.x := rfl
@[simp] theorem State.writeByte_hi (a : Word) (v : Byte) : (s.writeByte a v).hi = s.hi := rfl
@[simp] theorem State.writeByte_lo (a : Word) (v : Byte) : (s.writeByte a v).lo = s.lo := rfl
@[simp] theorem State.writeByte_pc (a : Word) (v : Byte) : (s.writeByte a v).pc = s.pc := rfl
@[simp] theorem State.writeByte_npc (a : Word) (v : Byte) : (s.writeByte a v).npc = s.npc := rfl
@[simp] theorem State.writeByte_mem (a : Word) (v : Byte) : (s.writeByte a v).mem = s.mem.write a.toNat v := rfl
@[simp] theorem State.writeByte_launch (a : Word) (v : Byte) : (s.writeByte a v).launch = s.launch := rfl
@[simp] theorem State.writeByte_run (a : Word) (v : Byte) : (s.writeByte a v).run = s.run := rfl
@[simp] theorem State.writeByte_env (a : Word) (v : Byte) : (s.writeByte a v).env = s.env := rfl
@[simp] theorem State.writeByte_draws (a : Word) (v : Byte) : (s.writeByte a v).draws = s.draws := rfl
@[simp] theorem State.writeByte_lastLoad (a : Word) (v : Byte) : (s.writeByte a v).lastLoad = s.lastLoad := rfl
@[simp] theorem State.writeByte_hiLoWindow (a : Word) (v : Byte) : (s.writeByte a v).hiLoWindow = s.hiLoWindow := rfl

@[simp] theorem State.noteHazards_x (i : Instr) : (s.noteHazards i).x = s.x := rfl
@[simp] theorem State.noteHazards_hi (i : Instr) : (s.noteHazards i).hi = s.hi := rfl
@[simp] theorem State.noteHazards_lo (i : Instr) : (s.noteHazards i).lo = s.lo := rfl
@[simp] theorem State.noteHazards_pc (i : Instr) : (s.noteHazards i).pc = s.pc := rfl
@[simp] theorem State.noteHazards_npc (i : Instr) : (s.noteHazards i).npc = s.npc := rfl
@[simp] theorem State.noteHazards_mem (i : Instr) : (s.noteHazards i).mem = s.mem := rfl
@[simp] theorem State.noteHazards_launch (i : Instr) : (s.noteHazards i).launch = s.launch := rfl
@[simp] theorem State.noteHazards_run (i : Instr) : (s.noteHazards i).run = s.run := rfl
@[simp] theorem State.noteHazards_env (i : Instr) : (s.noteHazards i).env = s.env := rfl
@[simp] theorem State.noteHazards_draws (i : Instr) : (s.noteHazards i).draws = s.draws := rfl
@[simp] theorem State.noteHazards_lastLoad (i : Instr) : (s.noteHazards i).lastLoad = loadedReg i := rfl
@[simp] theorem State.noteHazards_hiLoWindow (i : Instr) : (s.noteHazards i).hiLoWindow = if readsHiLo i then .twoLeft else s.hiLoWindow.tick := rfl

/-! ### Writing a register -/

@[simp] theorem State.writeReg_hi (d : Reg) (v : Word) : (s.writeReg d v).hi = s.hi := by
  unfold State.writeReg; split <;> rfl
@[simp] theorem State.writeReg_lo (d : Reg) (v : Word) : (s.writeReg d v).lo = s.lo := by
  unfold State.writeReg; split <;> rfl
@[simp] theorem State.writeReg_pc (d : Reg) (v : Word) : (s.writeReg d v).pc = s.pc := by
  unfold State.writeReg; split <;> rfl
@[simp] theorem State.writeReg_npc (d : Reg) (v : Word) : (s.writeReg d v).npc = s.npc := by
  unfold State.writeReg; split <;> rfl
@[simp] theorem State.writeReg_mem (d : Reg) (v : Word) : (s.writeReg d v).mem = s.mem := by
  unfold State.writeReg; split <;> rfl
@[simp] theorem State.writeReg_launch (d : Reg) (v : Word) : (s.writeReg d v).launch = s.launch := by
  unfold State.writeReg; split <;> rfl
@[simp] theorem State.writeReg_run (d : Reg) (v : Word) : (s.writeReg d v).run = s.run := by
  unfold State.writeReg; split <;> rfl
@[simp] theorem State.writeReg_env (d : Reg) (v : Word) : (s.writeReg d v).env = s.env := by
  unfold State.writeReg; split <;> rfl
@[simp] theorem State.writeReg_draws (d : Reg) (v : Word) : (s.writeReg d v).draws = s.draws := by
  unfold State.writeReg; split <;> rfl
@[simp] theorem State.writeReg_lastLoad (d : Reg) (v : Word) : (s.writeReg d v).lastLoad = s.lastLoad := by
  unfold State.writeReg; split <;> rfl
@[simp] theorem State.writeReg_hiLoWindow (d : Reg) (v : Word) : (s.writeReg d v).hiLoWindow = s.hiLoWindow := by
  unfold State.writeReg; split <;> rfl

@[simp] theorem State.freeReg_hi (d : Reg) : (s.freeReg d).hi = s.hi := by simp [State.freeReg]
@[simp] theorem State.freeReg_lo (d : Reg) : (s.freeReg d).lo = s.lo := by simp [State.freeReg]
@[simp] theorem State.freeReg_pc (d : Reg) : (s.freeReg d).pc = s.pc := by simp [State.freeReg]
@[simp] theorem State.freeReg_npc (d : Reg) : (s.freeReg d).npc = s.npc := by simp [State.freeReg]
@[simp] theorem State.freeReg_mem (d : Reg) : (s.freeReg d).mem = s.mem := by simp [State.freeReg]
@[simp] theorem State.freeReg_launch (d : Reg) : (s.freeReg d).launch = s.launch := by simp [State.freeReg]
@[simp] theorem State.freeReg_run (d : Reg) : (s.freeReg d).run = s.run := by simp [State.freeReg]
@[simp] theorem State.freeReg_env (d : Reg) : (s.freeReg d).env = s.env := by simp [State.freeReg]
@[simp] theorem State.freeReg_draws (d : Reg) : (s.freeReg d).draws = s.draws + 1 := by simp [State.freeReg]
@[simp] theorem State.freeReg_lastLoad (d : Reg) : (s.freeReg d).lastLoad = s.lastLoad := by simp [State.freeReg]
@[simp] theorem State.freeReg_hiLoWindow (d : Reg) : (s.freeReg d).hiLoWindow = s.hiLoWindow := by simp [State.freeReg]

@[simp] theorem State.link_hi : s.link.hi = s.hi := by simp [State.link]
@[simp] theorem State.link_lo : s.link.lo = s.lo := by simp [State.link]
@[simp] theorem State.link_pc : s.link.pc = s.pc := by simp [State.link]
@[simp] theorem State.link_npc : s.link.npc = s.npc := by simp [State.link]
@[simp] theorem State.link_mem : s.link.mem = s.mem := by simp [State.link]
@[simp] theorem State.link_launch : s.link.launch = s.launch := by simp [State.link]
@[simp] theorem State.link_run : s.link.run = s.run := by simp [State.link]
@[simp] theorem State.link_env : s.link.env = s.env := by simp [State.link]
@[simp] theorem State.link_draws : s.link.draws = s.draws := by simp [State.link]
@[simp] theorem State.link_lastLoad : s.link.lastLoad = s.lastLoad := by simp [State.link]
@[simp] theorem State.link_hiLoWindow : s.link.hiLoWindow = s.hiLoWindow := by simp [State.link]

@[simp] theorem State.linkNotTaken_hi : s.linkNotTaken.hi = s.hi := by
  unfold State.linkNotTaken; split <;> simp
@[simp] theorem State.linkNotTaken_lo : s.linkNotTaken.lo = s.lo := by
  unfold State.linkNotTaken; split <;> simp
@[simp] theorem State.linkNotTaken_pc : s.linkNotTaken.pc = s.pc := by
  unfold State.linkNotTaken; split <;> simp
@[simp] theorem State.linkNotTaken_npc : s.linkNotTaken.npc = s.npc := by
  unfold State.linkNotTaken; split <;> simp
@[simp] theorem State.linkNotTaken_mem : s.linkNotTaken.mem = s.mem := by
  unfold State.linkNotTaken; split <;> simp
@[simp] theorem State.linkNotTaken_launch : s.linkNotTaken.launch = s.launch := by
  unfold State.linkNotTaken; split <;> simp
@[simp] theorem State.linkNotTaken_run : s.linkNotTaken.run = s.run := by
  unfold State.linkNotTaken; split <;> simp
@[simp] theorem State.linkNotTaken_env : s.linkNotTaken.env = s.env := by
  unfold State.linkNotTaken; split <;> simp
@[simp] theorem State.linkNotTaken_lastLoad : s.linkNotTaken.lastLoad = s.lastLoad := by
  unfold State.linkNotTaken; split <;> simp
@[simp] theorem State.linkNotTaken_hiLoWindow : s.linkNotTaken.hiLoWindow = s.hiLoWindow := by
  unfold State.linkNotTaken; split <;> simp

@[simp] theorem State.multHi_x (p : Int) : (s.multHi p).x = s.x := by
  unfold State.multHi; split <;> simp
@[simp] theorem State.multHi_lo (p : Int) : (s.multHi p).lo = s.lo := by
  unfold State.multHi; split <;> simp
@[simp] theorem State.multHi_pc (p : Int) : (s.multHi p).pc = s.pc := by
  unfold State.multHi; split <;> simp
@[simp] theorem State.multHi_npc (p : Int) : (s.multHi p).npc = s.npc := by
  unfold State.multHi; split <;> simp
@[simp] theorem State.multHi_mem (p : Int) : (s.multHi p).mem = s.mem := by
  unfold State.multHi; split <;> simp
@[simp] theorem State.multHi_launch (p : Int) : (s.multHi p).launch = s.launch := by
  unfold State.multHi; split <;> simp
@[simp] theorem State.multHi_run (p : Int) : (s.multHi p).run = s.run := by
  unfold State.multHi; split <;> simp
@[simp] theorem State.multHi_env (p : Int) : (s.multHi p).env = s.env := by
  unfold State.multHi; split <;> simp
@[simp] theorem State.multHi_lastLoad (p : Int) : (s.multHi p).lastLoad = s.lastLoad := by
  unfold State.multHi; split <;> simp
@[simp] theorem State.multHi_hiLoWindow (p : Int) : (s.multHi p).hiLoWindow = s.hiLoWindow := by
  unfold State.multHi; split <;> simp

/-! ### Writing a word of memory -/

@[simp] theorem State.writeWord_x (a v : Word) : (s.writeWord a v).x = s.x := rfl
@[simp] theorem State.writeWord_hi (a v : Word) : (s.writeWord a v).hi = s.hi := rfl
@[simp] theorem State.writeWord_lo (a v : Word) : (s.writeWord a v).lo = s.lo := rfl
@[simp] theorem State.writeWord_pc (a v : Word) : (s.writeWord a v).pc = s.pc := rfl
@[simp] theorem State.writeWord_npc (a v : Word) : (s.writeWord a v).npc = s.npc := rfl
@[simp] theorem State.writeWord_launch (a v : Word) : (s.writeWord a v).launch = s.launch := rfl
@[simp] theorem State.writeWord_run (a v : Word) : (s.writeWord a v).run = s.run := rfl
@[simp] theorem State.writeWord_env (a v : Word) : (s.writeWord a v).env = s.env := rfl
@[simp] theorem State.writeWord_draws (a v : Word) : (s.writeWord a v).draws = s.draws := rfl
@[simp] theorem State.writeWord_lastLoad (a v : Word) : (s.writeWord a v).lastLoad = s.lastLoad := rfl
@[simp] theorem State.writeWord_hiLoWindow (a v : Word) : (s.writeWord a v).hiLoWindow = s.hiLoWindow := rfl

/-! ### Reading a register after an update -/

@[simp] theorem State.readReg_zero : s.readReg 0#5 = 0#32 := rfl

/-- Reading after a write: the written register reads as the value, unless it is register 0 (R22); no other changes. -/
theorem State.readReg_writeReg (d i : Reg) (v : Word) :
    (s.writeReg d v).readReg i = if i = d ∧ d ≠ 0#5 then v else s.readReg i := by
  unfold State.writeReg State.readReg
  by_cases hi : i = 0#5
  · subst hi
    by_cases hd : d = 0#5
    · subst hd; simp
    · simp [Ne.symm hd]
  · by_cases hd : d = 0#5
    · subst hd; simp [hi]
    · by_cases hid : i = d
      · subst hid; simp [hi]
      · have hne : d.toNat ≠ i.toNat := fun h => hid (BitVec.eq_of_toNat_eq h.symm)
        simp [hi, hd, hid, Vector.getElem_set_ne, hne]

theorem State.readReg_writeReg_ne {d i : Reg} (h : i ≠ d) (v : Word) : (s.writeReg d v).readReg i = s.readReg i := by
  simp [State.readReg_writeReg, h]

theorem State.readReg_writeReg_same {d : Reg} (h : d ≠ 0#5) (v : Word) : (s.writeReg d v).readReg d = v := by
  simp [State.readReg_writeReg, h]

/-- Two states with the same register file read every register alike. -/
theorem State.readReg_congr {s t : State} (h : s.x = t.x) (i : Reg) : s.readReg i = t.readReg i := by
  unfold State.readReg; rw [h]

@[simp] theorem State.readReg_setHi (v : Word) (r : Reg) : (s.setHi v).readReg r = s.readReg r := rfl
@[simp] theorem State.readReg_setLo (v : Word) (r : Reg) : (s.setLo v).readReg r = s.readReg r := rfl
@[simp] theorem State.readReg_afterDraw (r : Reg) : (s.afterDraw).readReg r = s.readReg r := rfl
@[simp] theorem State.readReg_freeHi (r : Reg) : (s.freeHi).readReg r = s.readReg r := rfl
@[simp] theorem State.readReg_freeLo (r : Reg) : (s.freeLo).readReg r = s.readReg r := rfl
@[simp] theorem State.readReg_jumpTo (t : Word) (r : Reg) : (s.jumpTo t).readReg r = s.readReg r := rfl
@[simp] theorem State.readReg_advancePc (off : Word) (r : Reg) : (s.advancePc off).readReg r = s.readReg r := rfl
@[simp] theorem State.readReg_writeByte (a : Word) (v : Byte) (r : Reg) : (s.writeByte a v).readReg r = s.readReg r := rfl
@[simp] theorem State.readReg_noteHazards (i : Instr) (r : Reg) : (s.noteHazards i).readReg r = s.readReg r := rfl
@[simp] theorem State.readReg_writeWord (a v : Word) (r : Reg) : (s.writeWord a v).readReg r = s.readReg r := rfl
@[simp] theorem State.readReg_multHi (p : Int) (r : Reg) : (s.multHi p).readReg r = s.readReg r :=
  State.readReg_congr (by simp) r

/-! ### Reading memory after an update -/

/-- Two states with the same memory read every byte alike. -/
theorem State.readByte_congr {s t : State} (h : s.mem = t.mem) (a : Word) : s.readByte a = t.readByte a := by
  unfold State.readByte; rw [h]

/-- Two states with the same memory and byte order read every word alike. -/
theorem State.readWord_congr {s t : State} (h : s.mem = t.mem) (hl : s.launch = t.launch) (a : Word) :
    s.readWord a = t.readWord a := by
  unfold State.readWord; rw [hl]; simp only [State.readByte_congr h]

end Sys2Proof.Machine
end

