-- ==== Sys2Proof/Laws/Memory.lean ====
section
/-! SUPPORT. Memory: a read after a write, and the canonical form. -/

namespace Sys2Proof.Machine

/-! ### Cells -/

theorem readCells_eraseCell (cells : List Host.Cell) (a b : Nat) :
    readCells (eraseCell cells a) b = if b = a then unlistedByte else readCells cells b := by
  induction cells with
  | nil => simp [eraseCell, readCells]
  | cons c rest ih =>
    obtain ⟨k, v⟩ := c
    unfold eraseCell at ih ⊢
    by_cases hk : k = a
    · subst hk
      by_cases hb : b = k <;> simp_all [readCells]
    · by_cases hb : b = k
      · subst hb; simp [readCells, hk]
      · simp only [ne_eq, decide_not] at ih
        simp [readCells, hk, hb, ih]

theorem readCells_insertCell (cells : List Host.Cell) (a b : Nat) (v : Byte)
    (hv : ∀ c ∈ cells, c.1 ≠ a) :
    readCells (insertCell cells a v) b = if b = a then v else readCells cells b := by
  induction cells with
  | nil => simp [insertCell, readCells]
  | cons c rest ih =>
    obtain ⟨k, u⟩ := c
    have hk : k ≠ a := hv (k, u) (by simp)
    have ih := ih fun c hc => hv c (by simp [hc])
    unfold insertCell
    split
    · simp [readCells]
    · by_cases hb : b = k
      · subst hb; simp [readCells, hk]
      · simp [readCells, hb, ih]

theorem not_mem_eraseCell (cells : List Host.Cell) (a : Nat) : ∀ c ∈ eraseCell cells a, c.1 ≠ a := by
  intro c hc; simpa using (List.mem_filter.mp hc).2

/-- A read after a write: the written address reads as the value, every other as before (R41, R46). -/
theorem Memory.read_write (m : Memory) (a b : Nat) (v : Byte) :
    (m.write a v).read b = if b = a then v else m.read b := by
  unfold Memory.write Memory.read writeCells
  split
  · rename_i hv; subst hv; exact readCells_eraseCell ..
  · rw [readCells_insertCell _ _ _ _ (not_mem_eraseCell _ _), readCells_eraseCell]
    split <;> rfl

/-! ### The canonical form -/

/-- `cellsWf` as a statement about all the cells at once. -/
theorem cellsWf_iff (cells : List Host.Cell) :
    cellsWf cells = true ↔ (cells.Pairwise fun c d => c.1 < d.1) ∧ ∀ c ∈ cells, c.1 < 2 ^ 32 ∧ c.2 ≠ unlistedByte := by
  induction cells with
  | nil => simp [cellsWf]
  | cons c rest ih =>
    obtain ⟨a, v⟩ := c
    cases rest with
    | nil => simp [cellsWf]
    | cons d rest =>
      obtain ⟨b, u⟩ := d
      unfold cellsWf
      simp only [Bool.and_eq_true, decide_eq_true_eq, bne_iff_ne, ne_eq, ih, List.pairwise_cons, List.mem_cons,
        forall_eq_or_imp]
      constructor
      · rintro ⟨⟨⟨ha, hv⟩, hab⟩, ⟨hb, hp⟩, hall⟩
        exact ⟨⟨⟨hab, fun c hc => hab.trans (hb c hc)⟩, hb, hp⟩, ⟨ha, hv⟩, hall⟩
      · rintro ⟨⟨⟨hab, -⟩, hb, hp⟩, ⟨ha, hv⟩, hall⟩
        exact ⟨⟨⟨ha, hv⟩, hab⟩, ⟨hb, hp⟩, hall⟩

theorem mem_insertCell {cells : List Host.Cell} {a : Nat} {v : Byte} {c : Host.Cell} :
    c ∈ insertCell cells a v ↔ c = (a, v) ∨ c ∈ cells := by
  induction cells with
  | nil => simp [insertCell]
  | cons d rest ih =>
    obtain ⟨b, u⟩ := d
    unfold insertCell
    split
    · simp
    · simp only [List.mem_cons, ih]; tauto

theorem pairwise_insertCell {cells : List Host.Cell} {a : Nat} {v : Byte} (h : cells.Pairwise fun c d => c.1 < d.1)
    (hne : ∀ c ∈ cells, c.1 ≠ a) : (insertCell cells a v).Pairwise fun c d => c.1 < d.1 := by
  induction cells with
  | nil => simp [insertCell]
  | cons d rest ih =>
    obtain ⟨b, u⟩ := d
    rw [List.pairwise_cons] at h
    have hb : b ≠ a := hne (b, u) (by simp)
    unfold insertCell
    split
    · rename_i hlt
      refine List.pairwise_cons.mpr ⟨?_, List.pairwise_cons.mpr h⟩
      intro c hc
      rcases List.mem_cons.mp hc with rfl | hc
      · exact hlt
      · exact lt_trans hlt (h.1 c hc)
    · refine List.pairwise_cons.mpr ⟨?_, ih h.2 fun c hc => hne c (by simp [hc])⟩
      intro c hc
      rcases mem_insertCell.mp hc with rfl | hc
      · show b < a
        omega
      · exact h.1 c hc

/-- A write inside the address space keeps the canonical form. -/
theorem Memory.wf_write {m : Memory} (h : m.wf = true) {a : Nat} (ha : a < 2 ^ 32) (v : Byte) : (m.write a v).wf = true := by
  unfold Memory.wf Memory.write at *
  rw [cellsWf_iff] at h ⊢
  have hp := h.1.filter (fun c => decide (c.1 ≠ a))
  have hall : ∀ c ∈ eraseCell m.cells a, c.1 < 2 ^ 32 ∧ c.2 ≠ unlistedByte := fun c hc => h.2 c (List.mem_of_mem_filter hc)
  unfold writeCells
  split
  · exact ⟨hp, hall⟩
  · rename_i hv
    refine ⟨pairwise_insertCell hp (not_mem_eraseCell _ _), fun c hc => ?_⟩
    rcases mem_insertCell.mp hc with rfl | hc
    · exact ⟨ha, hv⟩
    · exact hall c hc

/-- The memory of `State.reset` has the canonical form. -/
theorem reset_mem_wf : State.reset.mem.wf = true := rfl

/-! ### Bytes and words of the state -/

variable (s : State)

theorem State.readByte_writeByte (a b : Word) (v : Byte) :
    (s.writeByte a v).readByte b = if b = a then v else s.readByte b := by
  unfold State.readByte State.writeByte
  rw [Memory.read_write]
  simp only [BitVec.toNat_inj]

theorem State.wf_writeByte {s : State} (h : s.mem.wf = true) (a : Word) (v : Byte) : (s.writeByte a v).mem.wf = true :=
  Memory.wf_write h a.isLt v

theorem State.wf_writeWord {s : State} (h : s.mem.wf = true) (a v : Word) : (s.writeWord a v).mem.wf = true :=
  State.wf_writeByte (State.wf_writeByte (State.wf_writeByte (State.wf_writeByte h _ _) _ _) _ _) _ _

/-- A byte after a word has been written: one of the four bytes of the word, or the byte before. -/
theorem State.readByte_writeWord (a b v : Word) :
    (s.writeWord a v).readByte b =
      if b = a + 3#32 then byteOfWord s.launch.byteOrder v 3
      else if b = a + 2#32 then byteOfWord s.launch.byteOrder v 2
      else if b = a + 1#32 then byteOfWord s.launch.byteOrder v 1
      else if b = a then byteOfWord s.launch.byteOrder v 0
      else s.readByte b := by
  unfold State.writeWord
  simp only [State.readByte_writeByte]

/-- Bytes outside the four of the access keep their values (R46). -/
theorem State.readByte_writeWord_ne {a b : Word} (v : Word) (h : ∀ k < 4, b ≠ a + BitVec.ofNat 32 k) :
    (s.writeWord a v).readByte b = s.readByte b := by
  have h0 := h 0 (by omega); have h1 := h 1 (by omega); have h2 := h 2 (by omega); have h3 := h 3 (by omega)
  simp only [BitVec.add_zero] at h0 h1 h2 h3
  rw [State.readByte_writeWord]
  simp [h0, h1, h2, h3]

/-- The byte of the word at offset `k`. -/
theorem State.readByte_writeWord_at (a v : Word) {k : Nat} (h : k < 4) :
    (s.writeWord a v).readByte (a + BitVec.ofNat 32 k) = byteOfWord s.launch.byteOrder v k := by
  rw [State.readByte_writeWord]
  interval_cases k <;> simp

/-- The four bytes of a word, assembled in the order they were taken apart, are the word. -/
theorem wordOfBytes_byteOfWord (o : ByteOrder) (v : Word) :
    wordOfBytes o (byteOfWord o v 0) (byteOfWord o v 1) (byteOfWord o v 2) (byteOfWord o v 3) = v := by
  cases o <;>
  · apply BitVec.eq_of_getLsbD_eq
    intro i hi
    simp only [wordOfBytes, byteOfWord, BitVec.getLsbD_append, BitVec.getLsbD_extractLsb']
    interval_cases i <;> simp

/-- A word is read back as written, under either byte order (R42). -/
theorem State.readWord_writeWord (a v : Word) : (s.writeWord a v).readWord a = v := by
  unfold State.readWord
  have h0 := s.readByte_writeWord_at a v (k := 0) (by omega)
  have h1 := s.readByte_writeWord_at a v (k := 1) (by omega)
  have h2 := s.readByte_writeWord_at a v (k := 2) (by omega)
  have h3 := s.readByte_writeWord_at a v (k := 3) (by omega)
  simp only [BitVec.add_zero] at h0 h1 h2 h3
  rw [h0, h1, h2, h3, State.writeWord_launch, wordOfBytes_byteOfWord]

end Sys2Proof.Machine
end

