-- ==== Sys2Proof/Laws/Ops.lean ====
section
/-! SUPPORT. What each shared operation can do, said once. Provers cite these instead of unfolding the operations. -/

namespace Sys2Proof.Machine

variable {s s' : State}

/-! ### The bytes of an access -/

theorem accessBytes_one (a : Word) : accessBytes a 1 = [a.toNat] := by
  simp [accessBytes, Nat.mod_eq_of_lt a.isLt]

/-- An aligned word does not wrap around the address space (R41). -/
theorem toNat_add_of_aligned {a : Word} (h : a.toNat % 4 = 0) {k : Nat} (hk : k < 4) :
    (a + BitVec.ofNat 32 k).toNat = a.toNat + k := by
  have := a.isLt
  simp only [BitVec.toNat_add, BitVec.toNat_ofNat]; omega

theorem mem_accessBytes_of_aligned {a : Word} (h : a.toNat % 4 = 0) {b : Nat} :
    b ∈ accessBytes a 4 ↔ ∃ k < 4, b = a.toNat + k := by
  simp only [accessBytes, List.mem_map, List.mem_range]
  constructor
  · rintro ⟨k, hk, rfl⟩; exact ⟨k, hk, toNat_add_of_aligned h hk⟩
  · rintro ⟨k, hk, rfl⟩; exact ⟨k, hk, toNat_add_of_aligned h hk⟩

theorem allMapped_of_aligned {l : Launch} {a : Word} (h : a.toNat % 4 = 0) :
    allMapped l a 4 = true ↔ ∀ k < 4, inMapped l (a.toNat + k) = true := by
  simp only [allMapped, List.all_eq_true, mem_accessBytes_of_aligned h]
  exact ⟨fun H k hk => H _ ⟨k, hk, rfl⟩, fun H _ ⟨k, hk, e⟩ => e ▸ H k hk⟩

theorem allInCode_of_aligned {l : Launch} {a : Word} (h : a.toNat % 4 = 0) :
    allInCode l a 4 = true ↔ ∀ k < 4, inCode l (a.toNat + k) = true := by
  simp only [allInCode, List.all_eq_true, mem_accessBytes_of_aligned h]
  exact ⟨fun H k hk => H _ ⟨k, hk, rfl⟩, fun H _ ⟨k, hk, e⟩ => e ▸ H k hk⟩

theorem someInCode_of_aligned {l : Launch} {a : Word} (h : a.toNat % 4 = 0) :
    someInCode l a 4 = true ↔ ∃ k < 4, inCode l (a.toNat + k) = true := by
  simp only [someInCode, List.any_eq_true, mem_accessBytes_of_aligned h]
  exact ⟨fun ⟨_, ⟨k, hk, e⟩, hb⟩ => ⟨k, hk, e ▸ hb⟩, fun ⟨k, hk, hb⟩ => ⟨_, ⟨k, hk, rfl⟩, hb⟩⟩

/-! ### Outcomes without a next state -/

@[simp] theorem raise_eq (k : Word → Word → Fault) (s : State) : raise k s = .fault (k s.pc s.npc) := rfl

@[simp] theorem refuse_eq (k : Word → Refusal) (s : State) : refuse k s = .refused (k s.pc) := rfl

/-! ### Alignment and addresses -/

theorem aligned4_iff (a : Word) : aligned4 a = true ↔ a.toNat % 4 = 0 := by
  have h : (a.extractLsb' 0 2).toNat = a.toNat % 4 := by simp [BitVec.extractLsb'_toNat]
  rw [aligned4, beq_iff_eq, ← BitVec.toNat_inj, h]; simp

/-- Sign extension is the integer of the field, wrapped (R64, R67, R68). -/
theorem signExtend_eq_ofInt (imm : Imm) : imm.signExtend 32 = BitVec.ofInt 32 imm.toInt := by
  simp [BitVec.signExtend]

/-- What a taken branch adds is four times the field (R67). -/
theorem branchOffset_eq (imm : Imm) : branchOffset imm = BitVec.ofInt 32 (4 * imm.toInt) := by
  rw [branchOffset, signExtend_eq_ofInt, BitVec.shiftLeft_eq_mul_twoPow, BitVec.ofInt_mul, BitVec.mul_comm]; rfl

/-! ### Register results -/

@[simp] theorem advance_eq (s : State) : advance s = .next (s.advancePc 4#32) := rfl

@[simp] theorem setReg_eq (s : State) (d : Reg) (v : Word) : setReg s d v = .next ((s.writeReg d v).advancePc 4#32) := rfl

/-- Writing a register and advancing is all that a register-result instruction does. -/
theorem onlyReg_setReg (s : State) (d : Reg) (v : Word) : OnlyReg s ((s.writeReg d v).advancePc 4#32) d v := by
  refine ⟨fun r => ?_, ⟨by simp, by simp⟩, fun a => State.readByte_congr (by simp) a, ⟨by simp, by simp, by simp, by simp, by simp⟩, by simp⟩
  simp [State.readReg_writeReg]

theorem advanced_setReg (s : State) (d : Reg) (v : Word) : Advanced s ((s.writeReg d v).advancePc 4#32) 4#32 :=
  ⟨by simp, by simp⟩

/-- An instruction whose meaning is `setReg` completes with that result. -/
theorem completesReg_of_setReg {i : Instr} {d : Reg} {v : Word} (h : exec i s = setReg s d v) : CompletesReg i s d v :=
  ⟨_, h, onlyReg_setReg s d v, advanced_setReg s d v⟩

theorem setRegTrapping_of_not {o : Bool} (h : o = false) (s : State) (d : Reg) (v : Word) :
    setRegTrapping s o d v = setReg s d v := by simp [setRegTrapping, h]

theorem setRegTrapping_of {o : Bool} (h : o = true) (s : State) (d : Reg) (v : Word) :
    setRegTrapping s o d v = .fault (.overflow s.pc s.npc) := by simp [setRegTrapping, h]

theorem setRegTrapping_next {o : Bool} {d : Reg} {v : Word} (h : setRegTrapping s o d v = .next s') :
    o = false ∧ s' = (s.writeReg d v).advancePc 4#32 := by
  unfold setRegTrapping at h
  split at h
  · simp at h
  · simp only [setReg_eq, Host.Outcome.next.injEq] at h; simp_all

/-! ### Control transfers -/

theorem transfer_next {t : State} (h : transfer s t = .next s') : s.npc = s.pc + 4#32 ∧ s' = t := by
  unfold transfer at h
  split at h
  · simp only [Host.Outcome.next.injEq] at h; exact ⟨‹_›, h.symm⟩
  · simp at h

theorem transfer_of_eq {t : State} (h : s.npc = s.pc + 4#32) : transfer s t = .next t := by simp [transfer, h]

theorem transfer_of_ne {t : State} (h : s.npc ≠ s.pc + 4#32) : transfer s t = .refused (.ctiInDelaySlot s.pc) := by
  simp [transfer, h]

theorem branch_next {taken : Bool} {imm : Imm} (h : branch s taken imm = .next s') :
    s.npc = s.pc + 4#32 ∧ s' = s.advancePc (if taken then branchOffset imm else 4#32) := transfer_next h

theorem branchAndLink_next {taken : Bool} {imm : Imm} (h : branchAndLink s taken imm = .next s') :
    s.npc = s.pc + 4#32 ∧
      s' = if taken then s.link.advancePc (branchOffset imm) else s.linkNotTaken.advancePc 4#32 := transfer_next h

/-- Registers other than 31 after a link. -/
theorem State.readReg_link_ne (s : State) {r : Reg} (h : r ≠ 31#5) : s.link.readReg r = s.readReg r :=
  State.readReg_writeReg_ne s h _

theorem State.readReg_link (s : State) : s.link.readReg 31#5 = s.pc + 8#32 :=
  State.readReg_writeReg_same s (by decide) _

/-- Registers other than 31 after a linking branch that is not taken, whatever LINK_NOT_TAKEN is. -/
theorem State.readReg_linkNotTaken_ne (s : State) {r : Reg} (h : r ≠ 31#5) : s.linkNotTaken.readReg r = s.readReg r := by
  unfold State.linkNotTaken
  split
  · exact State.readReg_writeReg_ne _ h _
  · rfl
  · exact s.readReg_link_ne h

/-! ### Multiply and divide -/

theorem setQuotient_eq (s : State) (u : Bool) (q r : Word) :
    setQuotient s u q r = .next ((if u then s.freeLo.freeHi else (s.setLo q).setHi r).advancePc 4#32) := rfl

theorem setProduct_eq (s : State) (p : Int) :
    setProduct s p = .next (((s.setLo (productLow p)).multHi p).advancePc 4#32) := rfl

/-! ### Loads and stores -/

theorem loadByte_next {ea : Word} {use : Byte → Result} (h : loadByte s ea use = .next s') :
    allMapped s.launch ea 1 = true ∧ use (s.readByte ea) = .next s' := by
  unfold loadByte at h
  split at h
  · exact ⟨‹_›, h⟩
  · simp at h

theorem loadWord_next {ea : Word} {use : Word → Result} (h : loadWord s ea use = .next s') :
    aligned4 ea = true ∧ allMapped s.launch ea 4 = true ∧ use (s.readWord ea) = .next s' := by
  unfold loadWord at h
  split at h
  · split at h
    · exact ⟨‹_›, ‹_›, h⟩
    · simp at h
  · simp at h

theorem storeChecks_next {ea : Word} {n : Nat} {go : Result} (h : storeChecks s ea n go = .next s') :
    allMapped s.launch ea n = true ∧ someInCode s.launch ea n = false ∧ go = .next s' := by
  unfold storeChecks at h
  split at h
  · split at h
    · simp at h
    · rename_i hm hc; exact ⟨hm, by simpa using hc, h⟩
  · simp at h

theorem storeByte_next {ea : Word} {v : Byte} (h : storeByte s ea v = .next s') :
    allMapped s.launch ea 1 = true ∧ someInCode s.launch ea 1 = false ∧ s' = (s.writeByte ea v).advancePc 4#32 := by
  obtain ⟨hm, hc, h⟩ := storeChecks_next h
  simp only [advance_eq, Host.Outcome.next.injEq] at h
  exact ⟨hm, hc, h.symm⟩

theorem storeWord_next {ea v : Word} (h : storeWord s ea v = .next s') :
    aligned4 ea = true ∧ allMapped s.launch ea 4 = true ∧ someInCode s.launch ea 4 = false ∧
      s' = (s.writeWord ea v).advancePc 4#32 := by
  unfold storeWord at h
  split at h
  · obtain ⟨hm, hc, h⟩ := storeChecks_next h
    simp only [advance_eq, Host.Outcome.next.injEq] at h
    exact ⟨‹_›, hm, hc, h.symm⟩
  · simp at h

/-- A byte that a store changes is one of its own bytes, so it is not in CODE when the store is not refused (R53). -/
theorem readByte_writeByte_code {l : Launch} {ea a : Word} {v : Byte} (hc : someInCode l ea 1 = false)
    (ha : inCode l a.toNat = true) (s : State) : (s.writeByte ea v).readByte a = s.readByte a := by
  rw [State.readByte_writeByte, if_neg]
  rintro rfl
  have : inCode l a.toNat = false := by simpa [someInCode, accessBytes, Nat.mod_eq_of_lt a.isLt] using hc
  exact Bool.false_ne_true (this.symm.trans ha)

theorem readByte_writeWord_code {l : Launch} {ea a v : Word} (hc : someInCode l ea 4 = false)
    (ha : inCode l a.toNat = true) (s : State) : (s.writeWord ea v).readByte a = s.readByte a := by
  refine State.readByte_writeWord_ne s v fun k hk hne => ?_
  subst hne
  have : ∀ k < 4, inCode l (ea + BitVec.ofNat 32 k).toNat = false := by
    simpa [someInCode, accessBytes, List.any_eq_false] using hc
  exact Bool.false_ne_true ((this k hk).symm.trans ha)

/-! ### The environment -/

/-- What one register write keeps, a list of them keeps. -/
theorem State.writeRegs_induction {P : State → Prop} (values : List (Reg × Word)) (h : P s)
    (hreg : ∀ t d v, P t → P (t.writeReg d v)) : P (s.writeRegs values) := by
  unfold State.writeRegs
  induction values generalizing s with
  | nil => exact h
  | cons w rest ih => exact ih (hreg s w.1 w.2 h)

/-- What one byte write keeps, a list of them keeps. -/
theorem State.writeBytes_induction {P : State → Prop} (values : List (Word × Byte)) (h : P s)
    (hmem : ∀ t, ∀ c ∈ values, P t → P (t.writeByte c.1 c.2)) : P (s.writeBytes values) := by
  unfold State.writeBytes
  induction values generalizing s with
  | nil => exact h
  | cons w rest ih => exact ih (hmem s w (by simp) h) fun t c hc => hmem t c (by simp [hc])

/-- A register that the list does not name reads as before. -/
theorem State.readReg_writeRegs_ne (s : State) {values : List (Reg × Word)} {d : Reg} (h : ∀ w ∈ values, w.1 ≠ d) :
    (s.writeRegs values).readReg d = s.readReg d := by
  unfold State.writeRegs
  induction values generalizing s with
  | nil => rfl
  | cons w rest ih =>
    rw [List.foldl_cons, ih _ fun w hw => h w (by simp [hw])]
    exact State.readReg_writeReg_ne _ (h w (by simp)).symm _

/-- A register other than 0 reads as the last value the list gives it. -/
theorem State.readReg_writeRegs_last (s : State) {pre post : List (Reg × Word)} {d : Reg} (v : Word) (hd : d ≠ 0#5)
    (h : ∀ w ∈ post, w.1 ≠ d) : (s.writeRegs (pre ++ (d, v) :: post)).readReg d = v := by
  have e : s.writeRegs (pre ++ (d, v) :: post) = ((s.writeRegs pre).writeReg d v).writeRegs post := by
    simp [State.writeRegs]
  rw [e, State.readReg_writeRegs_ne _ h, State.readReg_writeReg_same _ hd]

/-- A byte that the list does not name reads as before. -/
theorem State.readByte_writeBytes_ne (s : State) {values : List (Word × Byte)} {a : Word} (h : ∀ c ∈ values, c.1 ≠ a) :
    (s.writeBytes values).readByte a = s.readByte a := by
  unfold State.writeBytes
  induction values generalizing s with
  | nil => rfl
  | cons w rest ih =>
    rw [List.foldl_cons, ih _ fun w hw => h w (by simp [hw]), State.readByte_writeByte, if_neg (h w (by simp)).symm]

/-- A byte reads as the last value the list gives it. -/
theorem State.readByte_writeBytes_last (s : State) {pre post : List (Word × Byte)} {a : Word} (v : Byte)
    (h : ∀ c ∈ post, c.1 ≠ a) : (s.writeBytes (pre ++ (a, v) :: post)).readByte a = v := by
  have e : s.writeBytes (pre ++ (a, v) :: post) = ((s.writeBytes pre).writeByte a v).writeBytes post := by
    simp [State.writeBytes]
  rw [e, State.readByte_writeBytes_ne _ h, State.readByte_writeByte, if_pos rfl]

/-- Register writes change only the register file. -/
theorem State.writeRegs_keeps (s : State) (values : List (Reg × Word)) : ∃ x, s.writeRegs values = { s with x := x } := by
  refine State.writeRegs_induction (P := fun t => ∃ x, t = { s with x := x }) values ⟨s.x, rfl⟩ ?_
  rintro t d v ⟨x, rfl⟩
  unfold State.writeReg
  split
  · exact ⟨x, rfl⟩
  · exact ⟨_, rfl⟩

/-- Byte writes change only memory. -/
theorem State.writeBytes_keeps (s : State) (values : List (Word × Byte)) : ∃ m, s.writeBytes values = { s with mem := m } := by
  refine State.writeBytes_induction (P := fun t => ∃ m, t = { s with mem := m }) values ⟨s.mem, rfl⟩ ?_
  rintro t c - ⟨m, rfl⟩
  exact ⟨_, rfl⟩

/-- The registers, `hi`, `lo` and memory of a reply, one write at a time: what a chain of writes keeps, a reply keeps. -/
theorem State.applyReply_induction {P : State → Prop} (r : EnvReply) (h : P s)
    (hreg : ∀ t d v, P t → P (t.writeReg d v)) (hhi : ∀ t v, P t → P (t.setHi v)) (hlo : ∀ t v, P t → P (t.setLo v))
    (hmem : ∀ t, ∀ c ∈ r.mem, P t → P (t.writeByte c.1 c.2)) : P (s.applyReply r) :=
  State.writeBytes_induction r.mem (hlo _ _ (hhi _ _ (State.writeRegs_induction r.regs h hreg))) hmem

/-- The registers of a reply are those of its list of registers. -/
theorem State.readReg_applyReply (s : State) (r : EnvReply) (d : Reg) :
    (s.applyReply r).readReg d = (s.writeRegs r.regs).readReg d := by
  obtain ⟨m, hm⟩ := State.writeBytes_keeps (((s.writeRegs r.regs).setHi (r.hi.getD s.hi)).setLo (r.lo.getD s.lo)) r.mem
  rw [State.applyReply, hm]; rfl

/-- The bytes of a reply are those of its list of bytes. -/
theorem State.readByte_applyReply (s : State) (r : EnvReply) (a : Word) :
    (s.applyReply r).readByte a = (s.writeBytes r.mem).readByte a := by
  have key : ∀ (values : List (Word × Byte)) (t u : State), t.mem = u.mem →
      (t.writeBytes values).readByte a = (u.writeBytes values).readByte a := by
    intro values
    unfold State.writeBytes
    induction values with
    | nil => exact fun t u h => State.readByte_congr h a
    | cons w rest ih => exact fun t u h => ih _ _ (by simp [h])
  refine key _ _ _ ?_
  obtain ⟨x, hx⟩ := State.writeRegs_keeps s r.regs
  rw [hx]; rfl

@[simp] theorem State.applyReply_hi (s : State) (r : EnvReply) : (s.applyReply r).hi = r.hi.getD s.hi := by
  obtain ⟨m, hm⟩ := State.writeBytes_keeps (((s.writeRegs r.regs).setHi (r.hi.getD s.hi)).setLo (r.lo.getD s.lo)) r.mem
  rw [State.applyReply, hm]; rfl

@[simp] theorem State.applyReply_lo (s : State) (r : EnvReply) : (s.applyReply r).lo = r.lo.getD s.lo := by
  obtain ⟨m, hm⟩ := State.writeBytes_keeps (((s.writeRegs r.regs).setHi (r.hi.getD s.hi)).setLo (r.lo.getD s.lo)) r.mem
  rw [State.applyReply, hm]; rfl

/-- A reply leaves the counters, the launch and the bookkeeping alone (R209). -/
theorem State.applyReply_keeps (s : State) (r : EnvReply) :
    (s.applyReply r).pc = s.pc ∧ (s.applyReply r).npc = s.npc ∧ KeepsControl s (s.applyReply r) ∧ (s.applyReply r).draws = s.draws :=
  State.applyReply_induction (P := fun t => t.pc = s.pc ∧ t.npc = s.npc ∧ KeepsControl s t ∧ t.draws = s.draws) r
    ⟨rfl, rfl, ⟨rfl, rfl, rfl, rfl, rfl⟩, rfl⟩
    (fun t d v h => by simpa [KeepsControl] using h) (fun t v h => by simpa [KeepsControl] using h)
    (fun t v h => by simpa [KeepsControl] using h) (fun t c _ h => by simpa [KeepsControl] using h)

/-- An allowed reply changes no byte of CODE. -/
theorem State.readByte_applyReply_code {r : EnvReply} (hr : replyAllowed s.launch r = true) {a : Word}
    (ha : inCode s.launch a.toNat = true) : (s.applyReply r).readByte a = s.readByte a := by
  refine State.applyReply_induction (P := fun t => t.readByte a = s.readByte a) r rfl ?_ ?_ ?_ ?_
  · intro t d v h; rw [← h]; exact State.readByte_congr (by simp) a
  · intro t v h; exact h
  · intro t v h; exact h
  · intro t c hc h
    have : a ≠ c.1 := by
      rintro rfl
      have := (List.all_eq_true.mp hr) c hc
      simp [ha] at this
    rw [State.readByte_writeByte, if_neg this, h]

/-- What a resuming step starts from: the state itself while the run goes on, else the state after the next reply. -/
theorem State.resume_ok (h : s.resume = .ok s') :
    (s.run = .running ∧ s' = s) ∨
      ∃ r rest, s.run = .envCall ∧ s.env = r :: rest ∧ replyAllowed s.launch r = true ∧
        s' = { s.applyReply r with run := .running, env := rest } := by
  unfold State.resume at h
  split at h
  · simp only [Except.ok.injEq] at h; exact .inl ⟨‹_›, h.symm⟩
  · simp at h
  · split at h
    · simp only [Except.ok.injEq] at h; exact .inr ⟨_, _, ‹_›, ‹_›, ‹_›, h.symm⟩
    · simp at h

@[simp] theorem State.resume_of_running (h : s.run = .running) : s.resume = .ok s := by simp [State.resume, h]

/-- A resumed state has the same counters and launch, and the same bytes of CODE. -/
theorem State.resume_keeps (h : s.resume = .ok s') : s'.pc = s.pc ∧ s'.npc = s.npc ∧ s'.launch = s.launch ∧
    ∀ a : Word, inCode s.launch a.toNat = true → s'.readByte a = s.readByte a := by
  rcases State.resume_ok h with ⟨_, rfl⟩ | ⟨r, rest, -, -, hr, rfl⟩
  · exact ⟨rfl, rfl, rfl, fun _ _ => rfl⟩
  · have hk := State.applyReply_keeps s r
    exact ⟨hk.1, hk.2.1, hk.2.2.1.1, fun a ha => State.readByte_applyReply_code hr ha⟩

/-! ### The cycle -/

theorem fetch_next {use : Word → Result} (h : fetch s use = .next s') :
    aligned4 s.pc = true ∧ allInCode s.launch s.pc 4 = true ∧ use (s.readWord s.pc) = .next s' := by
  unfold fetch at h
  split at h
  · split at h
    · exact ⟨‹_›, ‹_›, h⟩
    · simp at h
  · simp at h

theorem noted_next {i : Instr} {o : Result} (h : noted i o = .next s') : ∃ t, o = .next t ∧ s' = t.noteHazards i := by
  cases o <;> simp_all [noted]

theorem runInstr_next {i : Instr} (h : runInstr i s = .next s') :
    hazardCheck i s = none ∧ ∃ t, exec i s = .next t ∧ s' = t.noteHazards i := by
  unfold runInstr at h
  split at h
  · simp at h
  · exact ⟨‹_›, noted_next h⟩

theorem runWord_next {w : Word} (h : runWord w s = .next s') : ∃ i, decode w = .ok i ∧ runInstr i s = .next s' := by
  unfold runWord at h
  split at h
  · exact ⟨_, ‹_›, h⟩
  · simp at h

/-- A placed word is what the next fetch reads (entry 18). -/
theorem readWord_placeAtPc (s : State) (w : Word) : (placeAtPc s w).readWord s.pc = w := by
  have hm : (placeAtPc s w).mem = (s.writeWord s.pc w).mem := rfl
  have ho : (placeAtPc s w).launch.byteOrder = (s.writeWord s.pc w).launch.byteOrder := by
    have : (placeAtPc s w).launch = addCode s.launch s.pc := rfl
    rw [this, addCode, State.writeWord_launch]; split <;> rfl
  have : (placeAtPc s w).readWord s.pc = (s.writeWord s.pc w).readWord s.pc := by
    unfold State.readWord; rw [ho]; simp only [State.readByte_congr hm]
  rw [this, State.readWord_writeWord]

theorem allInCode_addCode (l : Launch) {a : Word} (h : a.toNat % 4 = 0) : allInCode (addCode l a) a 4 = true := by
  unfold addCode
  split
  · assumption
  · rw [allInCode_of_aligned h]
    intro k hk; simp [inCode, regionHas]; right; omega

/-- Everything a step that answers a next state has done: it resumed if need be, fetched from CODE, decoded, passed the optional
checks, executed, and noted what the next checks need. -/
theorem step_next (h : step s = .next s') :
    ∃ t i u, s.resume = .ok t ∧ aligned4 t.pc = true ∧ allInCode t.launch t.pc 4 = true ∧
      decode (t.readWord t.pc) = .ok i ∧ hazardCheck i t = none ∧ exec i t = .next u ∧ s' = u.noteHazards i := by
  unfold step at h
  split at h
  · simp at h
  · rename_i t ht
    obtain ⟨ha, hc, h⟩ := fetch_next h
    obtain ⟨i, hi, h⟩ := runWord_next h
    obtain ⟨hz, u, hu, rfl⟩ := runInstr_next h
    exact ⟨t, i, u, ht, ha, hc, hi, hz, hu, rfl⟩

end Sys2Proof.Machine
end

