-- ==== Sys2Proof/Laws/PerInstr.lean ====
section
/-! SUPPORT. Laws stated for each instruction. -/

namespace Sys2Proof.Laws.MapRow

/-- The encoded word has the `match` bits of its row of R72 under the row's `mask` (R63). -/
def Statement (i : Instr) : Prop := encode i &&& i.mapMask = i.mapMatch

/-- An R layout word under a mask given field by field. -/
theorem of_rWord {rs rt rd : Reg} {h : Shamt} {f : BitVec 6} {m v : Word} {o : BitVec 6} {a b c : Reg} {d : Shamt} {e : BitVec 6}
    (hm : m = o ++ a ++ b ++ c ++ d ++ e) (hv : rWord (rs &&& a) (rt &&& b) (rd &&& c) (h &&& d) (f &&& e) = v) :
    rWord rs rt rd h f &&& m = v := by
  rw [hm, rWord_and]; exact hv

/-- An I layout word under a mask given field by field. -/
theorem of_iWord {op : BitVec 6} {rs rt : Reg} {imm : Imm} {m v : Word} {o : BitVec 6} {a b : Reg} {c : Imm}
    (hm : m = iWord o a b c) (hv : iWord (op &&& o) (rs &&& a) (rt &&& b) (imm &&& c) = v) :
    iWord op rs rt imm &&& m = v := by
  rw [hm, iWord_and]; exact hv

/-- A J layout word under a mask given field by field. -/
theorem of_jWord {op : BitVec 6} {target : Target} {m v : Word} {o : BitVec 6} {t : Target}
    (hm : m = jWord o t) (hv : jWord (op &&& o) (target &&& t) = v) : jWord op target &&& m = v := by
  rw [hm, jWord_and]; exact hv

theorem add (rs : Reg) (rt : Reg) (rd : Reg) : Statement (.add rs rt rd) :=
  of_rWord (o := 63#6) (a := 0#5) (b := 0#5) (c := 0#5) (d := 31#5) (e := 63#6) rfl (by simp; rfl)

theorem addi (rs : Reg) (rt : Reg) (imm : Imm) : Statement (.addi rs rt imm) :=
  of_iWord (o := 63#6) (a := 0#5) (b := 0#5) (c := 0#16) rfl (by simp; rfl)

theorem addiu (rs : Reg) (rt : Reg) (imm : Imm) : Statement (.addiu rs rt imm) :=
  of_iWord (o := 63#6) (a := 0#5) (b := 0#5) (c := 0#16) rfl (by simp; rfl)

theorem addu (rs : Reg) (rt : Reg) (rd : Reg) : Statement (.addu rs rt rd) :=
  of_rWord (o := 63#6) (a := 0#5) (b := 0#5) (c := 0#5) (d := 31#5) (e := 63#6) rfl (by simp; rfl)

theorem and (rs : Reg) (rt : Reg) (rd : Reg) : Statement (.and rs rt rd) :=
  of_rWord (o := 63#6) (a := 0#5) (b := 0#5) (c := 0#5) (d := 31#5) (e := 63#6) rfl (by simp; rfl)

theorem andi (rs : Reg) (rt : Reg) (imm : Imm) : Statement (.andi rs rt imm) :=
  of_iWord (o := 63#6) (a := 0#5) (b := 0#5) (c := 0#16) rfl (by simp; rfl)

theorem beq (rs : Reg) (rt : Reg) (imm : Imm) : Statement (.beq rs rt imm) :=
  of_iWord (o := 63#6) (a := 0#5) (b := 0#5) (c := 0#16) rfl (by simp; rfl)

theorem bgez (rs : Reg) (imm : Imm) : Statement (.bgez rs imm) :=
  of_iWord (o := 63#6) (a := 0#5) (b := 31#5) (c := 0#16) rfl (by simp; rfl)

theorem bgezal (rs : Reg) (imm : Imm) : Statement (.bgezal rs imm) :=
  of_iWord (o := 63#6) (a := 0#5) (b := 31#5) (c := 0#16) rfl (by simp; rfl)

theorem bgtz (rs : Reg) (imm : Imm) : Statement (.bgtz rs imm) :=
  of_iWord (o := 63#6) (a := 0#5) (b := 31#5) (c := 0#16) rfl (by simp; rfl)

theorem blez (rs : Reg) (imm : Imm) : Statement (.blez rs imm) :=
  of_iWord (o := 63#6) (a := 0#5) (b := 31#5) (c := 0#16) rfl (by simp; rfl)

theorem bltz (rs : Reg) (imm : Imm) : Statement (.bltz rs imm) :=
  of_iWord (o := 63#6) (a := 0#5) (b := 31#5) (c := 0#16) rfl (by simp; rfl)

theorem bltzal (rs : Reg) (imm : Imm) : Statement (.bltzal rs imm) :=
  of_iWord (o := 63#6) (a := 0#5) (b := 31#5) (c := 0#16) rfl (by simp; rfl)

theorem bne (rs : Reg) (rt : Reg) (imm : Imm) : Statement (.bne rs rt imm) :=
  of_iWord (o := 63#6) (a := 0#5) (b := 0#5) (c := 0#16) rfl (by simp; rfl)

theorem div (rs : Reg) (rt : Reg) : Statement (.div rs rt) :=
  of_rWord (o := 63#6) (a := 0#5) (b := 0#5) (c := 31#5) (d := 31#5) (e := 63#6) rfl (by simp; rfl)

theorem divu (rs : Reg) (rt : Reg) : Statement (.divu rs rt) :=
  of_rWord (o := 63#6) (a := 0#5) (b := 0#5) (c := 31#5) (d := 31#5) (e := 63#6) rfl (by simp; rfl)

theorem j (target : Target) : Statement (.j target) :=
  of_jWord (o := 63#6) (t := 0#26) rfl (by simp; rfl)

theorem jal (target : Target) : Statement (.jal target) :=
  of_jWord (o := 63#6) (t := 0#26) rfl (by simp; rfl)

theorem jr (rs : Reg) : Statement (.jr rs) :=
  of_rWord (o := 63#6) (a := 0#5) (b := 31#5) (c := 31#5) (d := 31#5) (e := 63#6) rfl (by simp; rfl)

theorem lb (rs : Reg) (rt : Reg) (imm : Imm) : Statement (.lb rs rt imm) :=
  of_iWord (o := 63#6) (a := 0#5) (b := 0#5) (c := 0#16) rfl (by simp; rfl)

theorem lui (rt : Reg) (imm : Imm) : Statement (.lui rt imm) :=
  of_iWord (o := 63#6) (a := 0#5) (b := 0#5) (c := 0#16) rfl (by simp; rfl)

theorem lw (rs : Reg) (rt : Reg) (imm : Imm) : Statement (.lw rs rt imm) :=
  of_iWord (o := 63#6) (a := 0#5) (b := 0#5) (c := 0#16) rfl (by simp; rfl)

theorem mfhi (rd : Reg) : Statement (.mfhi rd) :=
  of_rWord (o := 63#6) (a := 31#5) (b := 31#5) (c := 0#5) (d := 31#5) (e := 63#6) rfl (by simp; rfl)

theorem mflo (rd : Reg) : Statement (.mflo rd) :=
  of_rWord (o := 63#6) (a := 31#5) (b := 31#5) (c := 0#5) (d := 31#5) (e := 63#6) rfl (by simp; rfl)

theorem mult (rs : Reg) (rt : Reg) : Statement (.mult rs rt) :=
  of_rWord (o := 63#6) (a := 0#5) (b := 0#5) (c := 31#5) (d := 31#5) (e := 63#6) rfl (by simp; rfl)

theorem multu (rs : Reg) (rt : Reg) : Statement (.multu rs rt) :=
  of_rWord (o := 63#6) (a := 0#5) (b := 0#5) (c := 31#5) (d := 31#5) (e := 63#6) rfl (by simp; rfl)

theorem noop : Statement .noop :=
  rfl

theorem or (rs : Reg) (rt : Reg) (rd : Reg) : Statement (.or rs rt rd) :=
  of_rWord (o := 63#6) (a := 0#5) (b := 0#5) (c := 0#5) (d := 31#5) (e := 63#6) rfl (by simp; rfl)

theorem ori (rs : Reg) (rt : Reg) (imm : Imm) : Statement (.ori rs rt imm) :=
  of_iWord (o := 63#6) (a := 0#5) (b := 0#5) (c := 0#16) rfl (by simp; rfl)

theorem sb (rs : Reg) (rt : Reg) (imm : Imm) : Statement (.sb rs rt imm) :=
  of_iWord (o := 63#6) (a := 0#5) (b := 0#5) (c := 0#16) rfl (by simp; rfl)

theorem sll (rs : Reg) (rt : Reg) (rd : Reg) (h : Shamt) : Statement (.sll rs rt rd h) :=
  of_rWord (o := 63#6) (a := 0#5) (b := 0#5) (c := 0#5) (d := 0#5) (e := 63#6) rfl (by simp; rfl)

theorem sllv (rs : Reg) (rt : Reg) (rd : Reg) : Statement (.sllv rs rt rd) :=
  of_rWord (o := 63#6) (a := 0#5) (b := 0#5) (c := 0#5) (d := 0#5) (e := 63#6) rfl (by simp; rfl)

theorem slt (rs : Reg) (rt : Reg) (rd : Reg) : Statement (.slt rs rt rd) :=
  of_rWord (o := 63#6) (a := 0#5) (b := 0#5) (c := 0#5) (d := 31#5) (e := 63#6) rfl (by simp; rfl)

theorem slti (rs : Reg) (rt : Reg) (imm : Imm) : Statement (.slti rs rt imm) :=
  of_iWord (o := 63#6) (a := 0#5) (b := 0#5) (c := 0#16) rfl (by simp; rfl)

theorem sltiu (rs : Reg) (rt : Reg) (imm : Imm) : Statement (.sltiu rs rt imm) :=
  of_iWord (o := 63#6) (a := 0#5) (b := 0#5) (c := 0#16) rfl (by simp; rfl)

theorem sltu (rs : Reg) (rt : Reg) (rd : Reg) : Statement (.sltu rs rt rd) :=
  of_rWord (o := 63#6) (a := 0#5) (b := 0#5) (c := 0#5) (d := 31#5) (e := 63#6) rfl (by simp; rfl)

theorem sra (rt : Reg) (rd : Reg) (h : Shamt) : Statement (.sra rt rd h) :=
  of_rWord (o := 63#6) (a := 0#5) (b := 0#5) (c := 0#5) (d := 0#5) (e := 63#6) rfl (by simp; rfl)

theorem srl (rt : Reg) (rd : Reg) (h : Shamt) : Statement (.srl rt rd h) :=
  of_rWord (o := 63#6) (a := 0#5) (b := 0#5) (c := 0#5) (d := 0#5) (e := 63#6) rfl (by simp; rfl)

theorem srlv (rs : Reg) (rt : Reg) (rd : Reg) : Statement (.srlv rs rt rd) :=
  of_rWord (o := 63#6) (a := 0#5) (b := 0#5) (c := 0#5) (d := 31#5) (e := 63#6) rfl (by simp; rfl)

theorem sub (rs : Reg) (rt : Reg) (rd : Reg) : Statement (.sub rs rt rd) :=
  of_rWord (o := 63#6) (a := 0#5) (b := 0#5) (c := 0#5) (d := 31#5) (e := 63#6) rfl (by simp; rfl)

theorem subu (rs : Reg) (rt : Reg) (rd : Reg) : Statement (.subu rs rt rd) :=
  of_rWord (o := 63#6) (a := 0#5) (b := 0#5) (c := 0#5) (d := 31#5) (e := 63#6) rfl (by simp; rfl)

theorem sw (rs : Reg) (rt : Reg) (imm : Imm) : Statement (.sw rs rt imm) :=
  of_iWord (o := 63#6) (a := 0#5) (b := 0#5) (c := 0#16) rfl (by simp; rfl)

theorem syscall : Statement .syscall :=
  of_rWord (o := 63#6) (a := 0#5) (b := 0#5) (c := 0#5) (d := 0#5) (e := 63#6) rfl (by simp; rfl)

theorem xor (rs : Reg) (rt : Reg) (rd : Reg) : Statement (.xor rs rt rd) :=
  of_rWord (o := 63#6) (a := 0#5) (b := 0#5) (c := 0#5) (d := 0#5) (e := 63#6) rfl (by simp; rfl)

theorem xori (rs : Reg) (rt : Reg) (imm : Imm) : Statement (.xori rs rt imm) :=
  of_iWord (o := 63#6) (a := 0#5) (b := 0#5) (c := 0#16) rfl (by simp; rfl)

end Sys2Proof.Laws.MapRow
end

