-- ==== Sys2Proof/Tests/Slice0.lean ====
section
/-! SUPPORT. Tests and witnesses. Expected values are those of the examples and corner cases of spec/ (40_add_sub.md to
48_system.md) or are worked out by hand from the rule named. -/

namespace Sys2Proof.Tests

open Sys2Proof Sys2Proof.Machine

/-! ### Helpers -/

/-- The state after reset with values in some registers, in the data region of the reset launch. -/
def withRegs (regs : List (Reg × Word)) : State := regs.foldl (fun s w => s.writeReg w.1 w.2) State.reset

/-- A state at `pc` in straight-line code. -/
def atPc (s : State) (pc : Word) : State := { s with pc := pc, npc := pc + 4#32 }

/-- A state in a taken delay slot. -/
def inSlot (s : State) : State := { s with npc := 0x00400080 }

/-- A state under the other byte order. -/
def littleOrder (s : State) : State := { s with launch := { s.launch with byteOrder := .little } }

/-- A state with bytes of memory written from outside. -/
def withBytes (s : State) (bytes : List (Word × Byte)) : State := bytes.foldl (fun s w => s.writeByte w.1 w.2) s

def nextOf : Result → Option State
  | .next s => some s
  | _ => none

def faultOf : Result → Option Fault
  | .fault f => some f
  | _ => none

def refusalOf : Result → Option Refusal
  | .refused r => some r
  | _ => none

/-- A register after an outcome that goes on. -/
def regAfter (o : Result) (r : Reg) : Option Word := (nextOf o).map fun s => s.readReg r

/-- `pc` and `npc` after an outcome that goes on. -/
def pcsAfter (o : Result) : Option (Word × Word) := (nextOf o).map fun s => (s.pc, s.npc)

/-- `hi` and `lo` after an outcome that goes on. -/
def hiLoAfter (o : Result) : Option (Word × Word) := (nextOf o).map fun s => (s.hi, s.lo)

/-- A byte of memory after an outcome that goes on. -/
def byteAfter (o : Result) (a : Word) : Option Byte := (nextOf o).map fun s => s.readByte a

/-! ### Well-formedness: the one check, and what it lets through (R71) -/

theorem test_wf_refuses_zero_sll : (Instr.sll 0 0 0 0).wellFormed = false := by decide

theorem test_wf_accepts_sll_with_s : (Instr.sll 1 0 0 0).wellFormed = true := by decide

theorem test_wf_accepts_noop : Instr.noop.wellFormed = true := by decide

/-! ### Decoding: one word for each instruction, written field by field from its encoding string (R72), hyphens partly 1 -/

theorem test_decode_add : 0b000000_10011_01101_11010_00000_100000#32 &&& 0xFC0007FF = 0x00000020 ∧
    decode 0b000000_10011_01101_11010_00000_100000#32 = .ok (.add 0b10011 0b01101 0b11010) := by decide

theorem test_decode_addi : 0b001000_10011_01101_1010011100101101#32 &&& 0xFC000000 = 0x20000000 ∧
    decode 0b001000_10011_01101_1010011100101101#32 = .ok (.addi 0b10011 0b01101 0b1010011100101101) := by decide

theorem test_decode_addiu : 0b001001_10011_01101_1010011100101101#32 &&& 0xFC000000 = 0x24000000 ∧
    decode 0b001001_10011_01101_1010011100101101#32 = .ok (.addiu 0b10011 0b01101 0b1010011100101101) := by decide

theorem test_decode_addu : 0b000000_10011_01101_11010_00000_100001#32 &&& 0xFC0007FF = 0x00000021 ∧
    decode 0b000000_10011_01101_11010_00000_100001#32 = .ok (.addu 0b10011 0b01101 0b11010) := by decide

theorem test_decode_and : 0b000000_10011_01101_11010_00000_100100#32 &&& 0xFC0007FF = 0x00000024 ∧
    decode 0b000000_10011_01101_11010_00000_100100#32 = .ok (.and 0b10011 0b01101 0b11010) := by decide

theorem test_decode_andi : 0b001100_10011_01101_1010011100101101#32 &&& 0xFC000000 = 0x30000000 ∧
    decode 0b001100_10011_01101_1010011100101101#32 = .ok (.andi 0b10011 0b01101 0b1010011100101101) := by decide

theorem test_decode_beq : 0b000100_10011_01101_1010011100101101#32 &&& 0xFC000000 = 0x10000000 ∧
    decode 0b000100_10011_01101_1010011100101101#32 = .ok (.beq 0b10011 0b01101 0b1010011100101101) := by decide

theorem test_decode_bgez : 0b000001_10011_00001_1010011100101101#32 &&& 0xFC1F0000 = 0x04010000 ∧
    decode 0b000001_10011_00001_1010011100101101#32 = .ok (.bgez 0b10011 0b1010011100101101) := by decide

theorem test_decode_bgezal : 0b000001_10011_10001_1010011100101101#32 &&& 0xFC1F0000 = 0x04110000 ∧
    decode 0b000001_10011_10001_1010011100101101#32 = .ok (.bgezal 0b10011 0b1010011100101101) := by decide

theorem test_decode_bgtz : 0b000111_10011_00000_1010011100101101#32 &&& 0xFC1F0000 = 0x1C000000 ∧
    decode 0b000111_10011_00000_1010011100101101#32 = .ok (.bgtz 0b10011 0b1010011100101101) := by decide

theorem test_decode_blez : 0b000110_10011_00000_1010011100101101#32 &&& 0xFC1F0000 = 0x18000000 ∧
    decode 0b000110_10011_00000_1010011100101101#32 = .ok (.blez 0b10011 0b1010011100101101) := by decide

theorem test_decode_bltz : 0b000001_10011_00000_1010011100101101#32 &&& 0xFC1F0000 = 0x04000000 ∧
    decode 0b000001_10011_00000_1010011100101101#32 = .ok (.bltz 0b10011 0b1010011100101101) := by decide

theorem test_decode_bltzal : 0b000001_10011_10000_1010011100101101#32 &&& 0xFC1F0000 = 0x04100000 ∧
    decode 0b000001_10011_10000_1010011100101101#32 = .ok (.bltzal 0b10011 0b1010011100101101) := by decide

theorem test_decode_bne : 0b000101_10011_01101_1010011100101101#32 &&& 0xFC000000 = 0x14000000 ∧
    decode 0b000101_10011_01101_1010011100101101#32 = .ok (.bne 0b10011 0b01101 0b1010011100101101) := by decide

theorem test_decode_div : 0b000000_10011_01101_00000_00000_011010#32 &&& 0xFC00FFFF = 0x0000001A ∧
    decode 0b000000_10011_01101_00000_00000_011010#32 = .ok (.div 0b10011 0b01101) := by decide

theorem test_decode_divu : 0b000000_10011_01101_00000_00000_011011#32 &&& 0xFC00FFFF = 0x0000001B ∧
    decode 0b000000_10011_01101_00000_00000_011011#32 = .ok (.divu 0b10011 0b01101) := by decide

theorem test_decode_j : 0b000010_10110011100001010110100101#32 &&& 0xFC000000 = 0x08000000 ∧
    decode 0b000010_10110011100001010110100101#32 = .ok (.j 0b10110011100001010110100101) := by decide

theorem test_decode_jal : 0b000011_10110011100001010110100101#32 &&& 0xFC000000 = 0x0C000000 ∧
    decode 0b000011_10110011100001010110100101#32 = .ok (.jal 0b10110011100001010110100101) := by decide

theorem test_decode_jr : 0b000000_10011_00000_00000_00000_001000#32 &&& 0xFC1FFFFF = 0x00000008 ∧
    decode 0b000000_10011_00000_00000_00000_001000#32 = .ok (.jr 0b10011) := by decide

theorem test_decode_lb : 0b100000_10011_01101_1010011100101101#32 &&& 0xFC000000 = 0x80000000 ∧
    decode 0b100000_10011_01101_1010011100101101#32 = .ok (.lb 0b10011 0b01101 0b1010011100101101) := by decide

theorem test_decode_lui : 0b001111_01101_01101_1010011100101101#32 &&& 0xFC000000 = 0x3C000000 ∧
    decode 0b001111_01101_01101_1010011100101101#32 = .ok (.lui 0b01101 0b1010011100101101) := by decide

theorem test_decode_lw : 0b100011_10011_01101_1010011100101101#32 &&& 0xFC000000 = 0x8C000000 ∧
    decode 0b100011_10011_01101_1010011100101101#32 = .ok (.lw 0b10011 0b01101 0b1010011100101101) := by decide

theorem test_decode_mfhi : 0b000000_00000_00000_11010_00000_010000#32 &&& 0xFFFF07FF = 0x00000010 ∧
    decode 0b000000_00000_00000_11010_00000_010000#32 = .ok (.mfhi 0b11010) := by decide

theorem test_decode_mflo : 0b000000_00000_00000_11010_00000_010010#32 &&& 0xFFFF07FF = 0x00000012 ∧
    decode 0b000000_00000_00000_11010_00000_010010#32 = .ok (.mflo 0b11010) := by decide

theorem test_decode_mult : 0b000000_10011_01101_00000_00000_011000#32 &&& 0xFC00FFFF = 0x00000018 ∧
    decode 0b000000_10011_01101_00000_00000_011000#32 = .ok (.mult 0b10011 0b01101) := by decide

theorem test_decode_multu : 0b000000_10011_01101_00000_00000_011001#32 &&& 0xFC00FFFF = 0x00000019 ∧
    decode 0b000000_10011_01101_00000_00000_011001#32 = .ok (.multu 0b10011 0b01101) := by decide

theorem test_decode_noop : 0b000000_00000_00000_00000_00000_000000#32 &&& 0xFFFFFFFF = 0x00000000 ∧
    decode 0b000000_00000_00000_00000_00000_000000#32 = .ok .noop := by decide

theorem test_decode_or : 0b000000_10011_01101_11010_00000_100101#32 &&& 0xFC0007FF = 0x00000025 ∧
    decode 0b000000_10011_01101_11010_00000_100101#32 = .ok (.or 0b10011 0b01101 0b11010) := by decide

theorem test_decode_ori : 0b001101_10011_01101_1010011100101101#32 &&& 0xFC000000 = 0x34000000 ∧
    decode 0b001101_10011_01101_1010011100101101#32 = .ok (.ori 0b10011 0b01101 0b1010011100101101) := by decide

theorem test_decode_sb : 0b101000_10011_01101_1010011100101101#32 &&& 0xFC000000 = 0xA0000000 ∧
    decode 0b101000_10011_01101_1010011100101101#32 = .ok (.sb 0b10011 0b01101 0b1010011100101101) := by decide

theorem test_decode_sll : 0b000000_10011_01101_11010_10110_000000#32 &&& 0xFC00003F = 0x00000000 ∧
    decode 0b000000_10011_01101_11010_10110_000000#32 = .ok (.sll 0b10011 0b01101 0b11010 0b10110) := by decide

theorem test_decode_sllv : 0b000000_10011_01101_11010_01101_000100#32 &&& 0xFC00003F = 0x00000004 ∧
    decode 0b000000_10011_01101_11010_01101_000100#32 = .ok (.sllv 0b10011 0b01101 0b11010) := by decide

theorem test_decode_slt : 0b000000_10011_01101_11010_00000_101010#32 &&& 0xFC0007FF = 0x0000002A ∧
    decode 0b000000_10011_01101_11010_00000_101010#32 = .ok (.slt 0b10011 0b01101 0b11010) := by decide

theorem test_decode_slti : 0b001010_10011_01101_1010011100101101#32 &&& 0xFC000000 = 0x28000000 ∧
    decode 0b001010_10011_01101_1010011100101101#32 = .ok (.slti 0b10011 0b01101 0b1010011100101101) := by decide

theorem test_decode_sltiu : 0b001011_10011_01101_1010011100101101#32 &&& 0xFC000000 = 0x2C000000 ∧
    decode 0b001011_10011_01101_1010011100101101#32 = .ok (.sltiu 0b10011 0b01101 0b1010011100101101) := by decide

theorem test_decode_sltu : 0b000000_10011_01101_11010_00000_101011#32 &&& 0xFC0007FF = 0x0000002B ∧
    decode 0b000000_10011_01101_11010_00000_101011#32 = .ok (.sltu 0b10011 0b01101 0b11010) := by decide

theorem test_decode_sra : 0b000000_01101_01101_11010_10110_000011#32 &&& 0xFC00003F = 0x00000003 ∧
    decode 0b000000_01101_01101_11010_10110_000011#32 = .ok (.sra 0b01101 0b11010 0b10110) := by decide

theorem test_decode_srl : 0b000000_01101_01101_11010_10110_000010#32 &&& 0xFC00003F = 0x00000002 ∧
    decode 0b000000_01101_01101_11010_10110_000010#32 = .ok (.srl 0b01101 0b11010 0b10110) := by decide

theorem test_decode_srlv : 0b000000_10011_01101_11010_00000_000110#32 &&& 0xFC0007FF = 0x00000006 ∧
    decode 0b000000_10011_01101_11010_00000_000110#32 = .ok (.srlv 0b10011 0b01101 0b11010) := by decide

theorem test_decode_sub : 0b000000_10011_01101_11010_00000_100010#32 &&& 0xFC0007FF = 0x00000022 ∧
    decode 0b000000_10011_01101_11010_00000_100010#32 = .ok (.sub 0b10011 0b01101 0b11010) := by decide

theorem test_decode_subu : 0b000000_10011_01101_11010_00000_100011#32 &&& 0xFC0007FF = 0x00000023 ∧
    decode 0b000000_10011_01101_11010_00000_100011#32 = .ok (.subu 0b10011 0b01101 0b11010) := by decide

theorem test_decode_sw : 0b101011_10011_01101_1010011100101101#32 &&& 0xFC000000 = 0xAC000000 ∧
    decode 0b101011_10011_01101_1010011100101101#32 = .ok (.sw 0b10011 0b01101 0b1010011100101101) := by decide

theorem test_decode_syscall : 0b000000_01101_10110_11011_01101_001100#32 &&& 0xFC00003F = 0x0000000C ∧
    decode 0b000000_01101_10110_11011_01101_001100#32 = .ok .syscall := by decide

theorem test_decode_xor : 0b000000_10011_01101_11010_01101_100110#32 &&& 0xFC00003F = 0x00000026 ∧
    decode 0b000000_10011_01101_11010_01101_100110#32 = .ok (.xor 0b10011 0b01101 0b11010) := by decide

theorem test_decode_xori : 0b001110_10011_01101_1010011100101101#32 &&& 0xFC000000 = 0x38000000 ∧
    decode 0b001110_10011_01101_1010011100101101#32 = .ok (.xori 0b10011 0b01101 0b1010011100101101) := by decide

theorem test_decode_zero_word : decode 0#32 = .ok .noop := by decide

theorem test_decode_reserved_op : decode 0x40000000 = .error .reservedOp := by decide

theorem test_decode_reserved_selector : decode 0x04020000 = .error .reservedSelector := by decide

theorem test_decode_nonzero_selector : decode 0x18010000 = .error .nonzeroSelector := by decide

theorem test_decode_reserved_funct : decode 0x00000001 = .error .reservedFunct := by decide

theorem test_decode_fixed_zero_bits : decode 0x012A4060 = .error .fixedZeroBits := by decide

theorem test_decode_truncated : decodeBytes .big [0x01, 0x2A, 0x40] = .error .truncated := by decide

theorem test_decode_table_word : decodeTableWord 32 0x012A4020 = some (.add 9 10 8) := by decide

theorem test_asm_order : asmText (.sllv 10 9 8) = "sllv $8, $9, $10" := by decide

/-! ### Instructions: the examples of their rules -/

theorem test_add : regAfter (exec (.add 9 10 8) (withRegs [(9, 5), (10, 0xFFFFFFFD)])) 8 = some 2 := by decide

theorem test_add_overflow :
    faultOf (exec (.add 9 10 0) (withRegs [(9, 0x7FFFFFFF), (10, 1)])) = some (.overflow 0x00400000 0x00400004) := by decide

theorem test_addi : regAfter (exec (.addi 9 8 0xFFFF) (withRegs [(9, 0)])) 8 = some 0xFFFFFFFF := by decide

theorem test_addi_overflow :
    faultOf (exec (.addi 9 8 0xFFFF) (withRegs [(9, 0x80000000)])) = some (.overflow 0x00400000 0x00400004) := by decide

theorem test_addiu : regAfter (exec (.addiu 29 29 0xFFF8) (withRegs [(29, 0x7FFFF000)])) 29 = some 0x7FFFEFF8 := by decide

theorem test_addu : regAfter (exec (.addu 9 10 8) (withRegs [(9, 0xFFFFFFFF), (10, 2)])) 8 = some 1 := by decide

theorem test_sub : regAfter (exec (.sub 9 10 8) (withRegs [(9, 3), (10, 5)])) 8 = some 0xFFFFFFFE := by decide

theorem test_sub_overflow :
    faultOf (exec (.sub 0 10 8) (withRegs [(10, 0x80000000)])) = some (.overflow 0x00400000 0x00400004) := by decide

theorem test_subu : regAfter (exec (.subu 9 10 8) (withRegs [(9, 0), (10, 1)])) 8 = some 0xFFFFFFFF := by decide

theorem test_and : regAfter (exec (.and 9 10 8) (withRegs [(9, 0xF0F0F0F0), (10, 0xFF00FF00)])) 8 = some 0xF000F000 := by decide

theorem test_or : regAfter (exec (.or 9 10 8) (withRegs [(9, 0xF0F0F0F0), (10, 0xFF00FF00)])) 8 = some 0xFFF0FFF0 := by decide

theorem test_xor : regAfter (exec (.xor 9 10 8) (withRegs [(9, 0xF0F0F0F0), (10, 0xFF00FF00)])) 8 = some 0x0FF00FF0 := by decide

theorem test_andi : regAfter (exec (.andi 9 8 0xFF00) (withRegs [(9, 0x12345678)])) 8 = some 0x00005600 := by decide

theorem test_ori : regAfter (exec (.ori 9 8 0x8001) (withRegs [(9, 0x12340000)])) 8 = some 0x12348001 := by decide

theorem test_xori : regAfter (exec (.xori 9 8 0xFFFF) (withRegs [(9, 0x12345678)])) 8 = some 0x1234A987 := by decide

theorem test_beq :
    pcsAfter (exec (.beq 8 9 3) (withRegs [(8, 7), (9, 7)])) = some (0x00400004, 0x00400010) := by decide

theorem test_bne :
    pcsAfter (exec (.bne 8 0 0xFFFD) (atPc (withRegs [(8, 2)]) 0x0040000C)) = some (0x00400010, 0x00400004) := by decide

theorem test_bgez :
    pcsAfter (exec (.bgez 8 2) (withRegs [(8, 0)])) = some (0x00400004, 0x0040000C) := by decide

theorem test_bgtz :
    pcsAfter (exec (.bgtz 8 2) (withRegs [(8, 0)])) = some (0x00400004, 0x00400008) := by decide

theorem test_blez :
    pcsAfter (exec (.blez 8 2) (withRegs [(8, 0xFFFFFFFF)])) = some (0x00400004, 0x0040000C) := by decide

theorem test_bltz :
    pcsAfter (exec (.bltz 8 0xFFFE) (atPc (withRegs [(8, 0x80000000)]) 0x00400010)) = some (0x00400014, 0x0040000C) := by decide

theorem test_bgezal_link : regAfter (exec (.bgezal 8 4) (withRegs [(8, 1)])) 31 = some 0x00400008 := by decide

theorem test_bltzal_link : regAfter (exec (.bltzal 31 4) (withRegs [(31, 0xFFFFFFFF)])) 31 = some 0x00400008 := by decide

theorem test_bgezal_not_taken :
    pcsAfter (exec (.bgezal 8 4) (withRegs [(8, 0xFFFFFFFF)])) = some (0x00400004, 0x00400008) := by decide

theorem test_bltzal :
    pcsAfter (exec (.bltzal 8 4) (withRegs [(8, 0xFFFFFFFF)])) = some (0x00400004, 0x00400014) := by decide

theorem test_branch_in_slot : refusalOf (exec (.beq 8 9 3) (inSlot (withRegs [(8, 7)]))) = some (.ctiInDelaySlot 0x00400000) := by decide

theorem test_j :
    pcsAfter (exec (.j 0x0100010) (atPc (withRegs []) 0x00400020)) = some (0x00400024, 0x00400040) := by decide

theorem test_jal_link : regAfter (exec (.jal 0x0100010) (atPc (withRegs []) 0x00400008)) 31 = some 0x00400010 := by decide

theorem test_jal_last_word_of_region :
    pcsAfter (exec (.jal 0) (atPc (withRegs []) 0x0FFFFFFC)) = some (0x10000000, 0x10000000) := by decide

theorem test_jr :
    pcsAfter (exec (.jr 31) (atPc (withRegs [(31, 0x00400010)]) 0x00400048)) = some (0x0040004C, 0x00400010) := by decide

theorem test_div : hiLoAfter (exec (.div 8 9) (withRegs [(8, 0xFFFFFFF9), (9, 2)])) = some (0xFFFFFFFF, 0xFFFFFFFD) := by decide

theorem test_divu : hiLoAfter (exec (.divu 8 9) (withRegs [(8, 0xFFFFFFF9), (9, 2)])) = some (1, 0x7FFFFFFC) := by decide

theorem test_div_by_zero_goes_on :
    pcsAfter (exec (.div 8 9) (withRegs [(8, 7)])) = some (0x00400004, 0x00400008) := by decide

theorem test_mult : hiLoAfter (exec (.mult 8 9) { withRegs [(8, 0xFFFFFFFE), (9, 3)] with launch := { resetLaunch with multHi := .highWord } }) = some (0xFFFFFFFF, 0xFFFFFFFA) := by decide

theorem test_multu : hiLoAfter (exec (.multu 8 9) { withRegs [(8, 0xFFFFFFFE), (9, 3)] with launch := { resetLaunch with multHi := .highWord } }) = some (2, 0xFFFFFFFA) := by decide

theorem test_mfhi : regAfter (exec (.mfhi 10) { withRegs [] with hi := 0xFFFFFFFF }) 10 = some 0xFFFFFFFF := by decide

theorem test_mflo : regAfter (exec (.mflo 11) { withRegs [] with lo := 14 }) 11 = some 14 := by decide

theorem test_lb : regAfter (exec (.lb 9 8 3) (withBytes (withRegs [(9, 0x10010000)]) [(0x10010000, 0x01), (0x10010001, 0x02), (0x10010002, 0x03), (0x10010003, 0xF0)])) 8 = some 0xFFFFFFF0 := by decide

theorem test_lb_unmapped :
    faultOf (exec (.lb 9 0 0) (withRegs [(9, 0x10020000)])) = some (.busErrorData 0x10020000 0x00400000 0x00400004) := by decide

theorem test_lw_big : regAfter (exec (.lw 9 8 0xFFFC) (withBytes (withRegs [(9, 0x10010004)]) [(0x10010000, 0x01), (0x10010001, 0x02), (0x10010002, 0x03), (0x10010003, 0xF0)])) 8 = some 0x010203F0 := by decide

theorem test_lw_little : regAfter (exec (.lw 9 8 0) (littleOrder (withBytes (withRegs [(9, 0x10010000)]) [(0x10010000, 0x01), (0x10010001, 0x02), (0x10010002, 0x03), (0x10010003, 0xF0)]))) 8 = some 0xF0030201 := by decide

theorem test_lui : regAfter (exec (.lui 8 0x1234) (withRegs [])) 8 = some 0x12340000 := by decide

theorem test_sb : byteAfter (exec (.sb 9 8 0) (withRegs [(8, 0x12345678), (9, 0x10010001)])) 0x10010001 = some 0x78 := by decide

theorem test_sb_code : refusalOf (exec (.sb 9 8 0) (withRegs [(9, 0x00400010)])) = some (.storeToCode 0x00400000) := by decide

theorem test_sw_big : byteAfter (exec (.sw 9 8 4) (withRegs [(8, 0x11223344), (9, 0x10010000)])) 0x10010005 = some 0x22 := by decide

theorem test_sw_little :
    byteAfter (exec (.sw 9 8 4) (littleOrder (withRegs [(8, 0x11223344), (9, 0x10010000)]))) 0x10010005 = some 0x33 := by decide

theorem test_noop :
    pcsAfter (exec .noop (withRegs [])) = some (0x00400004, 0x00400008) := by decide

theorem test_sll : regAfter (exec (.sll 0 9 8 4) (withRegs [(9, 0xF000000F)])) 8 = some 0x000000F0 := by decide

theorem test_sllv : regAfter (exec (.sllv 10 9 8) (withRegs [(9, 1), (10, 36)])) 8 = some 0x00000010 := by decide

theorem test_sra : regAfter (exec (.sra 9 8 4) (withRegs [(9, 0x80000010)])) 8 = some 0xF8000001 := by decide

theorem test_srl : regAfter (exec (.srl 9 8 4) (withRegs [(9, 0x80000010)])) 8 = some 0x08000001 := by decide

theorem test_srlv : regAfter (exec (.srlv 10 9 8) (withRegs [(9, 0x80000000), (10, 31)])) 8 = some 1 := by decide

theorem test_slt : regAfter (exec (.slt 9 10 8) (withRegs [(9, 0xFFFFFFFF), (10, 1)])) 8 = some 1 := by decide

theorem test_sltu : regAfter (exec (.sltu 9 10 8) (withRegs [(9, 0xFFFFFFFF), (10, 1)])) 8 = some 0 := by decide

theorem test_slti : regAfter (exec (.slti 9 8 0xFFFF) (withRegs [(9, 0xFFFFFFFE)])) 8 = some 1 := by decide

theorem test_sltiu : regAfter (exec (.sltiu 9 8 0xFFFF) (withRegs [(9, 5)])) 8 = some 1 := by decide

theorem test_syscall :
    pcsAfter (exec .syscall (atPc (withRegs []) 0x00400030)) = some (0x00400034, 0x00400038) := by decide

/-! ### Steps -/

theorem test_step_runs_placed_word :
    regAfter (step ((withRegs [(9, 5), (10, 7)]).withFetchWord 32 0x012A4020)) 8 = some 12 := by decide

theorem test_step_runs_placed_word_little :
    regAfter (step ((littleOrder (withRegs [(9, 5), (10, 7)])).withFetchWord 32 0x012A4020)) 8 = some 12 := by decide

theorem test_step_after_end :
    refusalOf (step { State.reset with run := .envCall }) = some (.runEnded 0x00400000) := by decide

/-- The environment sets register 2 and the run resumes with the instruction at `pc`, here a NOOP. -/
theorem test_step_resumes :
    regAfter (step { State.reset with run := .envCall, env := [⟨[(2, 10)], none, none, []⟩] }) 2 = some 10 := by decide

theorem test_step_reserved : faultOf (step (State.reset.withFetchWord 32 0x00000001)) =
    some (.reservedInstruction 0x00000001 0x00400000 0x00400004) := by decide

theorem test_memory_write_canonical :
    ((⟨[]⟩ : Memory).write 5 1 |>.write 3 2 |>.write 5 0) = ⟨[(3, 2)]⟩ := by decide

/-! ### Witnesses: states and operands that meet the hypotheses of the statements, clause by clause, at boundary values -/

/-- Words at which the hypotheses about matching rows hold (`RowDecodes` is met by each word of the decode tests above). -/
theorem witness_DecodeOfEncode : (Instr.sll 1 0 0 0).wellFormed = true ∧ (Instr.jal 0x3FFFFFF).wellFormed = true := by decide

theorem witness_EncodeOfDecode : decode 0x03FFFFCC = .ok .syscall ∧ decode 0x03E00000 = .ok (.sll 31 0 0 0) := by decide

theorem witness_DecodeRule : decode 0x012A4020 = .ok (.add 9 10 8) ∧ MatchesRow 0x012A4020 (.add 0 0 0) ∧ (0x012A4020 : Word) ≠ 0#32 ∧
    MatchesRow 0#32 .noop ∧ MatchesRow 0#32 (.sll 0 0 0 0) ∧ decode 0x012A4026 = .ok (.xor 9 10 8) ∧
    (0x012A47E6 : Word) &&& ~~~(Instr.xor 9 10 8).hyphenBits = 0x012A4026 &&& ~~~(Instr.xor 9 10 8).hyphenBits := by
  unfold MatchesRow; decide

theorem witness_InstructionCycle_misaligned : (atPc State.reset 0x00400003).run = .running ∧ (atPc State.reset 0x00400003).pc.toNat % 4 ≠ 0 := by
  decide

theorem witness_InstructionCycle_bus : (atPc State.reset 0x00400100).run = .running ∧ (atPc State.reset 0x00400100).pc.toNat % 4 = 0 ∧
    allInCode (atPc State.reset 0x00400100).launch (atPc State.reset 0x00400100).pc 4 = false := by decide

theorem witness_InstructionCycle_reserved : (State.reset.withFetchWord 32 1).run = .running ∧
    (State.reset.withFetchWord 32 1).pc.toNat % 4 = 0 ∧
    allInCode (State.reset.withFetchWord 32 1).launch (State.reset.withFetchWord 32 1).pc 4 = true ∧
    decode ((State.reset.withFetchWord 32 1).readWord (State.reset.withFetchWord 32 1).pc) = .error .reservedFunct := by decide

/-- A state whose next instruction is given, with both optional checks on. -/
def checked (s : State) (w : Nat) : State :=
  State.withFetchWord { s with launch := { s.launch with loadDelayCheck := true, hiLoHazardCheck := true } } 32 w

/-- A fetch that succeeds: with it, an optional check that refuses, and an execution that goes on, faults and is refused. -/
theorem witness_InstructionCycle_runs :
    Fetches (checked { State.reset with lastLoad := some 9 } 0x012A4020) (.add 9 10 8) ∧
    hazardCheck (.add 9 10 8) (checked { State.reset with lastLoad := some 9 } 0x012A4020) = some (.loadDelay 0x00400000) ∧
    Fetches (checked State.reset 0x012A4020) (.add 9 10 8) ∧ hazardCheck (.add 9 10 8) (checked State.reset 0x012A4020) = none ∧
    (nextOf (exec (.add 9 10 8) (checked State.reset 0x012A4020))).isSome = true ∧
    (faultOf (exec (.lw 0 8 1) (checked State.reset 0x8C080001))).isSome = true ∧
    (refusalOf (exec (.sb 9 8 0) (checked (withRegs [(9, 0x00400000)]) 0xA1280000))).isSome = true ∧
    State.reset.launch.loadDelayCheck = false ∧ State.reset.launch.hiLoHazardCheck = false := by
  unfold Fetches; decide

theorem witness_WithFetchWordRuns : State.reset.pc.toNat % 4 = 0 ∧ (0x012A4020 : Nat) < 2 ^ 32 ∧
    decode (BitVec.ofNat 32 0x012A4020) = .ok (.add 9 10 8) := by decide

/-- A state at an EnvCall with the given replies to come. -/
def atEnvCall (env : List EnvReply) : State := { State.reset with run := .envCall, env := env }

/-- No reply, a reply that would write CODE, and a reply that writes the last data byte. -/
theorem witness_EnvironmentActs : (atEnvCall []).run = .envCall ∧ (atEnvCall []).env = [] ∧
    (atEnvCall [⟨[], none, none, [(0x00400000, 1)]⟩]).env = [⟨[], none, none, [(0x00400000, 1)]⟩] ∧
    replyAllowed resetLaunch ⟨[], none, none, [(0x00400000, 1)]⟩ = false ∧
    refusalOf (step (atEnvCall [⟨[], none, none, [(0x00400000, 1)]⟩])) = some (.envReplyOutsideMap 0x00400000) ∧
    replyAllowed resetLaunch ⟨[(2, 1)], some 3, none, [(0x1001FFFF, 1)]⟩ = true ∧
    byteAfter (step (atEnvCall [⟨[(2, 1)], some 3, none, [(0x1001FFFF, 1)]⟩])) 0x1001FFFF = some 1 ∧
    regAfter (step (atEnvCall [⟨[(2, 7), (0, 9), (2, 1)], some 3, none, [(0x1001FFFF, 5), (0x1001FFFF, 1)]⟩])) 2 = some 1 ∧
    byteAfter (step (atEnvCall [⟨[(2, 7), (0, 9), (2, 1)], some 3, none, [(0x1001FFFF, 5), (0x1001FFFF, 1)]⟩])) 0x1001FFFF = some 1 ∧
    inCode resetLaunch (0x004000FF : Word).toNat = true := by decide

/-- A step that completes: the reset state runs the all-zero word of its memory. With it the hypotheses of PcBecomesNpc,
LaunchFixed, ChecksOnlyRemoveRuns, CodeIsImmutable, OnlyJrMisaligns and StepKeepsInv are met. -/
theorem witness_step : (nextOf (step State.reset)).isSome = true ∧ State.reset.run = .running ∧ State.reset.npc.toNat % 4 = 0 ∧
    inCode State.reset.launch (0x00400000 : Word).toNat = true := by decide

theorem witness_StepKeepsInv : Inv State.reset := by
  refine ⟨by decide, by decide, by decide, by decide⟩

theorem witness_TakenSlotLastsOneStep :
    (nextOf (step (inSlot State.reset))).isSome = true ∧ (inSlot State.reset).npc ≠ (inSlot State.reset).pc + 4#32 ∧
    pcsAfter (step (State.reset.withFetchWord 32 0x10000000)) = some (0x00400004, 0x00400004) := by decide

/-- The largest sum that fits and the smallest that does not, for both instructions. -/
theorem witness_AddRules :
    FitsSword (((withRegs [(9, 0x7FFFFFFE), (10, 1)]).readReg 9).toInt + ((withRegs [(9, 0x7FFFFFFE), (10, 1)]).readReg 10).toInt) ∧
    ¬FitsSword (((withRegs [(9, 0x7FFFFFFF), (10, 1)]).readReg 9).toInt + ((withRegs [(9, 0x7FFFFFFF), (10, 1)]).readReg 10).toInt) ∧
    FitsSword (((withRegs [(9, 0x80000001)]).readReg 9).toInt + (0xFFFF : Imm).toInt) ∧
    ¬FitsSword (((withRegs [(9, 0x80000000)]).readReg 9).toInt + (0xFFFF : Imm).toInt) := by
  unfold FitsSword; decide

theorem witness_SubRule :
    FitsSword (((withRegs [(10, 0x80000001)]).readReg 0).toInt - ((withRegs [(10, 0x80000001)]).readReg 10).toInt) ∧
    ¬FitsSword (((withRegs [(10, 0x80000000)]).readReg 0).toInt - ((withRegs [(10, 0x80000000)]).readReg 10).toInt) := by
  unfold FitsSword; decide

/-- Both cases of R120, for every statement about control transfers. -/
theorem witness_transfers : State.reset.npc = State.reset.pc + 4#32 ∧ (inSlot State.reset).npc ≠ (inSlot State.reset).pc + 4#32 ∧
    isTransfer (.jr 31) = true ∧ isTransfer .syscall = false := by decide

/-- Taken and not taken, with zero as the boundary, and the two settings that say something of a branch not taken. -/
theorem witness_LinkingBranches :
    (0 : Int) ≤ (State.reset.readReg 8).toInt ∧ ¬(State.reset.readReg 8).toInt < 0 ∧
    State.reset.npc = State.reset.pc + 4#32 ∧ (withRegs [(8, 0xFFFFFFFF)]).npc = (withRegs [(8, 0xFFFFFFFF)]).pc + 4#32 ∧
    ((withRegs [(8, 0xFFFFFFFF)]).readReg 8).toInt < 0 ∧ ¬(0 : Int) ≤ ((withRegs [(8, 0xFFFFFFFF)]).readReg 8).toInt ∧
    ({ resetLaunch with linkNotTaken := .unchanged } : Launch).linkNotTaken = .unchanged ∧
    ({ resetLaunch with linkNotTaken := .link } : Launch).linkNotTaken = .link := by decide

/-- A signed division next to the overflowing pair, that pair, a zero divisor, and the unsigned cases. -/
theorem witness_DivisionRules :
    ((withRegs [(9, 1)]).readReg 9).toInt ≠ 0 ∧
    ¬(((withRegs [(8, 0x80000000), (9, 1)]).readReg 8).toInt = -2 ^ 31 ∧ ((withRegs [(8, 0x80000000), (9, 1)]).readReg 9).toInt = -1) ∧
    (((withRegs [(8, 0x80000000), (9, 0xFFFFFFFF)]).readReg 8).toInt = -2 ^ 31 ∧
      ((withRegs [(8, 0x80000000), (9, 0xFFFFFFFF)]).readReg 9).toInt = -1) ∧
    (State.reset.readReg 9).toInt = 0 ∧ ((withRegs [(9, 0xFFFFFFFF)]).readReg 9).toNat ≠ 0 ∧ (State.reset.readReg 9).toNat = 0 := by
  decide

theorem witness_MultiplyRules : ({ resetLaunch with multHi := .highWord } : Launch).multHi = .highWord ∧
    ({ resetLaunch with multHi := .unchanged } : Launch).multHi = .unchanged := by decide

/-- The last mapped byte and the first one that is not, the last byte of CODE. -/
theorem witness_byte_accesses : inMapped resetLaunch (effectiveAddress 0x10020000 0xFFFF).toNat = true ∧
    inMapped resetLaunch (effectiveAddress 0x10020000 0).toNat = false ∧
    inCode resetLaunch (effectiveAddress 0x10020000 0xFFFF).toNat = false ∧
    inMapped resetLaunch (effectiveAddress 0x004000FF 0).toNat = true ∧
    inCode resetLaunch (effectiveAddress 0x004000FF 0).toNat = true := by decide

/-- A misaligned word, the first word outside MAPPED, the last word inside it, the last word of CODE. -/
theorem witness_word_accesses : (effectiveAddress 0x10010001 0).toNat % 4 ≠ 0 ∧
    ((effectiveAddress 0x10020000 0).toNat % 4 = 0 ∧ inMapped resetLaunch ((effectiveAddress 0x10020000 0).toNat + 0) = false) ∧
    ((effectiveAddress 0x10020000 0xFFFC).toNat % 4 = 0 ∧
      (∀ k < 4, inMapped resetLaunch ((effectiveAddress 0x10020000 0xFFFC).toNat + k) = true) ∧
      (∀ k < 4, inCode resetLaunch ((effectiveAddress 0x10020000 0xFFFC).toNat + k) = false)) ∧
    ((effectiveAddress 0x004000FC 0).toNat % 4 = 0 ∧
      (∀ k < 4, inMapped resetLaunch ((effectiveAddress 0x004000FC 0).toNat + k) = true) ∧
      inCode resetLaunch ((effectiveAddress 0x004000FC 0).toNat + 3) = true) ∧
    resetLaunch.byteOrder = .big ∧ (littleOrder State.reset).launch.byteOrder = .little := by decide

theorem witness_StoreThenLoadWord :
    (nextOf (exec (.sw 9 8 0) (withRegs [(8, 0x11223344), (9, 0x1001FFFC)]))).isSome = true := by decide

theorem witness_ShiftRules : (0x00000040 : Word) ≠ 0#32 ∧ (0x00000040 : Word) &&& 0xFC00003F = 0#32 := by decide

/-- Frames: a completed store, a register it does not write, a byte next to it, and a byte under an instruction that stores nothing. -/
theorem witness_frames :
    (nextOf (exec (.sw 9 8 0) (withRegs [(9, 0x10010000)]))).isSome = true ∧ destReg (.sw 9 8 0) ≠ some 8 ∧
    writesHiLo (.sw 9 8 0) = false ∧ storeTarget (.sw 9 8 0) (withRegs [(9, 0x10010000)]) = some (0x10010000, 4) ∧
    (∀ k < 4, (0x10010004 : Word) ≠ 0x10010000 + BitVec.ofNat 32 k) ∧
    (nextOf (exec (.add 9 10 8) State.reset)).isSome = true ∧ storeTarget (.add 9 10 8) State.reset = none := by decide

theorem witness_reads : readsHiLo (.mult 8 9) = false ∧ (readsRegs (.add 9 10 8)).contains 11 = false ∧
    destReg (.add 9 10 8) ≠ some 11 := by decide

theorem witness_RegisterZero : destReg (.lw 9 0 0) = some 0#5 ∧
    (nextOf (exec (.lw 9 0 0) (withRegs [(9, 0x10010000)]))).isSome = true := by decide

/-- Each fault of R200 is raised by some step. -/
theorem witness_FaultTable :
    faultOf (step ((withRegs [(9, 0x7FFFFFFF), (10, 1)]).withFetchWord 32 0x012A4020)) = some (.overflow 0x00400000 0x00400004) ∧
    faultOf (step (State.reset.withFetchWord 32 0x8C080001)) = some (.addressErrorLoad 1 0x00400000 0x00400004) ∧
    faultOf (step (State.reset.withFetchWord 32 0xAC080003)) = some (.addressErrorStore 3 0x00400000 0x00400004) ∧
    faultOf (step (atPc State.reset 0x00400001)) = some (.addressErrorFetch 0x00400001 0x00400005) ∧
    faultOf (step (atPc State.reset 0x00400100)) = some (.busErrorFetch 0x00400100 0x00400104) ∧
    faultOf (step (State.reset.withFetchWord 32 0x80080000)) = some (.busErrorData 0 0x00400000 0x00400004) ∧
    faultOf (step (State.reset.withFetchWord 32 0xFC000000)) = some (.reservedInstruction 0xFC000000 0x00400000 0x00400004) := by
  decide

/-- A fault in a taken delay slot. -/
theorem witness_FaultCarriesCounters : faultOf (step (inSlot (State.reset.withFetchWord 32 0x8C080001))) =
    some (.addressErrorLoad 1 0x00400000 0x00400080) := by decide

theorem witness_CodeIsImmutable : storeTarget (.sw 9 8 0) (withRegs [(9, 0x004000FC)]) = some (0x004000FC, 4) ∧
    (0x004000FC : Word).toNat % 4 = 0 ∧ allMapped resetLaunch 0x004000FC 4 = true ∧ someInCode resetLaunch 0x004000FC 4 = true := by
  decide

theorem witness_LoadDelayRule :
    Fetches (checked { State.reset with lastLoad := some 10 } 0x012A4020) (.add 9 10 8) ∧
    (checked { State.reset with lastLoad := some 10 } 0x012A4020).launch.loadDelayCheck = true ∧
    (checked { State.reset with lastLoad := some 10 } 0x012A4020).lastLoad = some 10 ∧ 10 ∈ readsRegs (.add 9 10 8) ∧
    refusalOf (step (checked { State.reset with lastLoad := some 10 } 0x012A4020)) = some (.loadDelay 0x00400000) ∧
    (nextOf (step (checked { State.reset with lastLoad := some 8 } 0x012A4020))).isSome = true := by
  unfold Fetches; decide

theorem witness_HiLoHazardRule :
    Fetches (checked { State.reset with hiLoWindow := .oneLeft } 0x01090018) (.mult 8 9) ∧
    (checked { State.reset with hiLoWindow := .oneLeft } 0x01090018).launch.hiLoHazardCheck = true ∧ writesHiLo (.mult 8 9) = true ∧
    refusalOf (step (checked { State.reset with hiLoWindow := .oneLeft } 0x01090018)) = some (.hiLoHazard 0x00400000) ∧
    (nextOf (step (checked { State.reset with hiLoWindow := .twoLeft } 0x00000000))).isSome = true := by
  unfold Fetches; decide

/-- A launch with a program of two words, at ENTRY_PC and in the last word of CODE, the last data byte, two registers and `hi`. -/
def sampleStart (order : ByteOrder) : Start where
  launch := { resetLaunch with byteOrder := order }
  program := [(0x00400000, 0x012A4020), (0x004000FC, 0x0000000C)]
  data := [(0x1001FFFF, 0xA5)]
  regs := [(9, 5), (9, 6), (10, 7)]
  hi := some 0x11
  lo := none
  env := []

/-- The launch is one the spec admits under either byte order; its program, its last data byte and its named values meet the hypotheses,
the last value named for register 9 being the one that stays. -/
theorem witness_StartOfARun : (sampleStart .big).regs = [(9, 5)] ++ (9, 6) :: [(10, 7)] ∧ (∀ w ∈ [((10 : Reg), (7 : Word))], w.1 ≠ 9) ∧
    (sampleStart .big).hi = some 0x11 ∧ { sampleStart .big with lo := some 2 }.lo = some 2 ∧
    inMapped (sampleStart .big).launch (0x1001FFFF : Word).toNat = true ∧
    startImage (sampleStart .big) =
      (wordAt .big 0x00400000 0x012A4020 ++ wordAt .big 0x004000FC 0x0000000C) ++ (0x1001FFFF, 0xA5) :: [] :=
  ⟨rfl, by simp, rfl, rfl, by decide, rfl⟩

theorem witness_ProgramIsLoaded : startWf (sampleStart .big) = true ∧ startWf (sampleStart .little) = true ∧
    (sampleStart .big).program = [] ++ (0x00400000, 0x012A4020) :: [(0x004000FC, 0x0000000C)] ∧
    (sampleStart .little).program = [(0x00400000, 0x012A4020)] ++ (0x004000FC, 0x0000000C) :: [] ∧
    (∀ c ∈ [((0x004000FC : Word), (0x0000000C : Word))], c.1 ≠ 0x00400000) ∧
    (∀ c ∈ (sampleStart .big).data, ∀ k < 4, c.1 ≠ 0x004000FC + BitVec.ofNat 32 k) ∧
    (0x00400000 : Word) = (sampleStart .big).launch.entryPc ∧ decode 0x012A4020 = .ok (.add 9 10 8) :=
  ⟨by decide, by decide, rfl, rfl, by simp, by simp [sampleStart]; decide, rfl, by decide⟩

/-- R230: the first step of a run executes the program's first word on the named values. -/
theorem test_start_runs_program : regAfter (step (startState (sampleStart .big))) 8 = some 13 ∧
    regAfter (step (startState (sampleStart .little))) 8 = some 13 ∧
    pcsAfter (step (startState (sampleStart .little))) = some (0x00400004, 0x00400008) := by decide

/-- R41, R230: the last program word under each byte order, and the last data byte. -/
theorem test_start_image : (startState (sampleStart .big)).readByte 0x004000FF = 0x0C ∧
    (startState (sampleStart .little)).readByte 0x004000FC = 0x0C ∧ (startState (sampleStart .little)).readByte 0x004000FF = 0 ∧
    (startState (sampleStart .little)).readByte 0x1001FFFF = 0xA5 := by decide

end Sys2Proof.Tests
end

section
/-! SUPPORT. What a completed instruction has done, said once (10_state.md R24, R26, R27): the inversion of `exec`. The frames and
the invariant are read off it. -/

namespace Sys2Proof.Machine

/-! ### The forms of a completed instruction -/

/-- The state whose counters a control transfer `i` sets: as before, or with `x[31]` linked (R23, R130). -/
inductive Linked (i : Instr) (s : State) : State → Prop
  | unlinked : destReg i = none → Linked i s s
  | taken : destReg i = some 31#5 → Linked i s s.link
  | notTaken : destReg i = some 31#5 → Linked i s s.linkNotTaken

/-- Where a control transfer `i` can lead (R121, R151 to R153). -/
inductive TransferTarget (i : Instr) (s : State) : Word → Prop
  | branch (imm : Imm) : TransferTarget i s (s.npc + branchOffset imm)
  | fallThrough : TransferTarget i s (s.npc + 4#32)
  | jump (target : Target) : TransferTarget i s (jumpTarget s.npc target)
  | register (rs : Reg) : i = .jr rs → TransferTarget i s (s.readReg rs)

/-- The next states of the instruction `i` from `s`, by what is written before the counters move. -/
inductive Completed (i : Instr) (s : State) : State → Prop
  | result (d : Reg) (v : Word) : destReg i = some d → Completed i s ((s.writeReg d v).advancePc 4#32)
  | transfer (u : State) (target : Word) : isTransfer i = true → s.npc = s.pc + 4#32 → Linked i s u →
      TransferTarget i s target → Completed i s (u.jumpTo target)
  | hiLo (h l : Word) (n : Nat) : writesHiLo i = true → destReg i = none →
      Completed i s ({ s with hi := h, lo := l, draws := n }.advancePc 4#32)
  | storeByte (ea : Word) (v : Byte) : storeTarget i s = some (ea, 1) → destReg i = none → allMapped s.launch ea 1 = true →
      Completed i s ((s.writeByte ea v).advancePc 4#32)
  | storeWord (ea v : Word) : storeTarget i s = some (ea, 4) → destReg i = none → allMapped s.launch ea 4 = true →
      Completed i s ((s.writeWord ea v).advancePc 4#32)
  | envCall : i = .syscall → Completed i s ({ s with run := .envCall }.advancePc 4#32)

/-! ### One lemma for each shared operation -/

variable {i : Instr} {s t : State}

theorem completed_of_setReg {d : Reg} {v : Word} (hd : destReg i = some d) (h : setReg s d v = .next t) : Completed i s t := by
  rw [setReg_eq, Host.Outcome.next.injEq] at h
  exact h ▸ .result d v hd

theorem completed_of_setRegTrapping {o : Bool} {d : Reg} {v : Word} (hd : destReg i = some d)
    (h : setRegTrapping s o d v = .next t) : Completed i s t := by
  obtain ⟨-, rfl⟩ := setRegTrapping_next h
  exact .result d v hd

theorem completed_of_branch {taken : Bool} {imm : Imm} (hi : isTransfer i = true) (hd : destReg i = none)
    (h : branch s taken imm = .next t) : Completed i s t := by
  obtain ⟨hslot, rfl⟩ := branch_next h
  cases taken with
  | true => exact .transfer s _ hi hslot (.unlinked hd) (.branch imm)
  | false => exact .transfer s _ hi hslot (.unlinked hd) .fallThrough

theorem completed_of_branchAndLink {taken : Bool} {imm : Imm} (hi : isTransfer i = true) (hd : destReg i = some 31#5)
    (h : branchAndLink s taken imm = .next t) : Completed i s t := by
  obtain ⟨hslot, rfl⟩ := branchAndLink_next h
  cases taken with
  | true =>
    have := Completed.transfer s.link _ hi hslot (.taken hd) (.branch imm)
    simpa [State.advancePc] using this
  | false =>
    have := Completed.transfer s.linkNotTaken _ hi hslot (.notTaken hd) .fallThrough
    simpa [State.advancePc] using this

theorem completed_of_jump {u : State} {target : Word} (hi : isTransfer i = true) (hu : Linked i s u)
    (ht : TransferTarget i s target) (h : transfer s (u.jumpTo target) = .next t) : Completed i s t := by
  obtain ⟨hslot, rfl⟩ := transfer_next h
  exact .transfer u target hi hslot hu ht

theorem completed_of_setQuotient {undefined : Bool} {q r : Word} (hw : writesHiLo i = true) (hd : destReg i = none)
    (h : setQuotient s undefined q r = .next t) : Completed i s t := by
  rw [setQuotient_eq, Host.Outcome.next.injEq] at h
  cases undefined with
  | true => exact h ▸ .hiLo _ _ _ hw hd
  | false => exact h ▸ .hiLo r q s.draws hw hd

theorem completed_of_setProduct {p : Int} (hw : writesHiLo i = true) (hd : destReg i = none)
    (h : setProduct s p = .next t) : Completed i s t := by
  rw [setProduct_eq, Host.Outcome.next.injEq, State.multHi] at h
  split at h
  · exact h ▸ .hiLo _ _ _ hw hd
  · exact h ▸ .hiLo _ _ s.draws hw hd
  · exact h ▸ .hiLo s.hi _ s.draws hw hd

theorem completed_of_loadByte {ea : Word} {d : Reg} {f : Byte → Word} (hd : destReg i = some d)
    (h : loadByte s ea (fun b => setReg s d (f b)) = .next t) : Completed i s t :=
  completed_of_setReg hd (loadByte_next h).2

theorem completed_of_loadWord {ea : Word} {d : Reg} (hd : destReg i = some d)
    (h : loadWord s ea (fun w => setReg s d w) = .next t) : Completed i s t :=
  completed_of_setReg hd (loadWord_next h).2.2

theorem completed_of_storeByte {ea : Word} {v : Byte} (hs : storeTarget i s = some (ea, 1)) (hd : destReg i = none)
    (h : storeByte s ea v = .next t) : Completed i s t := by
  obtain ⟨hm, -, rfl⟩ := storeByte_next h
  exact .storeByte ea v hs hd hm

theorem completed_of_storeWord {ea v : Word} (hs : storeTarget i s = some (ea, 4)) (hd : destReg i = none)
    (h : storeWord s ea v = .next t) : Completed i s t := by
  obtain ⟨-, hm, -, rfl⟩ := storeWord_next h
  exact .storeWord ea v hs hd hm

/-! ### The inversion of `exec` -/

/-- NOOP is a write to register 0, which is discarded (R22, R170). -/
theorem execNoop_eq_setReg (s : State) : exec .noop s = setReg s 0#5 0#32 := rfl

/-- Every instruction that completes has done one of the six things of `Completed`. -/
theorem exec_completed (h : exec i s = .next t) : Completed i s t := by
  cases i with
  | add | addi | sub => exact completed_of_setRegTrapping rfl h
  | addiu | addu | subu | and | andi | or | ori | xor | xori | lui => exact completed_of_setReg rfl h
  | sll | sllv | sra | srl | srlv | slt | slti | sltiu | sltu | mfhi | mflo => exact completed_of_setReg rfl h
  | noop => exact completed_of_setReg rfl (execNoop_eq_setReg s ▸ h)
  | beq | bne | bgez | bgtz | blez | bltz => exact completed_of_branch rfl rfl h
  | bgezal | bltzal => exact completed_of_branchAndLink rfl rfl h
  | j target => exact completed_of_jump rfl (.unlinked rfl) (.jump target) h
  | jal target => exact completed_of_jump rfl (.taken rfl) (.jump target) h
  | jr rs => exact completed_of_jump rfl (.unlinked rfl) (.register rs rfl) h
  | div | divu => exact completed_of_setQuotient rfl rfl h
  | mult | multu => exact completed_of_setProduct rfl rfl h
  | lb => exact completed_of_loadByte rfl h
  | lw => exact completed_of_loadWord rfl h
  | sb => exact completed_of_storeByte rfl rfl h
  | sw => exact completed_of_storeWord rfl rfl h
  | syscall =>
    obtain rfl := Host.Outcome.next.inj h
    exact .envCall rfl

/-! ### What every form keeps -/

/-- What the registers a transfer links leave alone. -/
theorem Linked.keeps {u : State} (h : Linked i s u) :
    u.npc = s.npc ∧ u.launch = s.launch ∧ u.mem = s.mem ∧ u.hi = s.hi ∧ u.lo = s.lo ∧ u.lastLoad = s.lastLoad := by
  cases h <;> simp

/-- A completed instruction has moved `npc` to `pc` (R27). -/
theorem Completed.pc_eq (h : Completed i s t) : t.pc = s.npc := by
  cases h with
  | transfer u _ _ _ hu _ => exact hu.keeps.1
  | result | storeByte | storeWord | hiLo | envCall => simp

/-- No instruction changes a parameter of the launch (R20). -/
theorem Completed.launch_eq (h : Completed i s t) : t.launch = s.launch := by
  cases h with
  | transfer u _ _ _ hu _ => exact hu.keeps.2.1
  | result | storeByte | storeWord | hiLo | envCall => simp

/-- An instruction that is no control transfer leaves `npc` four above `pc`; a control transfer completes from there only (R26,
R120). -/
theorem Completed.slot (h : Completed i s t) : t.npc = t.pc + 4#32 ∨ isTransfer i = true ∧ s.npc = s.pc + 4#32 := by
  cases h with
  | transfer _ _ hi hslot => exact .inr ⟨hi, hslot⟩
  | result | storeByte | storeWord | hiLo | envCall => exact .inl (by simp)

end Sys2Proof.Machine
end

section
/-! SUPPORT. The invariant `Inv` under each update of the state, under a reply of the environment and under an instruction. -/

namespace Sys2Proof.Machine

/-! ### Updates -/

/-- A cell after a write was there before or is the written address's. -/
theorem Memory.mem_cells_write {m : Memory} {a : Nat} {v : Byte} {c : Host.Cell} (h : c ∈ (m.write a v).cells) :
    c ∈ m.cells ∨ c.1 = a := by
  have old : ∀ {c}, c ∈ eraseCell m.cells a → c ∈ m.cells := List.mem_of_mem_filter
  unfold Memory.write writeCells at h
  split at h
  · exact .inl (old h)
  · rcases mem_insertCell.mp h with rfl | h
    · exact .inr rfl
    · exact .inl (old h)

/-- A write keeps the slot of register 0 (R22). -/
@[simp] theorem State.writeReg_x_zero (s : State) (d : Reg) (v : Word) : (s.writeReg d v).x[0] = s.x[0] := by
  unfold State.writeReg
  split
  · rfl
  · rename_i hd
    have : d.toNat ≠ 0 := fun h => hd (BitVec.eq_of_toNat_eq h)
    exact Vector.getElem_set_ne d.isLt (by decide) this

@[simp] theorem State.link_x_zero (s : State) : s.link.x[0] = s.x[0] := State.writeReg_x_zero ..

@[simp] theorem State.linkNotTaken_x_zero (s : State) : s.linkNotTaken.x[0] = s.x[0] := by
  unfold State.linkNotTaken
  split
  · exact State.writeReg_x_zero ..
  · rfl
  · exact s.link_x_zero

section
variable {s t : State}

/-- `Inv` looks at memory, the launch, the slot of register 0 and the noted load only. -/
theorem Inv.congr (h : Inv s) (hmem : t.mem = s.mem) (hlaunch : t.launch = s.launch) (hx : t.x[0] = s.x[0])
    (hload : t.lastLoad = s.lastLoad) : Inv t := by
  unfold Inv
  rw [hmem, hlaunch, hx, hload]
  exact h

theorem Inv.writeReg (h : Inv s) (d : Reg) (v : Word) : Inv (s.writeReg d v) :=
  h.congr (by simp) (by simp) (by simp) (by simp)

theorem Inv.jumpTo (h : Inv s) (target : Word) : Inv (s.jumpTo target) := h.congr rfl rfl rfl rfl

theorem Inv.advancePc (h : Inv s) (off : Word) : Inv (s.advancePc off) := h.jumpTo _

/-- A byte written inside MAPPED keeps the canonical form and adds no address outside MAPPED (R41). -/
theorem Inv.writeByte (h : Inv s) {a : Word} (ha : inMapped s.launch a.toNat = true) (v : Byte) : Inv (s.writeByte a v) := by
  obtain ⟨hwf, hmapped, hx, hload⟩ := h
  refine ⟨State.wf_writeByte hwf a v, fun c hc => ?_, hx, hload⟩
  rcases Memory.mem_cells_write hc with hc | hc
  · exact hmapped c hc
  · exact hc ▸ ha

theorem inMapped_of_allMapped {l : Launch} {a : Word} {n : Nat} (h : allMapped l a n = true) {k : Nat} (hk : k < n) :
    inMapped l (a + BitVec.ofNat 32 k).toNat = true :=
  List.all_eq_true.mp h _ (List.mem_map.mpr ⟨k, List.mem_range.mpr hk, rfl⟩)

theorem Inv.writeWord (h : Inv s) {a : Word} (ha : allMapped s.launch a 4 = true) (v : Word) : Inv (s.writeWord a v) := by
  have hk : ∀ k < 4, inMapped s.launch (a + BitVec.ofNat 32 k).toNat = true := fun _ => inMapped_of_allMapped ha
  have h0 : inMapped s.launch a.toNat = true := by simpa using hk 0 (by omega)
  exact (((h.writeByte h0 _).writeByte (hk 1 (by omega)) _).writeByte (hk 2 (by omega)) _).writeByte (hk 3 (by omega)) _

/-- LB and LW to register 0 are not noted as loads (R22, R243). -/
theorem loadedReg_ne_zero (i : Instr) : loadedReg i ≠ some 0#5 := by
  unfold loadedReg
  split <;> simp

theorem Inv.noteHazards (h : Inv s) (i : Instr) : Inv (s.noteHazards i) := by
  obtain ⟨hwf, hmapped, hx, -⟩ := h
  exact ⟨hwf, hmapped, hx, loadedReg_ne_zero i⟩

/-! ### A reply of the environment, an instruction -/

/-- An allowed reply writes bytes of MAPPED only (entry 11). -/
theorem Inv.applyReply {r : EnvReply} (h : Inv s) (hr : replyAllowed s.launch r = true) : Inv (s.applyReply r) := by
  have key : Inv (s.applyReply r) ∧ (s.applyReply r).launch = s.launch := by
    refine State.applyReply_induction (P := fun u => Inv u ∧ u.launch = s.launch) r ⟨h, rfl⟩ ?_ ?_ ?_ ?_
    · exact fun u d v ⟨hu, hl⟩ => ⟨hu.writeReg d v, by simpa using hl⟩
    · exact fun u v ⟨hu, hl⟩ => ⟨hu.congr rfl rfl rfl rfl, hl⟩
    · exact fun u v ⟨hu, hl⟩ => ⟨hu.congr rfl rfl rfl rfl, hl⟩
    · intro u c hc ⟨hu, hl⟩
      have hmapped : inMapped s.launch c.1.toNat = true := by
        have := List.all_eq_true.mp hr c hc
        simp only [Bool.and_eq_true] at this
        exact this.1
      exact ⟨hu.writeByte (hl ▸ hmapped) c.2, hl⟩
  exact key.1

theorem Inv.resume (h : Inv s) (ht : s.resume = .ok t) : Inv t := by
  rcases State.resume_ok ht with ⟨-, rfl⟩ | ⟨r, rest, -, -, hr, rfl⟩
  · exact h
  · exact (h.applyReply hr).congr rfl rfl rfl rfl

theorem Inv.linked {i : Instr} (h : Inv s) (ht : Linked i s t) : Inv t := by
  cases ht with
  | unlinked => exact h
  | taken | notTaken => exact h.congr (by simp) (by simp) (by simp) (by simp)

/-- An instruction that completes keeps the invariant: a result leaves the slot of register 0, a store stays inside MAPPED. -/
theorem Inv.completed {i : Instr} (h : Inv s) (ht : Completed i s t) : Inv t := by
  cases ht with
  | result d v => exact (h.writeReg d v).advancePc _
  | transfer u target _ _ hu => exact (h.linked hu).jumpTo target
  | hiLo | envCall => exact h.congr rfl rfl rfl rfl
  | storeByte ea v _ _ hm => exact (h.writeByte (by simpa using inMapped_of_allMapped hm Nat.one_pos) v).advancePc _
  | storeWord ea v _ _ hm => exact (h.writeWord hm v).advancePc _

end

/-- Settles O53: the resumed state, the instruction and the notes of the optional checks keep the invariant in turn. -/
theorem stepKeepsInv : Obligations.StepKeepsInv := by
  intro s t hs hstep
  obtain ⟨u, i, w, hu, -, -, -, -, hw, rfl⟩ := step_next hstep
  exact ((hs.resume hu).completed (exec_completed hw)).noteHazards i

/-- Settles O54. -/
theorem resetMeetsInv : Obligations.ResetMeetsInv :=
  ⟨reset_mem_wf, fun _ hc => absurd hc List.not_mem_nil, rfl, nofun⟩

end Sys2Proof.Machine
end

section
/-! SUPPORT. The counters, the launch and the frames, read off the forms of a completed instruction. -/

namespace Sys2Proof.Machine

variable {i : Instr} {s t u : State}

/-! ### A step, in terms of the state before it -/

/-- The word that a resumed step fetches is the one before the reply, which leaves CODE alone. -/
theorem readWord_pc_of_resume (h : s.resume = .ok t) (hc : allInCode s.launch s.pc 4 = true) :
    t.readWord s.pc = s.readWord s.pc := by
  obtain ⟨-, -, hlaunch, hcode⟩ := State.resume_keeps h
  have hk : ∀ k < 4, t.readByte (s.pc + BitVec.ofNat 32 k) = s.readByte (s.pc + BitVec.ofNat 32 k) := fun k hk =>
    hcode _ (List.all_eq_true.mp hc _ (List.mem_map.mpr ⟨k, List.mem_range.mpr hk, rfl⟩))
  have h0 : t.readByte s.pc = s.readByte s.pc := by simpa using hk 0 (by omega)
  unfold State.readWord
  rw [hlaunch, h0, hk 1 (by omega), hk 2 (by omega), hk 3 (by omega)]

/-- A step that completes runs the instruction that stands at `pc`, from a state with the same counters and launch. -/
theorem step_completed (h : step s = .next t) :
    ∃ i u w, s.resume = .ok u ∧ decode (s.readWord s.pc) = .ok i ∧ u.pc = s.pc ∧ u.npc = s.npc ∧ u.launch = s.launch ∧
      Completed i u w ∧ t = w.noteHazards i := by
  obtain ⟨u, i, w, hu, -, hc, hi, -, hw, rfl⟩ := step_next h
  obtain ⟨hpc, hnpc, hlaunch, -⟩ := State.resume_keeps hu
  rw [hpc] at hc hi
  rw [hlaunch] at hc
  rw [readWord_pc_of_resume hu hc] at hi
  exact ⟨i, u, w, hu, hi, hpc, hnpc, hlaunch, exec_completed hw, rfl⟩

/-! ### The targets of control transfers -/

theorem toNat_add_mod_four {a b : Word} (ha : a.toNat % 4 = 0) (hb : b.toNat % 4 = 0) : (a + b).toNat % 4 = 0 := by
  rw [BitVec.toNat_add]; omega

theorem toNat_add_four_mod_four {a : Word} (ha : a.toNat % 4 = 0) : (a + 4#32).toNat % 4 = 0 := toNat_add_mod_four ha rfl

/-- A branch offset is shifted left by two (R67). -/
theorem toNat_branchOffset_mod_four (imm : Imm) : (branchOffset imm).toNat % 4 = 0 := by
  rw [branchOffset, BitVec.toNat_shiftLeft, Nat.shiftLeft_eq]; omega

/-- The destination of J and JAL is a region and a target shifted left by two (R69). -/
theorem toNat_jumpTarget_mod_four (pcAfter : Word) (target : Target) : (jumpTarget pcAfter target).toNat % 4 = 0 := by
  have region : (pcAfter &&& 0xF0000000#32).toNat % 2 ^ 2 = 0 := by
    rw [BitVec.toNat_and, Nat.and_mod_two_pow]; simp
  have shifted : (target.zeroExtend 32 <<< 2).toNat % 2 ^ 2 = 0 := by
    rw [BitVec.toNat_shiftLeft, Nat.shiftLeft_eq]; omega
  show ((pcAfter &&& 0xF0000000#32) ||| (target.zeroExtend 32 <<< 2)).toNat % 2 ^ 2 = 0
  rw [BitVec.toNat_or, Nat.or_mod_two_pow, region, shifted]; rfl

/-- From an aligned `npc` every target is aligned but a register's (R28). -/
theorem TransferTarget.aligned_or_register {target : Word} (h : TransferTarget i s target) (hs : s.npc.toNat % 4 = 0) :
    target.toNat % 4 = 0 ∨ ∃ rs, i = .jr rs ∧ target = s.readReg rs := by
  cases h with
  | branch imm => exact .inl (toNat_add_mod_four hs (toNat_branchOffset_mod_four imm))
  | fallThrough => exact .inl (toNat_add_four_mod_four hs)
  | jump target => exact .inl (toNat_jumpTarget_mod_four s.npc target)
  | register rs hi => exact .inr ⟨rs, hi, rfl⟩

/-- From an aligned `npc` an instruction leaves it aligned, or is a JR (R28, R45). -/
theorem Completed.aligned_or_register (h : Completed i s t) (hs : s.npc.toNat % 4 = 0) :
    t.npc.toNat % 4 = 0 ∨ ∃ rs, i = .jr rs ∧ t.npc = s.readReg rs := by
  cases h with
  | transfer u target _ _ _ htarget => exact htarget.aligned_or_register hs
  | result | storeByte | storeWord | hiLo | envCall => exact .inl (by simpa using toNat_add_four_mod_four hs)

/-! ### Frames -/

/-- Linking changes no register but 31 (R23). -/
theorem Linked.readReg_eq {r : Reg} (h : Linked i s u) (hr : destReg i ≠ some r) : u.readReg r = s.readReg r := by
  cases h with
  | unlinked => rfl
  | taken hd => exact s.readReg_link_ne fun e => hr (e ▸ hd)
  | notTaken hd => exact s.readReg_linkNotTaken_ne fun e => hr (e ▸ hd)

theorem Completed.readReg_eq {r : Reg} (h : Completed i s t) (hr : destReg i ≠ some r) : t.readReg r = s.readReg r := by
  cases h with
  | result d v hd =>
    have hne : r ≠ d := fun e => hr (e ▸ hd)
    simpa using s.readReg_writeReg_ne hne v
  | transfer u target _ _ hu => simpa using hu.readReg_eq hr
  | hiLo | storeByte | storeWord | envCall => rfl

theorem Completed.hiLo_eq (h : Completed i s t) (hw : writesHiLo i = false) : t.hi = s.hi ∧ t.lo = s.lo := by
  cases h with
  | hiLo _ _ _ hw' => exact absurd (hw.symm.trans hw') Bool.false_ne_true
  | transfer u target _ _ hu =>
    obtain ⟨-, -, -, hhi, hlo, -⟩ := hu.keeps
    exact ⟨hhi, hlo⟩
  | result | storeByte | storeWord | envCall => simp

theorem Completed.readByte_eq {a : Word} (h : Completed i s t)
    (ha : ∀ ea n, storeTarget i s = some (ea, n) → ∀ k < n, a ≠ ea + BitVec.ofNat 32 k) : t.readByte a = s.readByte a := by
  cases h with
  | storeByte ea v hs =>
    have hne : a ≠ ea := by simpa using ha ea 1 hs 0 Nat.one_pos
    exact (s.readByte_writeByte ea a v).trans (if_neg hne)
  | storeWord ea v hs => exact s.readByte_writeWord_ne v (ha ea 4 hs)
  | transfer u target _ _ hu =>
    obtain ⟨-, -, hmem, -⟩ := hu.keeps
    exact State.readByte_congr hmem a
  | result | hiLo | envCall => exact State.readByte_congr (by simp) a

/-! ### The statements -/

/-- Settles O9. -/
theorem pcBecomesNpc : Obligations.PcBecomesNpc := by
  intro s t h
  obtain ⟨i, u, w, -, -, -, hnpc, -, hw, rfl⟩ := step_completed h
  exact hw.pc_eq.trans hnpc

/-- Settles O10: in a taken slot no control transfer completes, and nothing else moves `npc` away from `pc + 4`. -/
theorem takenSlotLastsOneStep : Obligations.TakenSlotLastsOneStep := by
  intro s t h
  obtain ⟨i, u, w, -, hi, hpc, hnpc, -, hw, rfl⟩ := step_completed h
  rcases hw.slot with hslot | ⟨htransfer, hslot⟩
  · exact ⟨fun _ => hslot, fun hne => absurd hslot hne⟩
  · rw [hnpc, hpc] at hslot
    exact ⟨fun hne => absurd hslot hne, fun _ => ⟨i, hi, htransfer⟩⟩

/-- Settles O11. -/
theorem onlyJrMisaligns : Obligations.OnlyJrMisaligns := by
  intro s t hrun h hs
  obtain ⟨i, u, w, hu, hi, -, -, -, hw, rfl⟩ := step_completed h
  rw [State.resume_of_running hrun] at hu
  obtain rfl := Except.ok.inj hu
  rcases hw.aligned_or_register hs with haligned | ⟨rs, rfl, hnpc⟩
  · exact .inl haligned
  · exact .inr ⟨rs, hi, hnpc⟩

/-- Settles O12. -/
theorem launchFixed : Obligations.LaunchFixed := by
  intro s t h
  obtain ⟨i, u, w, -, -, -, -, hlaunch, hw, rfl⟩ := step_completed h
  exact hw.launch_eq.trans hlaunch

/-- Settles O41. -/
theorem registerFrame : Obligations.RegisterFrame := fun _ _ _ h _ hr => (exec_completed h).readReg_eq hr

/-- Settles O42. -/
theorem hiLoFrame : Obligations.HiLoFrame := fun _ _ _ h hw => (exec_completed h).hiLo_eq hw

/-- Settles O43. -/
theorem memoryFrame : Obligations.MemoryFrame := fun _ _ _ h _ ha => (exec_completed h).readByte_eq ha

end Sys2Proof.Machine
end

section
/-! SUPPORT. Noninterference (10_state.md R24): an instruction does the same, up to a change of registers, `hi` and `lo` that it
neither reads nor writes. -/

namespace Sys2Proof.Machine

/-! ### A change of registers, `hi` and `lo` -/

/-- The state with the register file, `hi` and `lo` replaced by functions of themselves. -/
def State.mapRegs (s : State) (X : Vector Word 32 → Vector Word 32) (H L : Word → Word) : State :=
  { s with x := X s.x, hi := H s.hi, lo := L s.lo }

theorem withHiLo_eq_mapRegs (s : State) (h l : Word) : withHiLo s h l = s.mapRegs id (fun _ => h) (fun _ => l) := rfl

/-- What `x[r] <- v` does to the register file (R7, R22). -/
def setSlot (r : Reg) (v : Word) (x : Vector Word 32) : Vector Word 32 := if r = 0#5 then x else x.set r.toNat v r.isLt

theorem State.writeReg_eq_mapRegs (s : State) (r : Reg) (v : Word) : s.writeReg r v = s.mapRegs (setSlot r v) id id := by
  unfold State.writeReg State.mapRegs setSlot
  split <;> rfl

/-- The change `X` of the register file commutes with every write to `x[d]`. -/
def CommutesWithSlot (X : Vector Word 32 → Vector Word 32) (d : Reg) : Prop := ∀ v x, X (setSlot d v x) = setSlot d v (X x)

/-- Writes to two registers commute. -/
theorem setSlot_commutes {r d : Reg} (h : r ≠ d) (v : Word) : CommutesWithSlot (setSlot r v) d := by
  intro w x
  have hne : d.toNat ≠ r.toNat := fun e => h (BitVec.eq_of_toNat_eq e.symm)
  unfold setSlot
  by_cases hr : r = 0#5
  · simp [hr]
  · by_cases hd : d = 0#5
    · simp [hd]
    · simpa [hr, hd] using Vector.set_comm w v hne

section
variable {X : Vector Word 32 → Vector Word 32} {H L : Word → Word} {s : State}

theorem State.mapRegs_writeReg {d : Reg} (hX : CommutesWithSlot X d) (s : State) (v : Word) :
    (s.writeReg d v).mapRegs X H L = (s.mapRegs X H L).writeReg d v := by
  rw [State.writeReg_eq_mapRegs, State.writeReg_eq_mapRegs]
  simp [State.mapRegs, hX v s.x]

theorem State.mapRegs_link (hX : CommutesWithSlot X 31#5) (s : State) :
    s.link.mapRegs X H L = (s.mapRegs X H L).link := State.mapRegs_writeReg hX s _

theorem State.mapRegs_linkNotTaken (hX : CommutesWithSlot X 31#5) (s : State) :
    s.linkNotTaken.mapRegs X H L = (s.mapRegs X H L).linkNotTaken := by
  have hlaunch : (s.mapRegs X H L).launch = s.launch := rfl
  unfold State.linkNotTaken
  rw [hlaunch]
  split
  · exact State.mapRegs_writeReg hX s.afterDraw _
  · rfl
  · exact State.mapRegs_link hX s

/-! ### The shared operations under such a change -/

theorem setReg_mapRegs {d : Reg} {v w : Word} (hX : CommutesWithSlot X d) (hv : v = w) :
    setReg (s.mapRegs X H L) d v = mapNext (·.mapRegs X H L) (setReg s d w) := by
  subst hv
  exact congrArg (fun t : State => advance t) (State.mapRegs_writeReg hX s v).symm

theorem setRegTrapping_mapRegs {o p : Bool} {d : Reg} {v w : Word} (hX : CommutesWithSlot X d)
    (ho : o = p) (hv : v = w) :
    setRegTrapping (s.mapRegs X H L) o d v = mapNext (·.mapRegs X H L) (setRegTrapping s p d w) := by
  subst ho
  cases o with
  | true => rfl
  | false => exact setReg_mapRegs hX hv

theorem transfer_mapRegs {t u : State} (ht : t = u.mapRegs X H L) :
    transfer (s.mapRegs X H L) t = mapNext (·.mapRegs X H L) (transfer s u) := by
  subst ht
  by_cases hslot : s.npc = s.pc + 4#32
  · rw [transfer_of_eq hslot]; exact transfer_of_eq hslot
  · rw [transfer_of_ne hslot]; exact transfer_of_ne hslot

theorem branch_mapRegs {b c : Bool} {imm : Imm} (hb : b = c) :
    branch (s.mapRegs X H L) b imm = mapNext (·.mapRegs X H L) (branch s c imm) := by
  subst hb
  exact transfer_mapRegs rfl

theorem branchAndLink_mapRegs {b c : Bool} {imm : Imm} (hX : CommutesWithSlot X 31#5) (hb : b = c) :
    branchAndLink (s.mapRegs X H L) b imm = mapNext (·.mapRegs X H L) (branchAndLink s c imm) := by
  subst hb
  refine transfer_mapRegs ?_
  cases b with
  | true => exact congrArg (State.advancePc · (branchOffset imm)) (State.mapRegs_link hX s).symm
  | false => exact congrArg (State.advancePc · 4#32) (State.mapRegs_linkNotTaken hX s).symm

theorem loadByte_mapRegs {a b : Word} {use use' : Byte → Result} (ha : a = b)
    (huse : ∀ v, use v = mapNext (·.mapRegs X H L) (use' v)) :
    loadByte (s.mapRegs X H L) a use = mapNext (·.mapRegs X H L) (loadByte s b use') := by
  subst ha
  unfold loadByte
  rw [show (s.mapRegs X H L).launch = s.launch from rfl]
  split
  · exact huse _
  · rfl

theorem loadWord_mapRegs {a b : Word} {use use' : Word → Result} (ha : a = b)
    (huse : ∀ v, use v = mapNext (·.mapRegs X H L) (use' v)) :
    loadWord (s.mapRegs X H L) a use = mapNext (·.mapRegs X H L) (loadWord s b use') := by
  subst ha
  unfold loadWord
  rw [show (s.mapRegs X H L).launch = s.launch from rfl]
  split
  · split
    · exact huse _
    · rfl
  · rfl

theorem storeChecks_mapRegs {a : Word} {n : Nat} {go go' : Result} (hgo : go = mapNext (·.mapRegs X H L) go') :
    storeChecks (s.mapRegs X H L) a n go = mapNext (·.mapRegs X H L) (storeChecks s a n go') := by
  subst hgo
  unfold storeChecks
  rw [show (s.mapRegs X H L).launch = s.launch from rfl]
  split
  · split <;> rfl
  · rfl

theorem storeByte_mapRegs {a b : Word} {v w : Byte} (ha : a = b) (hv : v = w) :
    storeByte (s.mapRegs X H L) a v = mapNext (·.mapRegs X H L) (storeByte s b w) := by
  subst ha hv
  exact storeChecks_mapRegs rfl

theorem storeWord_mapRegs {a b v w : Word} (ha : a = b) (hv : v = w) :
    storeWord (s.mapRegs X H L) a v = mapNext (·.mapRegs X H L) (storeWord s b w) := by
  subst ha hv
  unfold storeWord
  split
  · exact storeChecks_mapRegs rfl
  · rfl

theorem setProduct_mapRegs {p q : Int} (hp : p = q) :
    setProduct (s.mapRegs X id id) p = mapNext (·.mapRegs X id id) (setProduct s q) := by
  subst hp
  simp only [setProduct, State.multHi]
  rw [show ((s.mapRegs X id id).setLo (productLow p)).launch = (s.setLo (productLow p)).launch from rfl]
  split <;> rfl

theorem setQuotient_mapRegs {b c : Bool} {q q' r r' : Word} (hb : b = c) (hq : q = q') (hr : r = r') :
    setQuotient (s.mapRegs X id id) b q r = mapNext (·.mapRegs X id id) (setQuotient s c q' r') := by
  subst hb hq hr
  cases b <;> rfl

/-! ### Every instruction under such a change -/

/-- Where the change leaves alone what the instruction `i` reads and commutes with what it writes, it commutes with `i`. -/
theorem exec_mapRegs {i : Instr} (hreads : ∀ r ∈ readsRegs i, (s.mapRegs X H L).readReg r = s.readReg r)
    (hdest : ∀ d, destReg i = some d → CommutesWithSlot X d)
    (hhiLo : readsHiLo i = true ∨ writesHiLo i = true → H = id ∧ L = id) :
    exec i (s.mapRegs X H L) = mapNext (·.mapRegs X H L) (exec i s) := by
  have two {rs rt : Reg} (h : readsRegs i = [rs, rt]) :
      (s.mapRegs X H L).readReg rs = s.readReg rs ∧ (s.mapRegs X H L).readReg rt = s.readReg rt :=
    ⟨hreads rs (by simp [h]), hreads rt (by simp [h])⟩
  have one {r : Reg} (h : readsRegs i = [r]) : (s.mapRegs X H L).readReg r = s.readReg r := hreads r (by simp [h])
  cases i with
  | add | sub =>
    obtain ⟨hs, ht⟩ := two rfl
    exact setRegTrapping_mapRegs (hdest _ rfl) (by rw [hs, ht]) (by rw [hs, ht])
  | addi =>
    exact setRegTrapping_mapRegs (hdest _ rfl) (by rw [one rfl]) (by rw [one rfl])
  | addu | subu | and | or | xor | slt | sltu | sllv | srlv =>
    obtain ⟨hs, ht⟩ := two rfl
    exact setReg_mapRegs (hdest _ rfl) (by rw [hs, ht])
  | addiu | andi | ori | xori | slti | sltiu | sll | srl | sra =>
    exact setReg_mapRegs (hdest _ rfl) (by rw [one rfl])
  | lui => exact setReg_mapRegs (hdest _ rfl) rfl
  | noop | syscall => rfl
  | mfhi | mflo =>
    obtain ⟨rfl, rfl⟩ := hhiLo (.inl rfl)
    exact setReg_mapRegs (hdest _ rfl) rfl
  | beq | bne =>
    obtain ⟨hs, ht⟩ := two rfl
    exact branch_mapRegs (by rw [hs, ht])
  | bgez | bgtz | blez | bltz => exact branch_mapRegs (by rw [one rfl])
  | bgezal | bltzal => exact branchAndLink_mapRegs (hdest _ rfl) (by rw [one rfl])
  | j => exact transfer_mapRegs rfl
  | jal target =>
    exact transfer_mapRegs (congrArg (State.jumpTo · (jumpTarget s.npc target)) (State.mapRegs_link (hdest _ rfl) s).symm)
  | jr => exact transfer_mapRegs (by rw [one rfl]; rfl)
  | lb => exact loadByte_mapRegs (by rw [one rfl]) fun _ => setReg_mapRegs (hdest _ rfl) rfl
  | lw => exact loadWord_mapRegs (by rw [one rfl]) fun _ => setReg_mapRegs (hdest _ rfl) rfl
  | sb =>
    obtain ⟨hs, ht⟩ := two rfl
    exact storeByte_mapRegs (by rw [hs]) (by rw [ht])
  | sw =>
    obtain ⟨hs, ht⟩ := two rfl
    exact storeWord_mapRegs (by rw [hs]) ht
  | mult | multu =>
    obtain ⟨rfl, rfl⟩ := hhiLo (.inr rfl)
    obtain ⟨hs, ht⟩ := two rfl
    exact setProduct_mapRegs (by rw [hs, ht])
  | div | divu =>
    obtain ⟨rfl, rfl⟩ := hhiLo (.inr rfl)
    obtain ⟨hs, ht⟩ := two rfl
    exact setQuotient_mapRegs (by simp only [hs, ht]) (by rw [hs, ht]) (by rw [hs, ht])

end

/-! ### The instructions that write `hi` and `lo`, with other values in them before -/

/-- A division replaces both values. -/
theorem setQuotient_withHiLo (s : State) (h l : Word) (b : Bool) (q r : Word) :
    setQuotient (withHiLo s h l) b q r = setQuotient s b q r := by
  cases b <;> rfl

theorem mapNext_self (o : Result) : mapNext (fun t => t) o = o := by
  cases o <;> rfl

/-- A multiply replaces `lo`, and `hi` but under `unchanged` (R144). -/
theorem setProduct_withHiLo (s : State) (h l : Word) (p : Int) :
    setProduct (withHiLo s h l) p =
      mapNext (fun t => withHiLo t (if s.launch.multHi != .unchanged then t.hi else h) t.lo) (setProduct s p) := by
  simp only [setProduct, State.multHi]
  rw [show ((withHiLo s h l).setLo (productLow p)).launch = s.launch from rfl, State.setLo_launch]
  cases s.launch.multHi <;> rfl

/-! ### The statements -/

/-- Settles O45: writing such a register is a change that the instruction commutes with. -/
theorem onlyNamedRegistersRead : Obligations.OnlyNamedRegistersRead := by
  intro i s r v hreads hdest
  simp only [State.writeReg_eq_mapRegs]
  refine exec_mapRegs (fun q hq => ?_) (fun d hd => ?_) fun _ => ⟨rfl, rfl⟩
  · have hne : q ≠ r := by
      rintro rfl
      rw [List.contains_iff_mem.mpr hq] at hreads
      exact Bool.noConfusion hreads
    rw [← State.writeReg_eq_mapRegs]
    exact s.readReg_writeReg_ne hne v
  · exact setSlot_commutes (fun e : r = d => hdest (e ▸ hd)) v

/-- Settles O44: the instructions that write `hi` or `lo` one by one, the others by commuting with the change. -/
theorem onlyMovesReadHiLo : Obligations.OnlyMovesReadHiLo := by
  intro i s h l hmoves
  by_cases hw : writesHiLo i = true
  · cases i with
    | mult | multu => exact setProduct_withHiLo s h l _
    | div | divu => exact (setQuotient_withHiLo s h l _ _ _).trans (mapNext_self _).symm
    | _ => exact absurd hw Bool.false_ne_true
  · have hset : setsHi i s = false := by
      cases i with
      | mult | multu | div | divu => exact absurd rfl hw
      | _ => rfl
    simp only [hset, hw, withHiLo_eq_mapRegs]
    exact exec_mapRegs (fun _ _ => rfl) (fun _ _ _ _ => rfl) fun hhiLo => by simp [hmoves, hw] at hhiLo

end Sys2Proof.Machine
end

section
/-! SUPPORT. Register 0 (10_state.md R22), the instruction cycle (R27) and the values after reset (R32). -/

namespace Sys2Proof.Machine

variable {s t : State}

/-! ### Register 0 -/

@[simp] theorem State.writeReg_zero (s : State) (v : Word) : s.writeReg 0#5 v = s := rfl

/-- An instruction with destination 0 only advances (R22). -/
theorem Completed.eq_advancePc {i : Instr} (h : Completed i s t) (hd : destReg i = some 0#5) : t = s.advancePc 4#32 := by
  cases h with
  | result d v hd' =>
    obtain rfl := Option.some.inj (hd'.symm.trans hd)
    rw [State.writeReg_zero]
  | transfer u target _ _ hu =>
    cases hu with
    | unlinked hd' => exact absurd (hd'.symm.trans hd) nofun
    | taken hd' | notTaken hd' => exact absurd (hd'.symm.trans hd) (by decide)
  | hiLo _ _ _ _ hd' | storeByte _ _ _ hd' | storeWord _ _ _ hd' => exact absurd (hd'.symm.trans hd) nofun
  | envCall hi => exact absurd (hi ▸ hd) nofun

/-- A trapping instruction raises Overflow whatever its destination is (R22, R100). -/
theorem setRegTrapping_fault_iff {o : Bool} {d : Reg} {v : Word} {f : Fault} :
    setRegTrapping s o d v = .fault f ↔ o = true ∧ .overflow s.pc s.npc = f := by
  cases o <;> simp [setRegTrapping]

/-- A load whose use of the byte completes raises by its address alone (R48). -/
theorem loadByte_fault_iff {ea : Word} {d : Reg} {v : Byte → Word} {f : Fault} :
    loadByte s ea (fun b => setReg s d (v b)) = .fault f ↔ allMapped s.launch ea 1 = false ∧ .busErrorData ea s.pc s.npc = f := by
  unfold loadByte
  split <;> simp_all

theorem loadWord_fault_iff {ea : Word} {d : Reg} {f : Fault} :
    loadWord s ea (fun w => setReg s d w) = .fault f ↔
      (aligned4 ea = false ∧ .addressErrorLoad ea s.pc s.npc = f) ∨
        (aligned4 ea = true ∧ allMapped s.launch ea 4 = false ∧ .busErrorData ea s.pc s.npc = f) := by
  unfold loadWord
  split
  · split <;> simp_all
  · simp_all

/-- Settles O46: a completed instruction with destination 0 has only advanced, and no fault depends on the destination. -/
theorem registerZero : Obligations.RegisterZero := by
  refine ⟨fun s v => ⟨s.readReg_zero, s.writeReg_zero v⟩, fun i s t hd h => ?_, fun rs rt d imm s f => ⟨?_, ?_, ?_, ?_, ?_⟩⟩
  · rw [(exec_completed h).eq_advancePc hd]
    rfl
  · exact setRegTrapping_fault_iff.trans setRegTrapping_fault_iff.symm
  · exact setRegTrapping_fault_iff.trans setRegTrapping_fault_iff.symm
  · exact setRegTrapping_fault_iff.trans setRegTrapping_fault_iff.symm
  · exact loadByte_fault_iff.trans loadByte_fault_iff.symm
  · exact loadWord_fault_iff.trans loadWord_fault_iff.symm

/-! ### The instruction cycle -/

theorem step_of_running (h : s.run = .running) : step s = cycle s := by
  rw [step, State.resume_of_running h]

theorem cycle_of_misaligned (h : s.pc.toNat % 4 ≠ 0) : cycle s = .fault (.addressErrorFetch s.pc s.npc) := by
  rw [cycle, fetch, if_neg (mt (aligned4_iff s.pc).mp h), raise_eq]

theorem cycle_of_not_code (h : s.pc.toNat % 4 = 0) (hc : allInCode s.launch s.pc 4 = false) :
    cycle s = .fault (.busErrorFetch s.pc s.npc) := by
  rw [cycle, fetch, if_pos ((aligned4_iff s.pc).mpr h), hc, if_neg Bool.false_ne_true, raise_eq]

theorem cycle_of_code (h : s.pc.toNat % 4 = 0) (hc : allInCode s.launch s.pc 4 = true) :
    cycle s = runWord (s.readWord s.pc) s := by
  rw [cycle, fetch, if_pos ((aligned4_iff s.pc).mpr h), if_pos hc]

theorem runWord_of_error {w : Word} {e : DecodeError} (h : decode w = .error e) :
    runWord w s = .fault (.reservedInstruction w s.pc s.npc) := by
  rw [runWord, h, raise_eq]

theorem runWord_of_ok {w : Word} {i : Instr} (h : decode w = .ok i) : runWord w s = runInstr i s := by
  rw [runWord, h]

theorem runInstr_of_hazard {i : Instr} {r : Refusal} (h : hazardCheck i s = some r) : runInstr i s = .refused r := by
  rw [runInstr, h]

theorem runInstr_of_no_hazard {i : Instr} (h : hazardCheck i s = none) : runInstr i s = noted i (exec i s) := by
  rw [runInstr, h]

/-- With both optional checks off no instruction is refused by them (R243, R244). -/
theorem hazardCheck_of_off (i : Instr) (hload : s.launch.loadDelayCheck = false) (hhiLo : s.launch.hiLoHazardCheck = false) :
    hazardCheck i s = none := by
  simp [hazardCheck, hload, hhiLo]

/-- Settles O6. -/
theorem instructionCycle : Obligations.InstructionCycle := by
  intro s hrun
  rw [step_of_running hrun]
  refine ⟨cycle_of_misaligned, cycle_of_not_code, fun hpc hc ⟨e, he⟩ => ?_, fun i hpc hc hi => ?_⟩
  · rw [cycle_of_code hpc hc, runWord_of_error he]
  · rw [cycle_of_code hpc hc, runWord_of_ok hi]
    refine ⟨fun r hr => runInstr_of_hazard hr, fun hnone => ?_, hazardCheck_of_off i⟩
    rw [runInstr_of_no_hazard hnone]
    refine ⟨fun t ht => ?_, fun f hf => ?_, fun r hr => ?_⟩
    · rw [ht]; rfl
    · rw [hf]; rfl
    · rw [hr]; rfl

/-! ### Reset -/

/-- Every register reads 0 after reset (entry 4). -/
theorem readReg_reset (r : Reg) : State.reset.readReg r = 0#32 := by
  unfold State.readReg
  split
  · rfl
  · exact Vector.getElem_replicate r.isLt

/-- Settles O55. -/
theorem resetValues : Obligations.ResetValues :=
  ⟨rfl, rfl, rfl, by decide, rfl, readReg_reset, rfl, rfl, fun _ => rfl⟩

end Sys2Proof.Machine
end

section
/-! SUPPORT. The program text (20_memory.md R53, 00_scope.md R4): a store that touches CODE is refused, so a store that completes has
touched none of it. -/

namespace Sys2Proof.Machine

variable {i : Instr} {s t : State} {ea : Word} {n : Nat}

/-! ### Stores that touch CODE -/

/-- Mapped bytes pass the check of R48, so the CODE check decides (R208). -/
theorem storeChecks_of_code {go : Result} (hm : allMapped s.launch ea n = true) (hc : someInCode s.launch ea n = true) :
    storeChecks s ea n go = .refused (.storeToCode s.pc) := by
  rw [storeChecks, if_pos hm, if_pos hc, refuse_eq]

theorem storeWord_of_aligned {v : Word} (h : ea.toNat % 4 = 0) :
    storeWord s ea v = storeChecks s ea 4 (advance (s.writeWord ea v)) := by
  rw [storeWord, if_pos ((aligned4_iff ea).mpr h)]

/-- An instruction with a store target is a store of one byte or of a word to it (R164, R165). -/
theorem exec_of_storeTarget (h : storeTarget i s = some (ea, n)) :
    (n = 1 ∧ ∃ v, exec i s = storeByte s ea v) ∨ (n = 4 ∧ ∃ v, exec i s = storeWord s ea v) := by
  cases i with
  | sb rs rt imm =>
    obtain ⟨rfl, rfl⟩ := Prod.mk.inj (Option.some.inj h)
    exact .inl ⟨rfl, _, rfl⟩
  | sw rs rt imm =>
    obtain ⟨rfl, rfl⟩ := Prod.mk.inj (Option.some.inj h)
    exact .inr ⟨rfl, _, rfl⟩
  | _ => exact absurd h nofun

theorem exec_store_of_code (h : storeTarget i s = some (ea, n)) (haligned : n = 4 → ea.toNat % 4 = 0)
    (hm : allMapped s.launch ea n = true) (hc : someInCode s.launch ea n = true) :
    exec i s = .refused (.storeToCode s.pc) := by
  rcases exec_of_storeTarget h with ⟨rfl, v, hexec⟩ | ⟨rfl, v, hexec⟩
  · exact hexec.trans (storeChecks_of_code hm hc)
  · exact hexec.trans ((storeWord_of_aligned (haligned rfl)).trans (storeChecks_of_code hm hc))

/-! ### What completes leaves CODE alone -/

theorem not_someInCode_of_exec_next (h : exec i s = .next t) (hs : storeTarget i s = some (ea, n)) :
    someInCode s.launch ea n = false := by
  rcases exec_of_storeTarget hs with ⟨rfl, v, hexec⟩ | ⟨rfl, v, hexec⟩
  · obtain ⟨-, hc, -⟩ := storeByte_next (hexec.symm.trans h)
    exact hc
  · obtain ⟨-, -, hc, -⟩ := storeWord_next (hexec.symm.trans h)
    exact hc

theorem someInCode_of_byte {l : Launch} {k : Nat} (hk : k < n) (h : inCode l (ea + BitVec.ofNat 32 k).toNat = true) :
    someInCode l ea n = true :=
  List.any_eq_true.mpr ⟨_, List.mem_map.mpr ⟨k, List.mem_range.mpr hk, rfl⟩, h⟩

/-- A byte that an instruction changes is one of its store target, of which none is in CODE. -/
theorem exec_keeps_code {a : Word} (h : exec i s = .next t) (ha : inCode s.launch a.toNat = true) :
    t.readByte a = s.readByte a := by
  refine (exec_completed h).readByte_eq fun ea n hs k hk hak => ?_
  have touched : someInCode s.launch ea n = true := someInCode_of_byte hk (hak ▸ ha)
  exact Bool.false_ne_true ((not_someInCode_of_exec_next h hs).symm.trans touched)

/-- A step has two chances to write CODE, the environment's reply and the instruction, and takes neither (entry 11, R53). -/
theorem step_keeps_code {a : Word} (h : step s = .next t) (ha : inCode s.launch a.toNat = true) :
    t.readByte a = s.readByte a := by
  obtain ⟨u, i, w, hu, -, -, -, -, hw, rfl⟩ := step_next h
  obtain ⟨-, -, hlaunch, hcode⟩ := State.resume_keeps hu
  calc (w.noteHazards i).readByte a
      _ = w.readByte a := State.readByte_congr rfl a
      _ = u.readByte a := exec_keeps_code hw (hlaunch ▸ ha)
      _ = s.readByte a := hcode a ha

/-- The word that a completed step ran lies in CODE (R48): resuming moves neither the counter nor the map. -/
theorem step_fetches_from_code (h : step s = .next t) : allInCode s.launch s.pc 4 = true := by
  obtain ⟨u, i, w, hu, -, hc, -, -, -, -⟩ := step_next h
  obtain ⟨hpc, -, hlaunch, -⟩ := State.resume_keeps hu
  exact hpc ▸ hlaunch ▸ hc

/-! ### The statement -/

/-- Settles O49. -/
theorem codeIsImmutable : Obligations.CodeIsImmutable :=
  ⟨fun _ _ _ _ => exec_store_of_code, fun _ _ => step_fetches_from_code, fun _ _ h _ => step_keeps_code h⟩

end Sys2Proof.Machine
end

section
/-! SUPPORT. The fields of a masked word, and the layouts of R62 solved for their fields (30_encoding.md R61, R62). -/

namespace Sys2Proof

/-! ### Fields of a conjunction -/

section
variable (v w : Word)

@[simp] theorem opOf_and : opOf (v &&& w) = opOf v &&& opOf w := BitVec.extractLsb'_and
@[simp] theorem sOf_and : sOf (v &&& w) = sOf v &&& sOf w := BitVec.extractLsb'_and
@[simp] theorem tOf_and : tOf (v &&& w) = tOf v &&& tOf w := BitVec.extractLsb'_and
@[simp] theorem dOf_and : dOf (v &&& w) = dOf v &&& dOf w := BitVec.extractLsb'_and
@[simp] theorem hOf_and : hOf (v &&& w) = hOf v &&& hOf w := BitVec.extractLsb'_and
@[simp] theorem functOf_and : functOf (v &&& w) = functOf v &&& functOf w := BitVec.extractLsb'_and
@[simp] theorem immOf_and : immOf (v &&& w) = immOf v &&& immOf w := BitVec.extractLsb'_and
@[simp] theorem targetOf_and : targetOf (v &&& w) = targetOf v &&& targetOf w := BitVec.extractLsb'_and

end

/-! ### Fields of a mask, which is written as a number -/

section
variable (n : Nat)

@[simp] theorem opOf_ofNat : opOf (BitVec.ofNat 32 n) = BitVec.ofNat 6 (n % 2 ^ 32 / 2 ^ 26) := by
  simp [opOf, BitVec.extractLsb', Nat.shiftRight_eq_div_pow]

@[simp] theorem sOf_ofNat : sOf (BitVec.ofNat 32 n) = BitVec.ofNat 5 (n % 2 ^ 32 / 2 ^ 21) := by
  simp [sOf, BitVec.extractLsb', Nat.shiftRight_eq_div_pow]

@[simp] theorem tOf_ofNat : tOf (BitVec.ofNat 32 n) = BitVec.ofNat 5 (n % 2 ^ 32 / 2 ^ 16) := by
  simp [tOf, BitVec.extractLsb', Nat.shiftRight_eq_div_pow]

@[simp] theorem dOf_ofNat : dOf (BitVec.ofNat 32 n) = BitVec.ofNat 5 (n % 2 ^ 32 / 2 ^ 11) := by
  simp [dOf, BitVec.extractLsb', Nat.shiftRight_eq_div_pow]

@[simp] theorem hOf_ofNat : hOf (BitVec.ofNat 32 n) = BitVec.ofNat 5 (n % 2 ^ 32 / 2 ^ 6) := by
  simp [hOf, BitVec.extractLsb', Nat.shiftRight_eq_div_pow]

@[simp] theorem functOf_ofNat : functOf (BitVec.ofNat 32 n) = BitVec.ofNat 6 (n % 2 ^ 32) := by
  simp [functOf, BitVec.extractLsb']

@[simp] theorem immOf_ofNat : immOf (BitVec.ofNat 32 n) = BitVec.ofNat 16 (n % 2 ^ 32) := by
  simp [immOf, BitVec.extractLsb']

@[simp] theorem targetOf_ofNat : targetOf (BitVec.ofNat 32 n) = BitVec.ofNat 26 (n % 2 ^ 32) := by
  simp [targetOf, BitVec.extractLsb']

end

/-! ### A mask of ones, as the number that `simp` makes of it -/

@[simp] theorem and_ones_five (x : BitVec 5) : x &&& 31#5 = x := BitVec.and_allOnes
@[simp] theorem and_ones_six (x : BitVec 6) : x &&& 63#6 = x := BitVec.and_allOnes
@[simp] theorem and_ones_imm (x : Imm) : x &&& 65535#16 = x := BitVec.and_allOnes
@[simp] theorem and_ones_target (x : Target) : x &&& 67108863#26 = x := BitVec.and_allOnes
@[simp] theorem and_ones_word (x : Word) : x &&& 4294967295#32 = x := BitVec.and_allOnes

/-- A row without hyphen bits clears nothing. -/
theorem and_not_zero (w : Word) : w &&& ~~~0#32 = w := by simp

/-! ### Words and layouts, field by field -/

theorem word_eq_iff {v w : Word} : v = w ↔
    opOf v = opOf w ∧ sOf v = sOf w ∧ tOf v = tOf w ∧ dOf v = dOf w ∧ hOf v = hOf w ∧ functOf v = functOf w := by
  constructor
  · rintro rfl; simp
  · rintro ⟨hop, hs, ht, hd, hh, hf⟩
    rw [word_eq_rFields v, word_eq_rFields w, hop, hs, ht, hd, hh, hf]

theorem rWord_eq_iff {rs rt rd : Reg} {h : Shamt} {f : BitVec 6} {w : Word} : rWord rs rt rd h f = w ↔
    opOf w = 0#6 ∧ sOf w = rs ∧ tOf w = rt ∧ dOf w = rd ∧ hOf w = h ∧ functOf w = f := by
  constructor
  · rintro rfl; simp
  · rintro ⟨hop, rfl, rfl, rfl, rfl, rfl⟩; exact (word_eq_rWord hop).symm

theorem iWord_eq_iff {op : BitVec 6} {rs rt : Reg} {imm : Imm} {w : Word} : iWord op rs rt imm = w ↔
    opOf w = op ∧ sOf w = rs ∧ tOf w = rt ∧ immOf w = imm := by
  constructor
  · rintro rfl; simp
  · rintro ⟨rfl, rfl, rfl, rfl⟩; exact (word_eq_iFields w).symm

theorem jWord_eq_iff {op : BitVec 6} {target : Target} {w : Word} :
    jWord op target = w ↔ opOf w = op ∧ targetOf w = target := by
  constructor
  · rintro rfl; simp
  · rintro ⟨rfl, rfl⟩; exact (word_eq_jFields w).symm

end Sys2Proof
end

section
/-! SUPPORT. The law of the encoded word (30_encoding.md R63, R72), for all rows at once. -/

namespace Sys2Proof.Laws.MapRow

/-- The laws above, as one law about every instruction. -/
theorem every_row (i : Instr) : Statement i := by
  cases i <;> simp only [add, addi, addiu, addu, and, andi, beq, bgez, bgezal, bgtz, blez, bltz, bltzal, bne, div, divu, j, jal, jr,
    lb, lui, lw, mfhi, mflo, mult, multu, noop, or, ori, sb, sll, sllv, slt, slti, sltiu, sltu, sra, srl, srlv, sub, subu, sw,
    syscall, xor, xori]

end Sys2Proof.Laws.MapRow
end

section
/-! SUPPORT. The decoder and the encoder (30_encoding.md R63, R71 to R75), said once: a word decodes to `i` exactly when `i` is well
formed and its encoding is the word without the hyphen bits of its row. -/

namespace Sys2Proof.Machine

variable {w : Word} {i j : Instr}

/-! ### The words of an instruction -/

/-- `w` is a word of the well-formed instruction `i`: its encoding, with any hyphen bits (R63; entry 16). -/
def IsWordOf (w : Word) (i : Instr) : Prop := i.wellFormed = true ∧ encode i = w &&& ~~~i.hyphenBits

/-- An SLL is well formed unless its word is NOOP's (R71; entry 15). -/
theorem wellFormed_sll_iff {rs rt rd : Reg} {h : Shamt} :
    (Instr.sll rs rt rd h).wellFormed = true ↔ encode (.sll rs rt rd h) ≠ 0#32 := by
  simp [Instr.wellFormed, encode, rWord_eq_zero, imp_iff_not_or, or_assoc]

/-- The encoder writes 0 in the hyphen bits (entry 16). -/
theorem encode_and_not_hyphenBits (i : Instr) : encode i &&& ~~~i.hyphenBits = encode i := by
  cases i with
  | xor | sllv | srl | sra | syscall => simp [encode, Instr.hyphenBits.eq_def, word_eq_iff]
  | lui => simp [encode, Instr.hyphenBits.eq_def, eq_comm, iWord_eq_iff]
  | _ => exact and_not_zero _

theorem isWordOf_encode (hwf : i.wellFormed = true) : IsWordOf (encode i) i := ⟨hwf, (encode_and_not_hyphenBits i).symm⟩

/-! ### What the decoder answers, table by table -/

theorem fixedZero_eq_ok {b : Bool} : fixedZero b i = .ok j ↔ b = true ∧ i = j := by
  cases b <;> simp [fixedZero]

theorem zeroSelector_eq_ok : zeroSelector w i = .ok j ↔ tOf w = 0#5 ∧ i = j := by
  unfold zeroSelector; split <;> simp [*]

/-- The third table of R72: NOOP or SLL, the rows without must-be-0 bits, and those with them. -/
theorem decodeSpecial_isWordOf (hop : opOf w = 0#6) (h : decodeSpecial w = .ok i) : IsWordOf w i := by
  unfold decodeSpecial at h
  split at h
  case h_1 hf =>
    have hsll : encode (.sll (sOf w) (tOf w) (dOf w) (hOf w)) = w := by simp [encode, rWord_eq_iff, hop, hf]
    split at h
    next hw => cases h; exact ⟨rfl, hw ▸ rfl⟩
    next hw => cases h; exact ⟨wellFormed_sll_iff.mpr (by rwa [hsll]), hsll.trans (and_not_zero w).symm⟩
  case h_2 hf | h_3 hf | h_4 hf | h_7 hf | h_20 hf =>
    cases h
    simp [IsWordOf, Instr.wellFormed, encode, Instr.hyphenBits.eq_def, rWord_eq_iff, hop, hf]
  case h_23 => cases h
  all_goals
    rename_i hf
    obtain ⟨hzero, rfl⟩ := fixedZero_eq_ok.mp h
    simp only [Bool.and_eq_true, beq_iff_eq] at hzero
    simp [IsWordOf, Instr.wellFormed, encode, Instr.hyphenBits.eq_def, rWord_eq_iff, hop, hf, hzero]

/-- The second table of R72, of the four branches with `op = 000001`. -/
theorem decodeSelector_isWordOf (hop : opOf w = 1#6) (h : decodeSelector w = .ok i) : IsWordOf w i := by
  unfold decodeSelector at h
  split at h
  case h_5 => cases h
  all_goals
    rename_i ht
    cases h
    simp [IsWordOf, Instr.wellFormed, encode, Instr.hyphenBits.eq_def, iWord_eq_iff, hop, ht]

/-- The first table of R72: BLEZ and BGTZ have must-be-0 bits, the other rows are chosen by `op` alone. -/
theorem decode_isWordOf (h : decode w = .ok i) : IsWordOf w i := by
  unfold decode at h
  split at h
  case h_1 hop => exact decodeSpecial_isWordOf hop h
  case h_2 hop => exact decodeSelector_isWordOf hop h
  case h_7 hop | h_8 hop =>
    obtain ⟨ht, rfl⟩ := zeroSelector_eq_ok.mp h
    simp [IsWordOf, Instr.wellFormed, encode, Instr.hyphenBits.eq_def, iWord_eq_iff, hop, ht]
  case h_21 => cases h
  all_goals
    rename_i hop
    cases h
    simp [IsWordOf, Instr.wellFormed, encode, Instr.hyphenBits.eq_def, iWord_eq_iff, jWord_eq_iff, hop]

/-- The decoder finds the row of `i`, whose must-be-0 bits are 0. Where the row has hyphen bits, the word is its encoding in the
other fields only. -/
theorem decode_of_isWordOf (h : IsWordOf w i) : decode w = .ok i := by
  obtain ⟨hwf, hw⟩ := h
  cases i with
  | xor | sllv | srl | sra | syscall =>
    have hfields := rWord_eq_iff.mp hw
    simp [Instr.hyphenBits.eq_def] at hfields
    simp [decode, decodeSpecial, hfields]
  | lui =>
    have hfields := iWord_eq_iff.mp hw
    simp [Instr.hyphenBits.eq_def] at hfields
    simp [decode, hfields]
  | noop =>
    obtain rfl : 0#32 = w := hw.trans (and_not_zero _)
    rfl
  | sll =>
    obtain rfl := hw.trans (and_not_zero _)
    have hne := wellFormed_sll_iff.mp hwf
    simp only [encode, BitVec.ofNat_eq_ofNat] at hne ⊢
    simp [decode, decodeSpecial, hne]
  | _ =>
    obtain rfl := hw.trans (and_not_zero _)
    simp [encode, decode, decodeSpecial, decodeSelector, zeroSelector, fixedZero]

/-- The decoder, said once. -/
theorem decode_eq_ok_iff : decode w = .ok i ↔ IsWordOf w i := ⟨decode_isWordOf, decode_of_isWordOf⟩

/-! ### The masks of the opcode map -/

/-- No hyphen bit is a bit of the mask (R63). -/
theorem not_hyphenBits_and_mapMask (i : Instr) : ~~~i.hyphenBits &&& i.mapMask = i.mapMask := by
  cases i <;> simp [Instr.mapMask, Instr.hyphenBits.eq_def]

/-- A word of `i` has the mask bits of its encoding, so it matches the row of `i`. -/
theorem IsWordOf.matchesRow (h : IsWordOf w i) : MatchesRow w i := by
  obtain ⟨-, hw⟩ := h
  calc w &&& i.mapMask
      _ = w &&& ~~~i.hyphenBits &&& i.mapMask := by rw [BitVec.and_assoc, not_hyphenBits_and_mapMask]
      _ = encode i &&& i.mapMask := by rw [hw]
      _ = i.mapMatch := Laws.MapRow.every_row i

/-- The mask bits of a row lead the decoder to that row; at the all-zero word NOOP comes before SLL (R71). -/
theorem MatchesRow.exists_decode (h : MatchesRow w i) (hw : w ≠ 0#32) : ∃ j, decode w = .ok j ∧ SameRow i j := by
  cases i with
  | noop => exact absurd ((and_ones_word w).symm.trans h) hw
  | _ =>
    have hfields := word_eq_iff.mp h
    simp [Instr.mapMask, Instr.mapMatch] at hfields
    simp [decode, decodeSpecial, decodeSelector, zeroSelector, fixedZero, hfields, hw]
    exact ⟨rfl, rfl⟩

/-- The all-zero word matches the rows of NOOP and SLL alone (R63, R71). -/
theorem MatchesRow.row_of_zero (h : MatchesRow 0#32 i) : SameRow i .noop ∨ SameRow i (.sll 0 0 0 0) := by
  cases i with
  | noop => exact .inl ⟨rfl, rfl⟩
  | sll => exact .inr ⟨rfl, rfl⟩
  | _ => simp [MatchesRow, Instr.mapMask, Instr.mapMatch] at h

theorem sameRow_of_matchesRow (hi : MatchesRow w i) (hj : MatchesRow w j) (hw : w ≠ 0#32) : SameRow i j := by
  obtain ⟨k, hk, hik⟩ := hi.exists_decode hw
  obtain ⟨l, hl, hjl⟩ := hj.exists_decode hw
  obtain rfl : k = l := Except.ok.inj (hk.symm.trans hl)
  exact ⟨hik.1.trans hjl.1.symm, hik.2.trans hjl.2.symm⟩

theorem decode_error_iff : (∃ e, decode w = .error e) ↔ ∀ i, ¬MatchesRow w i := by
  constructor
  · rintro ⟨e, he⟩ i hi
    by_cases hw : w = 0#32
    · subst hw; exact nomatch he
    · obtain ⟨j, hj, -⟩ := hi.exists_decode hw
      exact nomatch he.symm.trans hj
  · intro hnone
    cases hd : decode w with
    | error e => exact ⟨e, rfl⟩
    | ok i => exact absurd (decode_eq_ok_iff.mp hd).matchesRow (hnone i)

/-! ### The statements -/

/-- Settles O1: the encoding of a well-formed instruction is one of its words. -/
theorem decodeOfEncode : Obligations.DecodeOfEncode := fun _ hwf => decode_eq_ok_iff.mpr (isWordOf_encode hwf)

/-- Settles O2: a word decodes to an instruction only if it is one of its words. -/
theorem encodeOfDecode : Obligations.EncodeOfDecode := fun _ _ => decode_eq_ok_iff.mp

/-- Settles O3: the clauses about hyphen bits and decoded rows rest on the words of an instruction, the others on the decoder's
answer at a word that matches a row. -/
theorem decodeRule : Obligations.DecodeRule := by
  intro w
  refine ⟨fun i h => (decode_eq_ok_iff.mp h).matchesRow, fun i => MatchesRow.exists_decode, fun i j hi hj => ?_, rfl, rfl,
    decode_error_iff, fun i v h hv => ?_⟩
  · by_cases hw : w = 0#32
    · subst hw; exact .inr ⟨rfl, hi.row_of_zero, hj.row_of_zero⟩
    · exact .inl (sameRow_of_matchesRow hi hj hw)
  · obtain ⟨hwf, hencode⟩ := decode_eq_ok_iff.mp h
    exact decode_eq_ok_iff.mpr ⟨hwf, hencode.trans hv.symm⟩

end Sys2Proof.Machine
end

section
/-! SUPPORT. The assembler statements (30_encoding.md R77, R78): how a list of operands is printed. -/

namespace Sys2Proof.Machine

/-! ### Operand lists -/

section
variable (name a b c : String)

theorem operandsText_nil : operandsText name [] = name := rfl
theorem operandsText_one : operandsText name [a] = name ++ " " ++ a := rfl
theorem operandsText_two : operandsText name [a, b] = name ++ " " ++ (a ++ ", " ++ b) := rfl
theorem operandsText_three : operandsText name [a, b, c] = name ++ " " ++ (a ++ ", " ++ b ++ ", " ++ c) := rfl

end

/-- Settles O5: each form of R77 is a name and a list of at most three operands. -/
theorem assemblyForms : Obligations.AssemblyForms := by
  refine ⟨fun _ => rfl, fun rs rt rd h imm target => ?_⟩
  simp only [asmText, threeRegText, shiftVarText, shiftText, memText, operandsText_nil, operandsText_one, operandsText_two,
    operandsText_three, and_self]

end Sys2Proof.Machine
end

section
/-! SUPPORT. Rows of the opcode map whose three-register or immediate layout is fixed but for its operands (30_encoding.md R62, R63,
R72): a word that matches such a row is the layout of its own fields. -/

namespace Sys2Proof.Machine

/-- A word under the mask that leaves the three register fields free. -/
theorem eq_rWord_of_mask {w : Word} {f : BitVec 6} (h : w &&& 0xFC0007FF#32 = rWord 0 0 0 0 f) :
    rWord (sOf w) (tOf w) (dOf w) 0 f = w := by
  have hfields : opOf w = 0#6 ∧ hOf w = 0#5 ∧ functOf w = f := by simpa using word_eq_iff.mp h
  obtain ⟨hop, hh, hf⟩ := hfields
  exact rWord_eq_iff.mpr ⟨hop, rfl, rfl, rfl, hh, hf⟩

/-- A word under the mask that leaves all but the major opcode free. -/
theorem eq_iWord_of_mask {w : Word} {op : BitVec 6} (h : w &&& 0xFC000000#32 = iWord op 0 0 0) :
    iWord op (sOf w) (tOf w) (immOf w) = w := by
  have hop : opOf w = op := by simpa using congrArg opOf h
  exact iWord_eq_iff.mpr ⟨hop, rfl, rfl, rfl⟩

/-- A row of three registers decodes to the instruction that encodes so. -/
theorem rowDecodes_rWord {i : Reg → Reg → Reg → Instr} (f : BitVec 6) (hwf : ∀ rs rt rd, (i rs rt rd).wellFormed = true)
    (hencode : ∀ rs rt rd, encode (i rs rt rd) = rWord rs rt rd 0 f) :
    RowDecodes (rWord 0 0 0 0 f) 0xFC0007FF (fun w => i (sOf w) (tOf w) (dOf w)) := by
  intro w hw
  have hword : encode (i (sOf w) (tOf w) (dOf w)) = w := (hencode _ _ _).trans (eq_rWord_of_mask hw)
  exact (congrArg decode hword).symm.trans (decodeOfEncode _ (hwf _ _ _))

/-- A row of two registers and an immediate decodes to the instruction that encodes so. -/
theorem rowDecodes_iWord {i : Reg → Reg → Imm → Instr} (op : BitVec 6) (hwf : ∀ rs rt imm, (i rs rt imm).wellFormed = true)
    (hencode : ∀ rs rt imm, encode (i rs rt imm) = iWord op rs rt imm) :
    RowDecodes (iWord op 0 0 0) 0xFC000000 (fun w => i (sOf w) (tOf w) (immOf w)) := by
  intro w hw
  have hword : encode (i (sOf w) (tOf w) (immOf w)) = w := (hencode _ _ _).trans (eq_iWord_of_mask hw)
  exact (congrArg decode hword).symm.trans (decodeOfEncode _ (hwf _ _ _))

end Sys2Proof.Machine
end

section
/-! SUPPORT. The faults of an instruction, said once (40_add_sub.md R100; 60_exceptions.md R200, R201, R208): the inversion of `exec`
beside `Completed`. -/

namespace Sys2Proof.Machine

/-! ### What an instruction can raise -/

/-- The exact result of an instruction that raises Overflow where it does not fit (R101, R102, R105). -/
def signedResult (i : Instr) (s : State) : Option Int :=
  match i with
  | .add rs rt _ => some ((s.readReg rs).toInt + (s.readReg rt).toInt)
  | .addi rs _ imm => some ((s.readReg rs).toInt + imm.toInt)
  | .sub rs rt _ => some ((s.readReg rs).toInt - (s.readReg rt).toInt)
  | _ => none

/-- The address a load reads from and the number of bytes it reads, as `storeTarget` for a store (R161, R163). -/
def loadTarget (i : Instr) (s : State) : Option (Word × Nat) :=
  match i with
  | .lb rs _ imm => some (effectiveAddress (s.readReg rs) imm, 1)
  | .lw rs _ imm => some (effectiveAddress (s.readReg rs) imm, 4)
  | _ => none

/-- The faults that the instruction `i` raises from `s`, alignment before mapping (R208). -/
inductive Faulted (i : Instr) (s : State) : Fault → Prop
  | overflow (r : Int) : signedResult i s = some r → ¬FitsSword r → Faulted i s (.overflow s.pc s.npc)
  | addressErrorLoad (ea : Word) : loadTarget i s = some (ea, 4) → ea.toNat % 4 ≠ 0 →
      Faulted i s (.addressErrorLoad ea s.pc s.npc)
  | addressErrorStore (ea : Word) : storeTarget i s = some (ea, 4) → ea.toNat % 4 ≠ 0 →
      Faulted i s (.addressErrorStore ea s.pc s.npc)
  | busErrorData (ea : Word) (n : Nat) : loadTarget i s = some (ea, n) ∨ storeTarget i s = some (ea, n) →
      (n = 4 → ea.toNat % 4 = 0) → allMapped s.launch ea n = false → Faulted i s (.busErrorData ea s.pc s.npc)

variable {i : Instr} {s : State} {f : Fault}

/-! ### Overflow -/

theorem outsideSword_iff {r : Int} : outsideSword r = true ↔ ¬FitsSword r := by
  unfold outsideSword FitsSword
  rw [decide_eq_true_iff]
  omega

/-- The operand of ADDI has the value of its field (R64). -/
theorem toInt_arithImm (imm : Imm) : (arithImm imm).toInt = imm.toInt := BitVec.toInt_signExtend_of_le (by decide)

theorem ofInt_toInt_add (a b : Word) : BitVec.ofInt 32 (a.toInt + b.toInt) = a + b := by
  rw [BitVec.ofInt_add, BitVec.ofInt_toInt, BitVec.ofInt_toInt]

theorem ofInt_toInt_sub (a b : Word) : BitVec.ofInt 32 (a.toInt - b.toInt) = a - b := by
  rw [Int.sub_eq_add_neg, BitVec.ofInt_add, BitVec.ofInt_neg, BitVec.ofInt_toInt, BitVec.ofInt_toInt, BitVec.sub_eq_add_neg]

/-- ADD, ADDI and SUB are one operation, on their exact result (R100): its check, and its bits as the result. -/
theorem exec_of_signedResult {d : Reg} {r : Int} (h : signedResult i s = some r) (hd : destReg i = some d) :
    exec i s = setRegTrapping s (outsideSword r) d (BitVec.ofInt 32 r) := by
  cases i with
  | add rs rt rd =>
    cases h; cases hd
    rw [ofInt_toInt_add]
    rfl
  | addi rs rt imm =>
    cases h; cases hd
    rw [← toInt_arithImm, ofInt_toInt_add]
    rfl
  | sub rs rt rd =>
    cases h; cases hd
    rw [ofInt_toInt_sub]
    rfl
  | _ => exact absurd h nofun

/-- A result that fits is written, and nothing else changes. -/
theorem completesReg_of_fitsSword {d : Reg} {r : Int} (h : signedResult i s = some r) (hd : destReg i = some d)
    (hfits : FitsSword r) : CompletesReg i s d (BitVec.ofInt 32 r) :=
  have hno : outsideSword r = false := Bool.eq_false_iff.mpr fun ho => outsideSword_iff.mp ho hfits
  completesReg_of_setReg ((exec_of_signedResult h hd).trans (setRegTrapping_of_not hno ..))

/-- A result that does not fit is not written: the instruction raises Overflow. -/
theorem exec_of_not_fitsSword {d : Reg} {r : Int} (h : signedResult i s = some r) (hd : destReg i = some d)
    (hfits : ¬FitsSword r) : exec i s = .fault (.overflow s.pc s.npc) :=
  (exec_of_signedResult h hd).trans (setRegTrapping_of (outsideSword_iff.mpr hfits) ..)

/-! ### One lemma for each shared operation that can fault -/

theorem transfer_ne_fault {t : State} : transfer s t ≠ .fault f := by
  unfold transfer
  split <;> nofun

theorem faulted_of_signedResult {d : Reg} {r : Int} (hr : signedResult i s = some r) (hd : destReg i = some d)
    (h : exec i s = .fault f) : Faulted i s f := by
  rw [exec_of_signedResult hr hd] at h
  obtain ⟨ho, rfl⟩ := setRegTrapping_fault_iff.mp h
  exact .overflow r hr (outsideSword_iff.mp ho)

theorem aligned4_eq_false_iff (a : Word) : aligned4 a = false ↔ a.toNat % 4 ≠ 0 := by
  rw [← Bool.not_eq_true, aligned4_iff]

theorem faulted_of_loadByte {ea : Word} {d : Reg} {v : Byte → Word} (hl : loadTarget i s = some (ea, 1))
    (h : loadByte s ea (fun b => setReg s d (v b)) = .fault f) : Faulted i s f := by
  obtain ⟨hm, rfl⟩ := loadByte_fault_iff.mp h
  exact .busErrorData ea 1 (.inl hl) nofun hm

theorem faulted_of_loadWord {ea : Word} {d : Reg} (hl : loadTarget i s = some (ea, 4))
    (h : loadWord s ea (fun w => setReg s d w) = .fault f) : Faulted i s f := by
  rcases loadWord_fault_iff.mp h with ⟨ha, rfl⟩ | ⟨ha, hm, rfl⟩
  · exact .addressErrorLoad ea hl ((aligned4_eq_false_iff ea).mp ha)
  · exact .busErrorData ea 4 (.inl hl) (fun _ => (aligned4_iff ea).mp ha) hm

/-- The CODE check refuses, so a store that goes on to complete faults by its mapping alone (R48, R53). -/
theorem storeChecks_fault {ea : Word} {n : Nat} {t : State} (h : storeChecks s ea n (advance t) = .fault f) :
    allMapped s.launch ea n = false ∧ .busErrorData ea s.pc s.npc = f := by
  unfold storeChecks at h
  split at h
  · split at h <;> exact absurd h nofun
  · rename_i hm
    exact ⟨Bool.eq_false_iff.mpr hm, Host.Outcome.fault.inj h⟩

theorem faulted_of_storeByte {ea : Word} {v : Byte} (hs : storeTarget i s = some (ea, 1))
    (h : storeByte s ea v = .fault f) : Faulted i s f := by
  obtain ⟨hm, rfl⟩ := storeChecks_fault h
  exact .busErrorData ea 1 (.inr hs) nofun hm

theorem faulted_of_storeWord {ea v : Word} (hs : storeTarget i s = some (ea, 4))
    (h : storeWord s ea v = .fault f) : Faulted i s f := by
  by_cases ha : ea.toNat % 4 = 0
  · rw [storeWord_of_aligned ha] at h
    obtain ⟨hm, rfl⟩ := storeChecks_fault h
    exact .busErrorData ea 4 (.inr hs) (fun _ => ha) hm
  · rw [storeWord, if_neg (mt (aligned4_iff ea).mp ha), raise_eq] at h
    obtain rfl := Host.Outcome.fault.inj h
    exact .addressErrorStore ea hs ha

/-! ### The inversion of `exec` at a fault -/

/-- Every instruction that faults does so for one of the four reasons of `Faulted`. -/
theorem exec_faulted (h : exec i s = .fault f) : Faulted i s f := by
  cases i with
  | add | addi | sub => exact faulted_of_signedResult rfl rfl h
  | addiu | addu | subu | and | andi | or | ori | xor | xori | lui => exact absurd h nofun
  | sll | sllv | sra | srl | srlv | slt | slti | sltiu | sltu | mfhi | mflo => exact absurd h nofun
  | noop | div | divu | mult | multu | syscall => exact absurd h nofun
  | beq | bne | bgez | bgtz | blez | bltz | bgezal | bltzal | j | jal | jr => exact absurd h transfer_ne_fault
  | lb => exact faulted_of_loadByte rfl h
  | lw => exact faulted_of_loadWord rfl h
  | sb => exact faulted_of_storeByte rfl h
  | sw => exact faulted_of_storeWord rfl h

end Sys2Proof.Machine
end

section
/-! SUPPORT. ADD, ADDI, ADDIU, ADDU, SUB and SUBU (40_add_sub.md). -/

namespace Sys2Proof.Machine

/-! ### The exact result, or the fault -/

/-- Settles O13: the two rows, then the exact result of each instruction. -/
theorem addRules : Obligations.AddRules :=
  ⟨rowDecodes_rWord 0x20 (fun _ _ _ => rfl) fun _ _ _ => rfl, rowDecodes_iWord 0x08 (fun _ _ _ => rfl) fun _ _ _ => rfl,
    fun _ _ _ _ _ => ⟨completesReg_of_fitsSword rfl rfl, exec_of_not_fitsSword rfl rfl, completesReg_of_fitsSword rfl rfl,
      exec_of_not_fitsSword rfl rfl⟩⟩

/-- Settles O14. -/
theorem subRule : Obligations.SubRule :=
  ⟨rowDecodes_rWord 0x22 (fun _ _ _ => rfl) fun _ _ _ => rfl,
    fun _ _ _ _ => ⟨completesReg_of_fitsSword rfl rfl, exec_of_not_fitsSword rfl rfl⟩⟩

/-! ### The result modulo `2^32` -/

theorem ofNat_toNat_add (a b : Word) : BitVec.ofNat 32 (a.toNat + b.toNat) = a + b := by
  rw [BitVec.ofNat_add, BitVec.ofNat_toNat, BitVec.ofNat_toNat, BitVec.setWidth_eq, BitVec.setWidth_eq]

/-- The difference read as UWORD has the same bits as the one read as SWORD. -/
theorem ofInt_toNat_sub (a b : Word) : BitVec.ofInt 32 (a.toNat - b.toNat : Int) = a - b := by
  have hofInt (v : Word) : BitVec.ofInt 32 (v.toNat : Int) = v := by
    rw [BitVec.ofInt_natCast, BitVec.ofNat_toNat, BitVec.setWidth_eq]
  rw [Int.sub_eq_add_neg, BitVec.ofInt_add, BitVec.ofInt_neg, hofInt, hofInt, BitVec.sub_eq_add_neg]

/-- Settles O15: the three rows, then the result of each instruction, which is written without a check. -/
theorem wrappingRules : Obligations.WrappingRules := by
  refine ⟨rowDecodes_rWord 0x21 (fun _ _ _ => rfl) fun _ _ _ => rfl, rowDecodes_iWord 0x09 (fun _ _ _ => rfl) fun _ _ _ => rfl,
    rowDecodes_rWord 0x23 (fun _ _ _ => rfl) fun _ _ _ => rfl, fun rs rt rd imm s => ⟨?_, ?_, ?_⟩⟩
  · rw [ofNat_toNat_add]
    exact completesReg_of_setReg rfl
  · rw [← toInt_arithImm, ofInt_toInt_add]
    exact completesReg_of_setReg rfl
  · rw [ofInt_toNat_sub]
    exact completesReg_of_setReg rfl

/-! ### The overflow rule -/

/-- The model's condition is the library's, which has the form in sign bits (R100). -/
theorem addOverflows_eq_saddOverflow (a b : Word) : addOverflows a b = a.saddOverflow b := by
  rw [Bool.eq_iff_iff, addOverflows, outsideSword_iff]
  simp only [FitsSword, BitVec.saddOverflow, Bool.or_eq_true, decide_eq_true_eq]
  omega

theorem subOverflows_eq_ssubOverflow (a b : Word) : subOverflows a b = a.ssubOverflow b := by
  rw [Bool.eq_iff_iff, subOverflows, outsideSword_iff]
  simp only [FitsSword, BitVec.ssubOverflow, Bool.or_eq_true, decide_eq_true_eq]
  omega

/-- A sum overflows when the operands have one sign and the result the other. -/
theorem addOverflows_iff_msb (a b : Word) : addOverflows a b = true ↔ a.msb = b.msb ∧ (a + b).msb ≠ a.msb := by
  rw [addOverflows_eq_saddOverflow, BitVec.saddOverflow_eq]
  simp

/-- A difference overflows when the operands have different signs and the result that of the second. -/
theorem subOverflows_iff_msb (a b : Word) : subOverflows a b = true ↔ a.msb ≠ b.msb ∧ (a - b).msb ≠ a.msb := by
  rw [subOverflows_eq_ssubOverflow, BitVec.ssubOverflow_eq]
  cases a.msb <;> cases b.msb <;> simp

/-- ADD, ADDI and SUB are the instructions with a checked result. -/
theorem trapping_of_signedResult {i : Instr} {s : State} {r : Int} (h : signedResult i s = some r) :
    (∃ rs rt rd, i = .add rs rt rd) ∨ (∃ rs rt imm, i = .addi rs rt imm) ∨ (∃ rs rt rd, i = .sub rs rt rd) := by
  cases i with
  | add rs rt rd => exact .inl ⟨rs, rt, rd, rfl⟩
  | addi rs rt imm => exact .inr (.inl ⟨rs, rt, imm, rfl⟩)
  | sub rs rt rd => exact .inr (.inr ⟨rs, rt, rd, rfl⟩)
  | _ => exact absurd h nofun

/-- Settles O16: the conditions, the pairs, and the one way to raise Overflow. -/
theorem overflowRule : Obligations.OverflowRule := by
  refine ⟨fun a b => ⟨outsideSword_iff, addOverflows_iff_msb a b, outsideSword_iff, subOverflows_iff_msb a b⟩,
    fun rs rt rd imm s => ⟨rfl, rfl, rfl⟩, fun i s p n h => ?_⟩
  cases exec_faulted h with
  | overflow r hr => exact trapping_of_signedResult hr

end Sys2Proof.Machine
end

section
/-! SUPPORT. Rows of three registers whose bits 10:6 are hyphens (30_encoding.md R63, R72; entry 16), beside the rows where these bits
must be 0. -/

namespace Sys2Proof.Machine

/-- A word under the mask that leaves the three register fields and bits 10:6 free, without those bits. -/
theorem rWord_of_mask_hyphen {w : Word} {f : BitVec 6} (h : w &&& 0xFC00003F#32 = rWord 0 0 0 0 f) :
    rWord (sOf w) (tOf w) (dOf w) 0 f = w &&& ~~~0x7C0#32 := by
  have hfields : opOf w = 0#6 ∧ functOf w = f := by simpa using word_eq_iff.mp h
  obtain ⟨hop, hf⟩ := hfields
  simp [rWord_eq_iff, hop, hf]

/-- A row of three registers with hyphen bits 10:6 decodes to the instruction that encodes so. -/
theorem rowDecodes_rWord_hyphen {i : Reg → Reg → Reg → Instr} (f : BitVec 6)
    (hwf : ∀ rs rt rd, (i rs rt rd).wellFormed = true) (hhyphen : ∀ rs rt rd, (i rs rt rd).hyphenBits = 0x7C0#32)
    (hencode : ∀ rs rt rd, encode (i rs rt rd) = rWord rs rt rd 0 f) :
    RowDecodes (rWord 0 0 0 0 f) 0xFC00003F (fun w => i (sOf w) (tOf w) (dOf w)) := by
  intro w hw
  refine decode_of_isWordOf ⟨hwf _ _ _, ?_⟩
  rw [hencode, hhyphen]
  exact rWord_of_mask_hyphen hw

end Sys2Proof.Machine
end

section
/-! SUPPORT. AND, ANDI, OR, ORI, XOR and XORI (41_logical.md). -/

namespace Sys2Proof.Machine

/-- Settles O17: the three rows, of which XOR's has hyphen bits, then the bits of each result. -/
theorem logicRegisters : Obligations.LogicRegisters :=
  ⟨rowDecodes_rWord 0x24 (fun _ _ _ => rfl) fun _ _ _ => rfl, rowDecodes_rWord 0x25 (fun _ _ _ => rfl) fun _ _ _ => rfl,
    rowDecodes_rWord_hyphen 0x26 (fun _ _ _ => rfl) (fun _ _ _ => rfl) fun _ _ _ => rfl,
    fun _ _ _ _ => ⟨⟨_, completesReg_of_setReg rfl, fun _ _ => BitVec.getLsbD_and⟩,
      ⟨_, completesReg_of_setReg rfl, fun _ _ => BitVec.getLsbD_or⟩,
      ⟨_, completesReg_of_setReg rfl, fun _ _ => BitVec.getLsbD_xor⟩⟩⟩

/-- The operand of an immediate form is zero-extended (R65). -/
theorem getLsbD_logicImm (imm : Imm) {k : Nat} (hk : k < 32) :
    (logicImm imm).getLsbD k = if k < 16 then imm.getLsbD k else false := by
  rw [logicImm, BitVec.getLsbD_setWidth]
  split
  · simp [hk]
  · next hhigh => simp [BitVec.getLsbD_of_ge imm k (Nat.le_of_not_lt hhigh)]

/-- Settles O18: the three rows, then each result bit by bit, from bit 16 on with a second operand of 0. -/
theorem logicImmediates : Obligations.LogicImmediates := by
  refine ⟨rowDecodes_iWord 0x0C (fun _ _ _ => rfl) fun _ _ _ => rfl, rowDecodes_iWord 0x0D (fun _ _ _ => rfl) fun _ _ _ => rfl,
    rowDecodes_iWord 0x0E (fun _ _ _ => rfl) fun _ _ _ => rfl, fun rs rt imm s =>
    ⟨⟨_, completesReg_of_setReg rfl, fun k hk => ?_⟩,
      ⟨_, completesReg_of_setReg rfl, fun k hk => ?_⟩, ⟨_, completesReg_of_setReg rfl, fun k hk => ?_⟩⟩⟩
  · rw [BitVec.getLsbD_and, getLsbD_logicImm _ hk, apply_ite ((s.readReg rs).getLsbD k && ·), Bool.and_false]
  · rw [BitVec.getLsbD_or, getLsbD_logicImm _ hk, apply_ite ((s.readReg rs).getLsbD k || ·), Bool.or_false]
  · rw [BitVec.getLsbD_xor, getLsbD_logicImm _ hk, apply_ite ((s.readReg rs).getLsbD k ^^ ·), Bool.xor_false]

end Sys2Proof.Machine
end

section
/-! SUPPORT. Rows of one register and an immediate, whose bits 20:16 are fixed by the row (30_encoding.md R63, R72). -/

namespace Sys2Proof.Machine

/-- A word under the mask that leaves bits 25:21 and the immediate free. -/
theorem eq_iWord_of_selectorMask {w : Word} {op : BitVec 6} {rt : Reg} (h : w &&& 0xFC1F0000#32 = iWord op 0 rt 0) :
    iWord op (sOf w) rt (immOf w) = w := by
  have hop : opOf w = op := by simpa using congrArg opOf h
  have ht : tOf w = rt := by simpa using congrArg tOf h
  exact iWord_eq_iff.mpr ⟨hop, rfl, ht, rfl⟩

/-- A row of one register and an immediate decodes to the instruction that encodes so. -/
theorem rowDecodes_iWord_selector {i : Reg → Imm → Instr} (op : BitVec 6) (rt : Reg) (hwf : ∀ rs imm, (i rs imm).wellFormed = true)
    (hencode : ∀ rs imm, encode (i rs imm) = iWord op rs rt imm) :
    RowDecodes (iWord op 0 rt 0) 0xFC1F0000 (fun w => i (sOf w) (immOf w)) := by
  intro w hw
  have hword : encode (i (sOf w) (immOf w)) = w := (hencode _ _).trans (eq_iWord_of_selectorMask hw)
  exact (congrArg decode hword).symm.trans (decodeOfEncode _ (hwf _ _))

end Sys2Proof.Machine
end

section
/-! SUPPORT. The refusals of an instruction, said once (42_branch.md R120; 20_memory.md R53): the inversion of `exec` beside
`Completed` and `Faulted`. -/

namespace Sys2Proof.Machine

/-- The refusals of the instruction `i` from `s`: a control transfer in a taken slot, a store that touches CODE. -/
inductive Refused (i : Instr) (s : State) : Refusal → Prop
  | ctiInDelaySlot : isTransfer i = true → s.npc ≠ s.pc + 4#32 → Refused i s (.ctiInDelaySlot s.pc)
  | storeToCode (ea : Word) (n : Nat) : storeTarget i s = some (ea, n) → someInCode s.launch ea n = true →
      Refused i s (.storeToCode s.pc)

variable {i : Instr} {s : State} {r : Refusal}

/-! ### One lemma for each shared operation -/

theorem setRegTrapping_ne_refused {o : Bool} {d : Reg} {v : Word} : setRegTrapping s o d v ≠ .refused r := by
  cases o <;> nofun

theorem loadByte_ne_refused {ea : Word} {d : Reg} {v : Byte → Word} :
    loadByte s ea (fun b => setReg s d (v b)) ≠ .refused r := by
  unfold loadByte
  split <;> nofun

theorem loadWord_ne_refused {ea : Word} {d : Reg} : loadWord s ea (fun w => setReg s d w) ≠ .refused r := by
  unfold loadWord
  split
  · split <;> nofun
  · nofun

/-- A store that would complete is refused by the CODE check alone (R53). -/
theorem storeChecks_refused {ea : Word} {n : Nat} {t : State} (h : storeChecks s ea n (advance t) = .refused r) :
    someInCode s.launch ea n = true ∧ .storeToCode s.pc = r := by
  unfold storeChecks at h
  split at h
  · split at h
    · next hc => exact ⟨hc, Host.Outcome.refused.inj h⟩
    · exact absurd h nofun
  · exact absurd h nofun

theorem refused_of_storeByte {ea : Word} {v : Byte} (hs : storeTarget i s = some (ea, 1))
    (h : storeByte s ea v = .refused r) : Refused i s r := by
  obtain ⟨hc, rfl⟩ := storeChecks_refused h
  exact .storeToCode ea 1 hs hc

theorem refused_of_storeWord {ea v : Word} (hs : storeTarget i s = some (ea, 4))
    (h : storeWord s ea v = .refused r) : Refused i s r := by
  unfold storeWord at h
  split at h
  · obtain ⟨hc, rfl⟩ := storeChecks_refused h
    exact .storeToCode ea 4 hs hc
  · exact absurd h nofun

theorem refused_of_transfer {t : State} (hi : isTransfer i = true) (h : transfer s t = .refused r) : Refused i s r := by
  by_cases hslot : s.npc = s.pc + 4#32
  · exact absurd ((transfer_of_eq hslot).symm.trans h) nofun
  · obtain rfl := Host.Outcome.refused.inj ((transfer_of_ne hslot).symm.trans h)
    exact .ctiInDelaySlot hi hslot

/-! ### The inversion of `exec` at a refusal -/

/-- Every instruction that is refused is so for one of the two reasons of `Refused`. -/
theorem exec_refused (h : exec i s = .refused r) : Refused i s r := by
  cases i with
  | add | addi | sub => exact absurd h setRegTrapping_ne_refused
  | addiu | addu | subu | and | andi | or | ori | xor | xori | lui => exact absurd h nofun
  | sll | sllv | sra | srl | srlv | slt | slti | sltiu | sltu | mfhi | mflo => exact absurd h nofun
  | noop | div | divu | mult | multu | syscall => exact absurd h nofun
  | beq | bne | bgez | bgtz | blez | bltz | bgezal | bltzal | j | jal | jr => exact refused_of_transfer rfl h
  | lb => exact absurd h loadByte_ne_refused
  | lw => exact absurd h loadWord_ne_refused
  | sb => exact refused_of_storeByte rfl h
  | sw => exact refused_of_storeWord rfl h

/-! ### Control transfers -/

/-- The eleven control transfers are one operation, on the state they lead to (R120). -/
theorem exec_of_isTransfer (h : isTransfer i = true) (s : State) : ∃ t, exec i s = transfer s t := by
  cases i with
  | beq | bne | bgez | bgtz | blez | bltz | bgezal | bltzal | j | jal | jr => exact ⟨_, rfl⟩
  | _ => exact absurd h Bool.false_ne_true

theorem exec_next_of_isTransfer (h : isTransfer i = true) (hslot : s.npc = s.pc + 4#32) : ∃ t, exec i s = .next t := by
  obtain ⟨t, ht⟩ := exec_of_isTransfer h s
  exact ⟨t, ht.trans (transfer_of_eq hslot)⟩

/-- A control transfer in a taken slot is refused, whatever its condition. -/
theorem exec_refused_of_isTransfer (h : isTransfer i = true) (hslot : s.npc ≠ s.pc + 4#32) :
    exec i s = .refused (.ctiInDelaySlot s.pc) := by
  obtain ⟨t, ht⟩ := exec_of_isTransfer h s
  exact ht.trans (transfer_of_ne hslot)

/-- Settles O22: of the two reasons for a refusal only the one of a control transfer has this kind. -/
theorem transferInTakenSlot : Obligations.TransferInTakenSlot := by
  refine fun i s => ⟨exec_refused_of_isTransfer, exec_next_of_isTransfer, fun hi p h => ?_⟩
  cases exec_refused h with
  | ctiInDelaySlot htransfer => exact Bool.false_ne_true (hi.symm.trans htransfer)

end Sys2Proof.Machine
end

section
/-! SUPPORT. The eight branches (42_branch.md). -/

namespace Sys2Proof.Machine

variable {i : Instr} {s : State} {imm : Imm}

/-! ### The counters -/

/-- Moving the counters changes nothing else. -/
theorem onlyCounters_jumpTo (s : State) (target : Word) : OnlyCounters s (s.jumpTo target) :=
  ⟨fun _ => rfl, ⟨rfl, rfl⟩, fun _ => rfl, ⟨rfl, rfl, rfl, rfl, rfl⟩, rfl⟩

/-- Outside a taken slot the instruction after the delay slot is at `pc + 8`. -/
theorem npc_add_four (h : s.npc = s.pc + 4#32) : s.npc + 4#32 = s.pc + 8#32 := by
  rw [h, BitVec.add_assoc]
  rfl

theorem npc_add_branchOffset (h : s.npc = s.pc + 4#32) (imm : Imm) :
    s.npc + branchOffset imm = s.pc + 4#32 + BitVec.ofInt 32 (4 * imm.toInt) := by
  rw [h, branchOffset_eq]

/-! ### Branches that do not link -/

/-- An instruction whose meaning is `branch` completes outside a taken slot, by its condition. -/
theorem completesBranch_of_branch {taken : Bool} {c : Prop} (h : exec i s = branch s taken imm) (hc : taken = true ↔ c)
    (hslot : s.npc = s.pc + 4#32) : CompletesBranch i s c imm := by
  refine ⟨_, h.trans (transfer_of_eq hslot), onlyCounters_jumpTo s _, hslot, fun htaken => ?_, fun hnot => ?_⟩
  · rw [State.advancePc_npc, if_pos (hc.mpr htaken), npc_add_branchOffset hslot]
  · rw [State.advancePc_npc, if_neg (mt hc.mp hnot), npc_add_four hslot]

/-- Settles O19: the two rows, then the two conditions, which are each other's negation. -/
theorem equalityBranches : Obligations.EqualityBranches :=
  ⟨rowDecodes_iWord 0x04 (fun _ _ _ => rfl) fun _ _ _ => rfl, rowDecodes_iWord 0x05 (fun _ _ _ => rfl) fun _ _ _ => rfl,
    fun _ _ _ _ =>
      ⟨fun hslot => ⟨completesBranch_of_branch rfl beq_iff_eq hslot, completesBranch_of_branch rfl bne_iff_ne hslot⟩,
        fun hslot => ⟨exec_refused_of_isTransfer rfl hslot, exec_refused_of_isTransfer rfl hslot⟩⟩⟩

/-- Settles O20: the four rows, then the four comparisons with zero. -/
theorem signBranches : Obligations.SignBranches := by
  refine ⟨rowDecodes_iWord_selector 0x01 0x01 (fun _ _ => rfl) fun _ _ => rfl,
    rowDecodes_iWord_selector 0x07 0x00 (fun _ _ => rfl) fun _ _ => rfl,
    rowDecodes_iWord_selector 0x06 0x00 (fun _ _ => rfl) fun _ _ => rfl,
    rowDecodes_iWord_selector 0x01 0x00 (fun _ _ => rfl) fun _ _ => rfl, fun rs imm s => ⟨fun hslot => ?_, fun hslot => ?_⟩⟩
  · exact ⟨completesBranch_of_branch rfl decide_eq_true_iff hslot, completesBranch_of_branch rfl decide_eq_true_iff hslot,
      completesBranch_of_branch rfl decide_eq_true_iff hslot, completesBranch_of_branch rfl decide_eq_true_iff hslot⟩
  · exact ⟨exec_refused_of_isTransfer rfl hslot, exec_refused_of_isTransfer rfl hslot, exec_refused_of_isTransfer rfl hslot,
      exec_refused_of_isTransfer rfl hslot⟩

/-! ### Linking -/

/-- A link and moved counters are all that a linking transfer leaves (R130); `OnlyReg` says nothing of the counters. -/
theorem onlyReg_link_jumpTo (s : State) (target : Word) : OnlyReg s (s.link.jumpTo target) 31#5 (s.pc + 8#32) :=
  onlyReg_setReg s 31#5 (s.pc + 8#32)

theorem State.linkNotTaken_of_unchanged (h : s.launch.linkNotTaken = .unchanged) : s.linkNotTaken = s := by
  rw [State.linkNotTaken, h]

theorem State.linkNotTaken_of_link (h : s.launch.linkNotTaken = .link) : s.linkNotTaken = s.link := by
  rw [State.linkNotTaken, h]

/-- Whatever LINK_NOT_TAKEN is, memory, `hi`, `lo`, the launch and the bookkeeping are as before. -/
theorem State.linkNotTaken_keeps (s : State) :
    KeepsHiLo s s.linkNotTaken ∧ KeepsMem s s.linkNotTaken ∧ KeepsControl s s.linkNotTaken :=
  ⟨⟨by simp, by simp⟩, fun a => State.readByte_congr (by simp) a, ⟨by simp, by simp, by simp, by simp, by simp⟩⟩

/-! ### Branches that link -/

theorem branchAndLink_taken (hslot : s.npc = s.pc + 4#32) (imm : Imm) :
    branchAndLink s true imm = .next (s.link.advancePc (branchOffset imm)) := transfer_of_eq hslot

theorem branchAndLink_notTaken (hslot : s.npc = s.pc + 4#32) (imm : Imm) :
    branchAndLink s false imm = .next (s.linkNotTaken.advancePc 4#32) := transfer_of_eq hslot

/-- What a linking branch does when it is taken: the condition was tested before the link. -/
theorem exec_taken_of_branchAndLink (h : exec i s = branchAndLink s true imm) (hslot : s.npc = s.pc + 4#32) :
    ∃ s', exec i s = .next s' ∧ OnlyReg s s' 31#5 (s.pc + 8#32) ∧ s'.pc = s.pc + 4#32 ∧
      s'.npc = s.pc + 4#32 + BitVec.ofInt 32 (4 * imm.toInt) := by
  refine ⟨_, h.trans (branchAndLink_taken hslot imm), onlyReg_link_jumpTo s _, ?_, ?_⟩
  · rw [State.advancePc_pc, State.link_npc, hslot]
  · rw [State.advancePc_npc, State.link_npc, npc_add_branchOffset hslot]

/-- What a linking branch does when it is not taken: register 31 is as LINK_NOT_TAKEN says. -/
theorem exec_notTaken_of_branchAndLink (h : exec i s = branchAndLink s false imm) (hslot : s.npc = s.pc + 4#32) :
    ∃ s', exec i s = .next s' ∧ (∀ r : Reg, r ≠ 31#5 → s'.readReg r = s.readReg r) ∧
      KeepsHiLo s s' ∧ KeepsMem s s' ∧ KeepsControl s s' ∧ s'.pc = s.pc + 4#32 ∧ s'.npc = s.pc + 8#32 ∧
      (s.launch.linkNotTaken = .unchanged → s'.readReg 31#5 = s.readReg 31#5) ∧
      (s.launch.linkNotTaken = .link → s'.readReg 31#5 = s.pc + 8#32) := by
  obtain ⟨hhiLo, hmem, hcontrol⟩ := s.linkNotTaken_keeps
  refine ⟨_, h.trans (branchAndLink_notTaken hslot imm), fun r hr => s.readReg_linkNotTaken_ne hr, hhiLo, hmem, hcontrol, ?_, ?_,
    fun hunchanged => ?_, fun hlink => ?_⟩
  · rw [State.advancePc_pc, State.linkNotTaken_npc, hslot]
  · rw [State.advancePc_npc, State.linkNotTaken_npc, npc_add_four hslot]
  · rw [State.readReg_advancePc, State.linkNotTaken_of_unchanged hunchanged]
  · rw [State.readReg_advancePc, State.linkNotTaken_of_link hlink, State.readReg_link]

/-- BGEZAL and BLTZAL are one operation, on the test of the register before the link (R124, R128). -/
theorem exec_linkingBranch {rs : Reg} {taken : Prop}
    (h : i = .bgezal rs imm ∧ (taken ↔ 0 ≤ (s.readReg rs).toInt) ∨ i = .bltzal rs imm ∧ (taken ↔ (s.readReg rs).toInt < 0)) :
    isTransfer i = true ∧ ∃ b : Bool, exec i s = branchAndLink s b imm ∧ (b = true ↔ taken) := by
  rcases h with ⟨rfl, htest⟩ | ⟨rfl, htest⟩
  · exact ⟨rfl, _, rfl, decide_eq_true_iff.trans htest.symm⟩
  · exact ⟨rfl, _, rfl, decide_eq_true_iff.trans htest.symm⟩

/-- Settles O21: the two rows, then the refusal and the two outcomes of the test. -/
theorem linkingBranches : Obligations.LinkingBranches := by
  refine ⟨rowDecodes_iWord_selector 0x01 0x11 (fun _ _ => rfl) fun _ _ => rfl,
    rowDecodes_iWord_selector 0x01 0x10 (fun _ _ => rfl) fun _ _ => rfl, fun rs imm s i taken hi => ?_⟩
  obtain ⟨htransfer, b, hexec, hb⟩ := exec_linkingBranch hi
  refine ⟨exec_refused_of_isTransfer htransfer, fun hslot htaken => ?_, fun hslot hnot => ?_⟩
  · obtain rfl : b = true := hb.mpr htaken
    exact exec_taken_of_branchAndLink hexec hslot
  · obtain rfl : b = false := Bool.eq_false_iff.mpr (mt hb.mp hnot)
    exact exec_notTaken_of_branchAndLink hexec hslot

end Sys2Proof.Machine
end

section
/-! SUPPORT. Rows of the three-register layout with fewer operands, whose other register fields must be 0 (30_encoding.md R62,
R63, R72). -/

namespace Sys2Proof.Machine

/-- A word under the mask that leaves the fields `s` and `t` free. -/
theorem eq_rWord_of_sourceMask {w : Word} {f : BitVec 6} (h : w &&& 0xFC00FFFF#32 = rWord 0 0 0 0 f) :
    rWord (sOf w) (tOf w) 0 0 f = w := by
  have hfields : opOf w = 0#6 ∧ dOf w = 0#5 ∧ hOf w = 0#5 ∧ functOf w = f := by simpa using word_eq_iff.mp h
  obtain ⟨hop, hd, hh, hf⟩ := hfields
  exact rWord_eq_iff.mpr ⟨hop, rfl, rfl, hd, hh, hf⟩

/-- A word under the mask that leaves the field `d` free. -/
theorem eq_rWord_of_destMask {w : Word} {f : BitVec 6} (h : w &&& 0xFFFF07FF#32 = rWord 0 0 0 0 f) :
    rWord 0 0 (dOf w) 0 f = w := by
  have hfields : opOf w = 0#6 ∧ sOf w = 0#5 ∧ tOf w = 0#5 ∧ hOf w = 0#5 ∧ functOf w = f := by simpa using word_eq_iff.mp h
  obtain ⟨hop, hs, ht, hh, hf⟩ := hfields
  exact rWord_eq_iff.mpr ⟨hop, hs, ht, rfl, hh, hf⟩

/-- A row of two source registers decodes to the instruction that encodes so. -/
theorem rowDecodes_rWord_source {i : Reg → Reg → Instr} (f : BitVec 6) (hwf : ∀ rs rt, (i rs rt).wellFormed = true)
    (hencode : ∀ rs rt, encode (i rs rt) = rWord rs rt 0 0 f) :
    RowDecodes (rWord 0 0 0 0 f) 0xFC00FFFF (fun w => i (sOf w) (tOf w)) := by
  intro w hw
  have hword : encode (i (sOf w) (tOf w)) = w := (hencode _ _).trans (eq_rWord_of_sourceMask hw)
  exact (congrArg decode hword).symm.trans (decodeOfEncode _ (hwf _ _))

/-- A row of one destination register decodes to the instruction that encodes so. -/
theorem rowDecodes_rWord_dest {i : Reg → Instr} (f : BitVec 6) (hwf : ∀ rd, (i rd).wellFormed = true)
    (hencode : ∀ rd, encode (i rd) = rWord 0 0 rd 0 f) :
    RowDecodes (rWord 0 0 0 0 f) 0xFFFF07FF (fun w => i (dOf w)) := by
  intro w hw
  have hword : encode (i (dOf w)) = w := (hencode _).trans (eq_rWord_of_destMask hw)
  exact (congrArg decode hword).symm.trans (decodeOfEncode _ (hwf _))

end Sys2Proof.Machine
end

section
/-! SUPPORT. DIV, DIVU, MFHI, MFLO, MULT and MULTU (43_muldiv.md). -/

namespace Sys2Proof.Machine

variable {i : Instr} {s : State}

/-! ### Moves -/

/-- Settles O27: the two rows, then the two copies. -/
theorem moveRules : Obligations.MoveRules :=
  ⟨rowDecodes_rWord_dest 0x10 (fun _ => rfl) fun _ => rfl, rowDecodes_rWord_dest 0x12 (fun _ => rfl) fun _ => rfl,
    fun _ _ => ⟨completesReg_of_setReg rfl, completesReg_of_setReg rfl⟩⟩

/-! ### Products -/

/-- The low word of a product is the product of the words, whether they are read as SWORD or as UWORD (R144). -/
theorem productLow_signedProduct (a b : Word) : productLow (signedProduct a b) = a * b := by
  rw [productLow, signedProduct, BitVec.ofInt_mul, BitVec.ofInt_toInt, BitVec.ofInt_toInt]

theorem productLow_unsignedProduct (a b : Word) : productLow (unsignedProduct a b) = a * b := by
  rw [productLow, unsignedProduct, BitVec.ofInt_natCast, BitVec.ofNat_mul, BitVec.ofNat_toNat, BitVec.ofNat_toNat,
    BitVec.setWidth_eq, BitVec.setWidth_eq]

/-- The high word of a product is its quotient by `2^32`, rounded down. -/
theorem productHigh_eq_ofInt_ediv (p : Int) : productHigh p = BitVec.ofInt 32 (p / 2 ^ 32) := by
  apply BitVec.eq_of_toNat_eq
  rw [productHigh, BitVec.extractLsb'_toNat, BitVec.toNat_ofInt, BitVec.toNat_ofInt, Nat.shiftRight_eq_div_pow]
  omega

theorem State.multHi_hi_of_highWord (h : s.launch.multHi = .highWord) (p : Int) : (s.multHi p).hi = productHigh p := by
  rw [State.multHi, h, State.setHi_hi]

theorem State.multHi_hi_of_unchanged (h : s.launch.multHi = .unchanged) (p : Int) : (s.multHi p).hi = s.hi := by
  rw [State.multHi, h]

/-- An instruction whose meaning is `setProduct` completes with what R144 says in `lo` and `hi`. -/
theorem completes_of_setProduct {p : Int} (h : exec i s = setProduct s p) :
    ∃ s', exec i s = .next s' ∧ OnlyHiLo s s' ∧ Advanced s s' 4#32 ∧ s'.lo = productLow p ∧
      (s.launch.multHi = .highWord → s'.hi = productHigh p) ∧ (s.launch.multHi = .unchanged → s'.hi = s.hi) := by
  refine ⟨_, h.trans (setProduct_eq s p), ⟨fun r => by simp, fun a => State.readByte_congr (by simp) a, ?_⟩,
    ⟨by simp, by simp⟩, by simp, fun hhigh => ?_, fun hunchanged => ?_⟩
  · exact ⟨by simp, by simp, by simp, by simp, by simp⟩
  · exact State.multHi_hi_of_highWord (s := s.setLo (productLow p)) hhigh p
  · exact State.multHi_hi_of_unchanged (s := s.setLo (productLow p)) hunchanged p

/-- Settles O26: the two rows, then the product of each reading of the registers. -/
theorem multiplyRules : Obligations.MultiplyRules := by
  refine ⟨rowDecodes_rWord_source 0x18 (fun _ _ => rfl) fun _ _ => rfl,
    rowDecodes_rWord_source 0x19 (fun _ _ => rfl) fun _ _ => rfl, fun rs rt s => ?_⟩
  obtain ⟨t, ht, honlyT, hadvT, hloT, hhighT, hkeepT⟩ := completes_of_setProduct (i := .mult rs rt) (s := s) rfl
  obtain ⟨u, hu, honlyU, hadvU, hloU, hhighU, hkeepU⟩ := completes_of_setProduct (i := .multu rs rt) (s := s) rfl
  have hsame : t.lo = u.lo := by rw [hloT, hloU, productLow_signedProduct, productLow_unsignedProduct]
  refine ⟨t, u, ht, hu, honlyT, honlyU, hadvT, hadvU, hloT, hloU.trans (BitVec.ofInt_natCast ..), hsame,
    fun hhigh => ⟨?_, ?_⟩, fun hunchanged => ⟨hkeepT hunchanged, hkeepU hunchanged⟩⟩
  · exact (hhighT hhigh).trans (productHigh_eq_ofInt_ediv _)
  · rw [hhighU hhigh, productHigh_eq_ofInt_ediv, unsignedProduct]
    exact BitVec.ofInt_natCast ..

/-! ### Quotients -/

/-- An instruction whose meaning is `setQuotient` completes, also where no result is specified (R135, R136). -/
theorem completes_of_setQuotient {u : Bool} {q r : Word} (h : exec i s = setQuotient s u q r) :
    ∃ s', exec i s = .next s' ∧ OnlyHiLo s s' ∧ Advanced s s' 4#32 := by
  refine ⟨_, h.trans (setQuotient_eq s u q r), ?_⟩
  cases u with
  | true | false => exact ⟨⟨fun _ => rfl, fun _ => rfl, ⟨rfl, rfl, rfl, rfl, rfl⟩⟩, ⟨rfl, rfl⟩⟩

/-- Where the result is specified, it stands in `lo` and `hi` and no value was drawn. -/
theorem completes_of_setQuotient_defined {u : Bool} {q r : Word} (h : exec i s = setQuotient s u q r) (hu : u = false) :
    ∃ s', exec i s = .next s' ∧ OnlyHiLo s s' ∧ Advanced s s' 4#32 ∧ s'.draws = s.draws ∧ s'.lo = q ∧ s'.hi = r := by
  obtain ⟨s', hs', honly, hadv⟩ := completes_of_setQuotient h
  subst hu
  obtain rfl := Host.Outcome.next.inj (hs'.symm.trans (h.trans (setQuotient_eq s false q r)))
  exact ⟨_, hs', honly, hadv, rfl, rfl, rfl⟩

/-! ### Signed division -/

theorem divUndefined_eq_false_iff {n m : Word} :
    divUndefined n m = false ↔ m.toInt ≠ 0 ∧ ¬(n.toInt = -2 ^ 31 ∧ m.toInt = -1) := by
  rw [divUndefined, decide_eq_false_iff_not, not_or]

/-- The model's quotient is the library's, whose only overflow is that of the pair that is left out (R143). -/
theorem toInt_signedQuotient {n m : Word} (h : divUndefined n m = false) :
    (signedQuotient n m).toInt = n.toInt.tdiv m.toInt := by
  obtain ⟨-, hpair⟩ := divUndefined_eq_false_iff.mp h
  have hne : n ≠ BitVec.intMin 32 ∨ m ≠ -1#32 := by
    by_contra hboth
    obtain ⟨rfl, rfl⟩ : n = BitVec.intMin 32 ∧ m = -1#32 := by simpa using hboth
    exact hpair ⟨rfl, rfl⟩
  rw [signedQuotient, ← BitVec.toInt_sdiv_of_ne_or_ne n m hne, BitVec.ofInt_toInt]

theorem toInt_signedRemainder (n m : Word) : (signedRemainder n m).toInt = n.toInt.tmod m.toInt := by
  rw [signedRemainder, mul_comm, ← Int.tmod_def, ← BitVec.toInt_srem, BitVec.ofInt_toInt]

theorem abs_tmod_lt (n : Int) {m : Int} (hm : m ≠ 0) : |n.tmod m| < |m| := by
  rw [Int.abs_eq_natAbs, Int.abs_eq_natAbs, Int.natAbs_tmod]
  exact_mod_cast Nat.mod_lt _ (Int.natAbs_pos.mpr hm)

/-- A negative remainder comes of a negative dividend. -/
theorem neg_of_tmod_neg {n m : Int} (h : n.tmod m < 0) : n < 0 :=
  lt_of_not_ge fun hn => h.not_ge (Int.tmod_nonneg m hn)

/-- A positive remainder comes of a positive dividend: negate both. -/
theorem pos_of_tmod_pos {n m : Int} (h : 0 < n.tmod m) : 0 < n :=
  neg_lt_zero.mp (neg_of_tmod_neg (m := m) (by rwa [Int.neg_tmod, neg_lt_zero]))

/-- Rounded toward zero, a quotient is negative when the operands have opposite signs and the divisor is not the larger. -/
theorem tdiv_neg_iff (n m : Int) : n.tdiv m < 0 ↔ (n < 0 ∧ 0 < m ∨ 0 < n ∧ m < 0) ∧ |m| ≤ |n| := by
  rw [← Int.sign_eq_neg_one_iff_neg, Int.sign_tdiv, Int.abs_eq_natAbs, Int.abs_eq_natAbs, Int.ofNat_le]
  split
  · next hlarger => simp [hlarger]
  · next hlarger =>
    rw [← Int.sign_mul, Int.sign_eq_neg_one_iff_neg, mul_neg_iff, or_comm, and_iff_left (Nat.le_of_not_lt hlarger)]

/-! ### Unsigned division -/

theorem toNat_unsignedQuotient (n m : Word) : (unsignedQuotient n m).toNat = n.toNat / m.toNat :=
  Nat.mod_eq_of_lt ((Nat.div_le_self ..).trans_lt n.isLt)

theorem toNat_unsignedRemainder (n m : Word) :
    (unsignedRemainder n m).toNat = n.toNat - n.toNat / m.toNat * m.toNat :=
  Nat.mod_eq_of_lt ((Nat.sub_le ..).trans_lt n.isLt)

/-- Settles O25: the two rows, then each division where its result is specified and where it is not. -/
theorem divisionRules : Obligations.DivisionRules := by
  refine ⟨rowDecodes_rWord_source 0x1A (fun _ _ => rfl) fun _ _ => rfl,
    rowDecodes_rWord_source 0x1B (fun _ _ => rfl) fun _ _ => rfl, fun rs rt s =>
    ⟨?_, fun _ => completes_of_setQuotient rfl, ?_, fun _ => completes_of_setQuotient rfl⟩⟩
  · rintro n m rfl rfl hm hpair
    have hdefined := divUndefined_eq_false_iff.mpr ⟨hm, hpair⟩
    obtain ⟨s', hs', honly, hadv, hdraws, hlo, hhi⟩ := completes_of_setQuotient_defined (i := .div rs rt) rfl hdefined
    refine ⟨s', hs', honly, hdraws, hadv, ?_⟩
    rw [hlo, hhi, toInt_signedQuotient hdefined, toInt_signedRemainder]
    exact ⟨by rw [Int.tmod_def, mul_comm], abs_tmod_lt _ hm, neg_of_tmod_neg, pos_of_tmod_pos, tdiv_neg_iff _ _⟩
  · rintro n m rfl rfl hm
    have hdefined : (s.readReg rt == 0#32) = false := beq_eq_false_iff_ne.mpr fun hzero => hm (congrArg BitVec.toNat hzero)
    obtain ⟨s', hs', honly, hadv, hdraws, hlo, hhi⟩ := completes_of_setQuotient_defined (i := .divu rs rt) rfl hdefined
    refine ⟨s', hs', honly, hdraws, hadv, ?_⟩
    rw [hlo, hhi, toNat_unsignedQuotient, toNat_unsignedRemainder]
    exact ⟨rfl, rfl⟩

end Sys2Proof.Machine
end

section
/-! SUPPORT. The row of a target and the row of one source register (30_encoding.md R62, R63, R72). -/

namespace Sys2Proof.Machine

/-- A word under the mask that leaves the target free. -/
theorem eq_jWord_of_mask {w : Word} {op : BitVec 6} (h : w &&& 0xFC000000#32 = jWord op 0) : jWord op (targetOf w) = w := by
  have hop : opOf w = op := by simpa using congrArg opOf h
  exact jWord_eq_iff.mpr ⟨hop, rfl⟩

/-- A word under the mask that leaves the field `s` free. -/
theorem eq_rWord_of_oneSourceMask {w : Word} {f : BitVec 6} (h : w &&& 0xFC1FFFFF#32 = rWord 0 0 0 0 f) :
    rWord (sOf w) 0 0 0 f = w := by
  have hfields : opOf w = 0#6 ∧ tOf w = 0#5 ∧ dOf w = 0#5 ∧ hOf w = 0#5 ∧ functOf w = f := by simpa using word_eq_iff.mp h
  obtain ⟨hop, ht, hd, hh, hf⟩ := hfields
  exact rWord_eq_iff.mpr ⟨hop, rfl, ht, hd, hh, hf⟩

/-- A row of a target decodes to the instruction that encodes so. -/
theorem rowDecodes_jWord {i : Target → Instr} (op : BitVec 6) (hwf : ∀ target, (i target).wellFormed = true)
    (hencode : ∀ target, encode (i target) = jWord op target) :
    RowDecodes (jWord op 0) 0xFC000000 (fun w => i (targetOf w)) := by
  intro w hw
  have hword : encode (i (targetOf w)) = w := (hencode _).trans (eq_jWord_of_mask hw)
  exact (congrArg decode hword).symm.trans (decodeOfEncode _ (hwf _))

/-- A row of one source register decodes to the instruction that encodes so. -/
theorem rowDecodes_rWord_oneSource {i : Reg → Instr} (f : BitVec 6) (hwf : ∀ rs, (i rs).wellFormed = true)
    (hencode : ∀ rs, encode (i rs) = rWord rs 0 0 0 f) :
    RowDecodes (rWord 0 0 0 0 f) 0xFC1FFFFF (fun w => i (sOf w)) := by
  intro w hw
  have hword : encode (i (sOf w)) = w := (hencode _).trans (eq_rWord_of_oneSourceMask hw)
  exact (congrArg decode hword).symm.trans (decodeOfEncode _ (hwf _))

end Sys2Proof.Machine
end

section
/-! SUPPORT. J, JAL and JR (44_jump.md). -/

namespace Sys2Proof.Machine

variable {i : Instr} {s : State}

/-! ### The destination of J and JAL -/

/-- A word cut where `jumpTarget` joins its pieces: the region 31:28, bits 27:2 and bits 1:0 (R69). -/
theorem word_eq_regionPieces (a : Word) : a = a.extractLsb' 28 4 ++ a.extractLsb' 2 26 ++ a.extractLsb' 0 2 :=
  calc a = a.extractLsb' 2 30 ++ a.extractLsb' 0 2 := (BitVec.extractLsb'_append_extractLsb' (w := 30) (len := 2)).symm
    _ = a.extractLsb' 28 4 ++ a.extractLsb' 2 26 ++ a.extractLsb' 0 2 :=
      congrArg (· ++ a.extractLsb' 0 2) (BitVec.extractLsb'_append_extractLsb'_eq_extractLsb' (len₁ := 26) (len₂ := 4) rfl).symm

/-- The mask keeps the region of an address. -/
theorem and_regionMask (a : Word) : a &&& 0xF0000000#32 = a.extractLsb' 28 4 ++ 0#26 ++ 0#2 :=
  calc a &&& 0xF0000000#32
      = (a.extractLsb' 28 4 ++ a.extractLsb' 2 26 ++ a.extractLsb' 0 2) &&& (BitVec.allOnes 4 ++ 0#26 ++ 0#2) :=
        congrArg (· &&& 0xF0000000#32) (word_eq_regionPieces a)
    _ = a.extractLsb' 28 4 ++ 0#26 ++ 0#2 := by simp only [BitVec.and_append, BitVec.and_allOnes, BitVec.and_zero]

/-- The shift puts a target in bits 27:2 and loses none of its bits. -/
theorem shiftLeft_target (target : Target) : target.zeroExtend 32 <<< 2 = 0#4 ++ target ++ 0#2 := by
  apply BitVec.eq_of_toNat_eq
  have hfits : target.toNat * 4 < 2 ^ 32 := by omega
  rw [BitVec.toNat_append, BitVec.toNat_append, BitVec.toNat_shiftLeft, BitVec.toNat_setWidth]
  simpa [Nat.shiftLeft_eq] using hfits

/-- The two forms of the destination in R69 agree. -/
theorem jumpTarget_eq_append (pcAfter : Word) (target : Target) :
    jumpTarget pcAfter target = pcAfter.extractLsb' 28 4 ++ target ++ 0#2 :=
  calc jumpTarget pcAfter target
      = (pcAfter.extractLsb' 28 4 ++ 0#26 ++ 0#2) ||| (0#4 ++ target ++ 0#2) :=
        congrArg₂ (· ||| ·) (and_regionMask pcAfter) (shiftLeft_target target)
    _ = pcAfter.extractLsb' 28 4 ++ target ++ 0#2 := by simp only [BitVec.or_append, BitVec.or_zero, BitVec.zero_or]

/-! ### Jumps that complete -/

/-- An instruction that jumps without a link moves the counters only. -/
theorem exec_next_of_jump {target : Word} (h : exec i s = transfer s (s.jumpTo target)) (hslot : s.npc = s.pc + 4#32) :
    ∃ s', exec i s = .next s' ∧ OnlyCounters s s' ∧ s'.pc = s.npc ∧ s'.npc = target :=
  ⟨_, h.trans (transfer_of_eq hslot), onlyCounters_jumpTo s _, rfl, rfl⟩

/-- An instruction that links and jumps (R152). -/
theorem exec_next_of_linkingJump {target : Word} (h : exec i s = transfer s (s.link.jumpTo target))
    (hslot : s.npc = s.pc + 4#32) :
    ∃ s', exec i s = .next s' ∧ OnlyReg s s' 31#5 (s.pc + 8#32) ∧ s'.pc = s.npc ∧ s'.npc = target :=
  ⟨_, h.trans (transfer_of_eq hslot), onlyReg_link_jumpTo s _, s.link_npc, rfl⟩

/-! ### The statements -/

/-- Settles O23: the two rows, then the two jumps to the destination as one word. -/
theorem jumpRules : Obligations.JumpRules := by
  refine ⟨rowDecodes_jWord 0x02 (fun _ => rfl) fun _ => rfl, rowDecodes_jWord 0x03 (fun _ => rfl) fun _ => rfl,
    fun target s => ?_⟩
  rw [← jumpTarget_eq_append]
  exact ⟨fun hslot => ⟨exec_next_of_jump rfl hslot, exec_next_of_linkingJump rfl hslot⟩,
    fun hslot => ⟨exec_refused_of_isTransfer rfl hslot, exec_refused_of_isTransfer rfl hslot⟩⟩

/-- Settles O24: the row, then the jump to the register's value. -/
theorem jrRule : Obligations.JrRule :=
  ⟨rowDecodes_rWord_oneSource 0x08 (fun _ => rfl) fun _ => rfl, fun _ _ => ⟨exec_next_of_jump rfl, exec_refused_of_isTransfer rfl⟩⟩

end Sys2Proof.Machine
end

section
/-! SUPPORT. The row of a register and an immediate whose bits 25:21 are hyphens (30_encoding.md R63, R72; entry 16), beside the rows
where these bits are an operand. -/

namespace Sys2Proof.Machine

/-- A word under the mask that leaves all but the major opcode free, without bits 25:21. -/
theorem iWord_of_mask_hyphen {w : Word} {op : BitVec 6} (h : w &&& 0xFC000000#32 = iWord op 0 0 0) :
    iWord op 0 (tOf w) (immOf w) = w &&& ~~~0x3E00000#32 := by
  have hop : opOf w = op := by simpa using congrArg opOf h
  simp [iWord_eq_iff, hop]

/-- A row of a register and an immediate with hyphen bits 25:21 decodes to the instruction that encodes so. -/
theorem rowDecodes_iWord_hyphen {i : Reg → Imm → Instr} (op : BitVec 6) (hwf : ∀ rt imm, (i rt imm).wellFormed = true)
    (hhyphen : ∀ rt imm, (i rt imm).hyphenBits = 0x3E00000#32) (hencode : ∀ rt imm, encode (i rt imm) = iWord op 0 rt imm) :
    RowDecodes (iWord op 0 0 0) 0xFC000000 (fun w => i (tOf w) (immOf w)) := by
  intro w hw
  refine decode_of_isWordOf ⟨hwf _ _, ?_⟩
  rw [hencode, hhyphen]
  exact iWord_of_mask_hyphen hw

end Sys2Proof.Machine
end

section
/-! SUPPORT. LB, LUI, LW, SB and SW (45_load_store.md). -/

namespace Sys2Proof.Machine

variable {s t : State} {ea : Word}

/-! ### The bytes of an access -/

theorem allMapped_one (l : Launch) (a : Word) : allMapped l a 1 = inMapped l a.toNat := by
  simp [allMapped, accessBytes_one]

theorem someInCode_one (l : Launch) (a : Word) : someInCode l a 1 = inCode l a.toNat := by
  simp [someInCode, accessBytes_one]

theorem allMapped_eq_false_of_aligned {l : Launch} {a : Word} (h : a.toNat % 4 = 0) :
    allMapped l a 4 = false ↔ ∃ k < 4, inMapped l (a.toNat + k) = false := by
  rw [← Bool.not_eq_true, allMapped_of_aligned h]
  simp

theorem someInCode_eq_false_of_aligned {l : Launch} {a : Word} (h : a.toNat % 4 = 0) :
    someInCode l a 4 = false ↔ ∀ k < 4, inCode l (a.toNat + k) = false := by
  rw [← Bool.not_eq_true, someInCode_of_aligned h]
  simp

/-! ### Words in each byte order -/

theorem State.readWord_of_big (h : s.launch.byteOrder = .big) (a : Word) :
    s.readWord a = s.readByte a ++ s.readByte (a + 1#32) ++ s.readByte (a + 2#32) ++ s.readByte (a + 3#32) := by
  rw [State.readWord, h]
  rfl

theorem State.readWord_of_little (h : s.launch.byteOrder = .little) (a : Word) :
    s.readWord a = s.readByte (a + 3#32) ++ s.readByte (a + 2#32) ++ s.readByte (a + 1#32) ++ s.readByte a := by
  rw [State.readWord, h]
  rfl

theorem byteOfWord_big (v : Word) (k : Nat) : byteOfWord .big v k = v.extractLsb' (24 - 8 * k) 8 :=
  congrArg (v.extractLsb' · 8) (Nat.mul_sub 8 3 k)

theorem byteOfWord_little (v : Word) (k : Nat) : byteOfWord .little v k = v.extractLsb' (8 * k) 8 := rfl

/-! ### The meanings, on the shared operations -/

theorem exec_lb (rs rt : Reg) (imm : Imm) (s : State) : exec (.lb rs rt imm) s =
    loadByte s (effectiveAddress (s.readReg rs) imm) fun b => setReg s rt (loadedByte b) := rfl

theorem exec_lw (rs rt : Reg) (imm : Imm) (s : State) : exec (.lw rs rt imm) s =
    loadWord s (effectiveAddress (s.readReg rs) imm) fun w => setReg s rt w := rfl

theorem exec_sb (rs rt : Reg) (imm : Imm) (s : State) : exec (.sb rs rt imm) s =
    storeChecks s (effectiveAddress (s.readReg rs) imm) 1
      (advance (s.writeByte (effectiveAddress (s.readReg rs) imm) (storedByte (s.readReg rt)))) := rfl

theorem exec_sw (rs rt : Reg) (imm : Imm) (s : State) : exec (.sw rs rt imm) s =
    storeWord s (effectiveAddress (s.readReg rs) imm) (s.readReg rt) := rfl

/-! ### What a load answers, check by check (R208) -/

theorem loadByte_of_mapped (h : allMapped s.launch ea 1 = true) (use : Byte → Result) :
    loadByte s ea use = use (s.readByte ea) := if_pos h

theorem loadByte_of_unmapped (h : allMapped s.launch ea 1 = false) (use : Byte → Result) :
    loadByte s ea use = .fault (.busErrorData ea s.pc s.npc) := if_neg (Bool.eq_false_iff.mp h)

theorem loadWord_of_misaligned (h : ea.toNat % 4 ≠ 0) (use : Word → Result) :
    loadWord s ea use = .fault (.addressErrorLoad ea s.pc s.npc) := if_neg (mt (aligned4_iff ea).mp h)

theorem loadWord_of_unmapped (h : ea.toNat % 4 = 0) (hm : allMapped s.launch ea 4 = false) (use : Word → Result) :
    loadWord s ea use = .fault (.busErrorData ea s.pc s.npc) :=
  (if_pos ((aligned4_iff ea).mpr h)).trans (if_neg (Bool.eq_false_iff.mp hm))

theorem loadWord_of_mapped (h : ea.toNat % 4 = 0) (hm : allMapped s.launch ea 4 = true) (use : Word → Result) :
    loadWord s ea use = use (s.readWord ea) :=
  (if_pos ((aligned4_iff ea).mpr h)).trans (if_pos hm)

/-! ### What a store answers, check by check (R208), beside `storeChecks_of_code` and `storeWord_of_aligned` -/

theorem storeChecks_of_unmapped {n : Nat} (h : allMapped s.launch ea n = false) (go : Result) :
    storeChecks s ea n go = .fault (.busErrorData ea s.pc s.npc) := if_neg (Bool.eq_false_iff.mp h)

theorem storeWord_of_misaligned (h : ea.toNat % 4 ≠ 0) (v : Word) :
    storeWord s ea v = .fault (.addressErrorStore ea s.pc s.npc) := if_neg (mt (aligned4_iff ea).mp h)

/-- Writing a byte changes only memory. -/
theorem State.writeByte_keeps (s : State) (a : Word) (v : Byte) : ∃ m, s.writeByte a v = { s with mem := m } := ⟨_, rfl⟩

/-- Writing a word changes only memory. -/
theorem State.writeWord_keeps (s : State) (a v : Word) : ∃ m, s.writeWord a v = { s with mem := m } := ⟨_, rfl⟩

/-- A store to mapped data completes; nothing but memory and the counters changes, memory as `t` has it. -/
theorem storeChecks_next_of_data {n : Nat} (hm : allMapped s.launch ea n = true) (hc : someInCode s.launch ea n = false)
    (ht : ∃ m, t = { s with mem := m }) :
    ∃ s', storeChecks s ea n (advance t) = .next s' ∧ KeepsRegs s s' ∧ KeepsHiLo s s' ∧ KeepsControl s s' ∧
      s'.draws = s.draws ∧ Advanced s s' 4#32 ∧ ∀ a, s'.readByte a = t.readByte a := by
  refine ⟨t.advancePc 4#32, (if_pos hm).trans (if_neg (Bool.eq_false_iff.mp hc)), ?_⟩
  obtain ⟨m, rfl⟩ := ht
  exact ⟨fun _ => rfl, ⟨rfl, rfl⟩, ⟨rfl, rfl, rfl, rfl, rfl⟩, rfl, ⟨rfl, rfl⟩, fun _ => rfl⟩

/-! ### The address and the values -/

/-- Settles O28: both summands are the words of their integers. -/
theorem effectiveAddress_eq_ofInt : Obligations.EffectiveAddress := by
  intro b imm
  rw [effectiveAddress, signExtend_eq_ofInt, BitVec.ofInt_add, BitVec.ofInt_toInt]

/-- The loaded byte is its integer as a word (R161; entry 19). -/
theorem loadedByte_eq_ofInt (b : Byte) : loadedByte b = BitVec.ofInt 32 b.toInt := rfl

/-- Settles O34: the row, whose bits 25:21 are hyphens, then the result. -/
theorem loadUpperImmediate : Obligations.LoadUpperImmediate :=
  ⟨rowDecodes_iWord_hyphen 0x0F (fun _ _ => rfl) (fun _ _ => rfl) fun _ _ => rfl, fun _ _ _ => completesReg_of_setReg rfl⟩

/-! ### Loads -/

/-- Settles O29: the row, then the one check of a byte's address. -/
theorem loadByteRule : Obligations.LoadByteRule := by
  refine ⟨rowDecodes_iWord 0x20 (fun _ _ _ => rfl) fun _ _ _ => rfl, fun rs rt imm s ea hea => ?_⟩
  have hexec : exec (.lb rs rt imm) s = loadByte s ea fun b => setReg s rt (loadedByte b) := hea ▸ exec_lb rs rt imm s
  rw [← allMapped_one, ← loadedByte_eq_ofInt]
  exact ⟨fun hm => completesReg_of_setReg (hexec.trans (loadByte_of_mapped hm _)),
    fun hm => hexec.trans (loadByte_of_unmapped hm _)⟩

/-- LW at an aligned mapped address completes with the word there. -/
theorem completesReg_lw {rs : Reg} {imm : Imm} (hea : ea = effectiveAddress (s.readReg rs) imm) (h : ea.toNat % 4 = 0)
    (hm : allMapped s.launch ea 4 = true) (rt : Reg) : CompletesReg (.lw rs rt imm) s rt (s.readWord ea) := by
  subst hea
  exact completesReg_of_setReg ((exec_lw rs rt imm s).trans (loadWord_of_mapped h hm _))

/-- Settles O30: the row, then the two checks in their order, then the word in each byte order. -/
theorem loadWordRule : Obligations.LoadWordRule := by
  refine ⟨rowDecodes_iWord 0x23 (fun _ _ _ => rfl) fun _ _ _ => rfl, fun rs rt imm s ea hea => ?_⟩
  have hexec : exec (.lw rs rt imm) s = loadWord s ea fun w => setReg s rt w := hea ▸ exec_lw rs rt imm s
  refine ⟨fun hmis => hexec.trans (loadWord_of_misaligned hmis _), fun hal hun => ?_, fun hal hm => ?_⟩
  · exact hexec.trans (loadWord_of_unmapped hal ((allMapped_eq_false_of_aligned hal).mpr hun) _)
  · have hword := completesReg_lw hea hal ((allMapped_of_aligned hal).mpr hm) rt
    exact ⟨fun hbig => State.readWord_of_big hbig ea ▸ hword, fun hlittle => State.readWord_of_little hlittle ea ▸ hword⟩

/-! ### Stores -/

/-- Settles O31: the row, then the two checks in their order, then the one byte that changes. -/
theorem storeByteRule : Obligations.StoreByteRule := by
  refine ⟨rowDecodes_iWord 0x28 (fun _ _ _ => rfl) fun _ _ _ => rfl, fun rs rt imm s ea hea => ?_⟩
  have hexec : exec (.sb rs rt imm) s = storeChecks s ea 1 (advance (s.writeByte ea (storedByte (s.readReg rt)))) :=
    hea ▸ exec_sb rs rt imm s
  rw [hexec, ← allMapped_one, ← someInCode_one]
  refine ⟨fun hun => storeChecks_of_unmapped hun _, fun hm hc => storeChecks_of_code hm hc, fun hm hc => ?_⟩
  obtain ⟨s', hnext, hregs, hhiLo, hcontrol, hdraws, hadv, hbyte⟩ :=
    storeChecks_next_of_data hm hc (s.writeByte_keeps ea (storedByte (s.readReg rt)))
  exact ⟨s', hnext, hregs, hhiLo, hcontrol, hdraws, hadv, fun a => (hbyte a).trans (s.readByte_writeByte ea a _)⟩

/-- Settles O32: the row, then the three checks in their order, then the four bytes and the others. -/
theorem storeWordRule : Obligations.StoreWordRule := by
  refine ⟨rowDecodes_iWord 0x2B (fun _ _ _ => rfl) fun _ _ _ => rfl, fun rs rt imm s ea hea => ?_⟩
  have hexec : exec (.sw rs rt imm) s = storeWord s ea (s.readReg rt) := hea ▸ exec_sw rs rt imm s
  rw [hexec]
  refine ⟨fun hmis => storeWord_of_misaligned hmis _, fun hal hun => ?_, fun hal hm => ?_⟩
  · rw [storeWord_of_aligned hal]
    exact storeChecks_of_unmapped ((allMapped_eq_false_of_aligned hal).mpr hun) _
  · rw [storeWord_of_aligned hal]
    have hmapped := (allMapped_of_aligned hal).mpr hm
    refine ⟨fun hcode => storeChecks_of_code hmapped ((someInCode_of_aligned hal).mpr hcode), fun hdata => ?_⟩
    obtain ⟨s', hnext, hregs, hhiLo, hcontrol, hdraws, hadv, hbyte⟩ :=
      storeChecks_next_of_data hmapped ((someInCode_eq_false_of_aligned hal).mpr hdata) (s.writeWord_keeps ea (s.readReg rt))
    refine ⟨s', hnext, hregs, hhiLo, hcontrol, hdraws, hadv, fun k hk => ?_, fun a ha => ?_⟩
    · rw [hbyte, s.readByte_writeWord_at ea _ hk]
      cases s.launch.byteOrder with
      | big => exact byteOfWord_big _ k
      | little => exact byteOfWord_little _ k
    · rw [hbyte, s.readByte_writeWord_ne _ ha]

/-! ### A store, then a load -/

/-- Settles O33: the store passed the load's checks, left the base register alone and put the word where the load reads. -/
theorem storeThenLoadWord : Obligations.StoreThenLoadWord := by
  intro rs rt rd imm s t h
  obtain ⟨hal, hm, -, ht⟩ := storeWord_next ((exec_sw rs rt imm s).symm.trans h)
  have hbase : t.readReg rs = s.readReg rs := by rw [ht, State.readReg_advancePc, State.readReg_writeWord]
  have hlaunch : t.launch = s.launch := by rw [ht, State.advancePc_launch, State.writeWord_launch]
  have hword : t.readWord (effectiveAddress (s.readReg rs) imm) = s.readReg rt := by
    rw [ht, State.readWord_congr (State.advancePc_mem _ _) (State.advancePc_launch _ _), State.readWord_writeWord]
  exact hword ▸ completesReg_lw (by rw [hbase]) ((aligned4_iff _).mp hal) (hlaunch ▸ hm) rd

end Sys2Proof.Machine
end

section
/-! SUPPORT. Rows of the three-register layout whose count field is free: SLL, and the two with hyphen bits 25:21 (30_encoding.md
R62, R63, R71, R72; entry 16). -/

namespace Sys2Proof.Machine

variable {w : Word} {f : BitVec 6}

/-- The mask that leaves bits 25:6 free fixes the two opcode fields. -/
theorem opcodes_of_shiftMask (h : w &&& 0xFC00003F#32 = rWord 0 0 0 0 f) : opOf w = 0#6 ∧ functOf w = f := by
  simpa using word_eq_iff.mp h

/-- A word under that mask is the layout of its four free fields. -/
theorem eq_rWord_of_shiftMask (h : w &&& 0xFC00003F#32 = rWord 0 0 0 0 f) : rWord (sOf w) (tOf w) (dOf w) (hOf w) f = w := by
  obtain ⟨hop, hf⟩ := opcodes_of_shiftMask h
  exact rWord_eq_iff.mpr ⟨hop, rfl, rfl, rfl, rfl, hf⟩

/-- Where bits 25:21 are hyphens, the layout has 0 in their place. -/
theorem rWord_of_shiftMask_hyphen (h : w &&& 0xFC00003F#32 = rWord 0 0 0 0 f) :
    rWord 0 (tOf w) (dOf w) (hOf w) f = w &&& ~~~0x3E00000#32 := by
  obtain ⟨hop, hf⟩ := opcodes_of_shiftMask h
  simp [rWord_eq_iff, hop, hf]

/-- A row of two registers and a count with hyphen bits 25:21 decodes to the instruction that encodes so. -/
theorem rowDecodes_rWord_shift {i : Reg → Reg → Shamt → Instr} (f : BitVec 6)
    (hwf : ∀ rt rd h, (i rt rd h).wellFormed = true) (hhyphen : ∀ rt rd h, (i rt rd h).hyphenBits = 0x3E00000#32)
    (hencode : ∀ rt rd h, encode (i rt rd h) = rWord 0 rt rd h f) :
    RowDecodes (rWord 0 0 0 0 f) 0xFC00003F (fun w => i (tOf w) (dOf w) (hOf w)) := by
  intro w hw
  refine decode_of_isWordOf ⟨hwf _ _ _, ?_⟩
  rw [hencode, hhyphen]
  exact rWord_of_shiftMask_hyphen hw

/-- The row of SLL decodes to SLL, but for the all-zero word, whose SLL is not well formed (R71; entry 15). -/
theorem decode_sll_of_ne_zero (hne : w ≠ 0#32) (h : w &&& 0xFC00003F#32 = 0#32) :
    decode w = .ok (.sll (sOf w) (tOf w) (dOf w) (hOf w)) := by
  have hword : encode (.sll (sOf w) (tOf w) (dOf w) (hOf w)) = w := eq_rWord_of_shiftMask h
  have hwf : (Instr.sll (sOf w) (tOf w) (dOf w) (hOf w)).wellFormed = true := wellFormed_sll_iff.mpr (hword.symm ▸ hne)
  exact (congrArg decode hword).symm.trans (decodeOfEncode _ hwf)

end Sys2Proof.Machine
end

section
/-! SUPPORT. NOOP, SLL, SLLV, SRA, SRL and SRLV (46_shift.md). -/

namespace Sys2Proof.Machine

/-! ### The shift laws in arithmetic form (R176) -/

/-- A left shift is a product modulo `2^32`. -/
theorem shl_eq_ofNat (v : Word) (n : Shamt) : shl v n = BitVec.ofNat 32 (v.toNat * 2 ^ n.toNat) :=
  congrArg (BitVec.ofNat 32) (Nat.shiftLeft_eq v.toNat n.toNat)

/-- A logical right shift is the floor of the quotient of the UWORD. -/
theorem shrl_eq_ofNat (v : Word) (n : Shamt) : shrl v n = BitVec.ofNat 32 (v.toNat / 2 ^ n.toNat) := by
  rw [shrl, ← Nat.shiftRight_eq_div_pow, ← BitVec.toNat_ushiftRight, BitVec.ofNat_toNat, BitVec.setWidth_eq]

/-- An arithmetic right shift is the floor of the quotient of the SWORD: `/` rounds down for a positive divisor. -/
theorem shra_eq_ofInt (v : Word) (n : Shamt) : shra v n = BitVec.ofInt 32 (v.toInt / 2 ^ n.toNat) := by
  rw [shra, BitVec.sshiftRight, Int.shiftRight_eq_div_pow]
  norm_cast

/-- The low five bits of the count register are its value modulo 32 (entry 19). -/
theorem toNat_shiftCount (v : Word) : (shiftCount v).toNat = v.toNat % 32 := BitVec.extractLsb'_toNat 0 5 v

/-! ### The statements -/

/-- Settles O35: the three rows, then each result by its shift law. -/
theorem shiftRules : Obligations.ShiftRules :=
  ⟨fun _ => decode_sll_of_ne_zero, rowDecodes_rWord_shift 0x02 (fun _ _ _ => rfl) (fun _ _ _ => rfl) fun _ _ _ => rfl,
    rowDecodes_rWord_shift 0x03 (fun _ _ _ => rfl) (fun _ _ _ => rfl) fun _ _ _ => rfl,
    fun _ _ rd _ s => ⟨completesReg_of_setReg (congrArg (setReg s rd) (shl_eq_ofNat ..)),
      completesReg_of_setReg (congrArg (setReg s rd) (shrl_eq_ofNat ..)),
      completesReg_of_setReg (congrArg (setReg s rd) (shra_eq_ofInt ..))⟩⟩

/-- Settles O36: the two rows, of which SLLV's has hyphen bits, then the same shift laws at the count register. -/
theorem variableShiftRules : Obligations.VariableShiftRules := by
  refine ⟨rowDecodes_rWord_hyphen 0x04 (fun _ _ _ => rfl) (fun _ _ _ => rfl) fun _ _ _ => rfl,
    rowDecodes_rWord 0x06 (fun _ _ _ => rfl) fun _ _ _ => rfl, fun rs rt rd s => ?_⟩
  rw [← toNat_shiftCount]
  exact ⟨completesReg_of_setReg (congrArg (setReg s rd) (shl_eq_ofNat ..)),
    completesReg_of_setReg (congrArg (setReg s rd) (shrl_eq_ofNat ..))⟩

/-- SLL with destination 0 discards its result, as NOOP has none (R22, R170). -/
theorem exec_sll_zero_eq_noop (rs rt : Reg) (h : Shamt) (s : State) : exec (.sll rs rt 0 h) s = exec .noop s :=
  congrArg advance (s.writeReg_zero (shl (s.readReg rt) h))

/-- Settles O37: NOOP moves the counters alone. -/
theorem noopRule : Obligations.NoopRule :=
  ⟨rfl, fun s => ⟨⟨s.advancePc 4#32, rfl, onlyCounters_jumpTo s _, rfl, rfl⟩, exec_sll_zero_eq_noop 0 0 0 s⟩⟩

end Sys2Proof.Machine
end

section
/-! SUPPORT. SLT, SLTI, SLTIU and SLTU (47_compare.md). -/

namespace Sys2Proof.Machine

/-! ### The comparisons, of exact integers (R180) -/

/-- The value of a comparison instruction, by its condition. -/
theorem setOn_decide (p : Prop) [Decidable p] : setOn (decide p) = if p then 1#32 else 0#32 := by
  by_cases h : p <;> simp [setOn, h]

theorem setOn_lessSigned (a b : Word) : setOn (lessSigned a b) = if a.toInt < b.toInt then 1#32 else 0#32 :=
  setOn_decide (a.toInt < b.toInt)

theorem setOn_lessUnsigned (a b : Word) : setOn (lessUnsigned a b) = if a.toNat < b.toNat then 1#32 else 0#32 :=
  setOn_decide (a.toNat < b.toNat)

/-! ### The statements -/

/-- Settles O38: the two rows, then each comparison of two registers. -/
theorem compareRegisters : Obligations.CompareRegisters :=
  ⟨rowDecodes_rWord 0x2A (fun _ _ _ => rfl) fun _ _ _ => rfl, rowDecodes_rWord 0x2B (fun _ _ _ => rfl) fun _ _ _ => rfl,
    fun _ _ rd s => ⟨completesReg_of_setReg (congrArg (setReg s rd) (setOn_lessSigned ..)),
      completesReg_of_setReg (congrArg (setReg s rd) (setOn_lessUnsigned ..))⟩⟩

/-- Settles O39: the two rows, then each comparison with the sign-extended immediate: its integer for SLTI, for SLTIU the UWORD of
that integer's word (R183). -/
theorem compareImmediates : Obligations.CompareImmediates := by
  refine ⟨rowDecodes_iWord 0x0A (fun _ _ _ => rfl) fun _ _ _ => rfl, rowDecodes_iWord 0x0B (fun _ _ _ => rfl) fun _ _ _ => rfl,
    fun rs rt imm s => ⟨?_, ?_⟩⟩
  · rw [← toInt_arithImm]
    exact completesReg_of_setReg (congrArg (setReg s rt) (setOn_lessSigned ..))
  · rw [← signExtend_eq_ofInt]
    exact completesReg_of_setReg (congrArg (setReg s rt) (setOn_lessUnsigned ..))

end Sys2Proof.Machine
end

section
/-! SUPPORT. The step at a state that fetches an instruction (10_state.md R27), a word placed from outside (entry 18), SYSCALL
(48_system.md R191) and the words of the spec's examples. -/

namespace Sys2Proof.Machine

variable {i : Instr} {s t : State}

/-! ### A resumed state, a fetched instruction -/

theorem step_of_resume (h : s.resume = .ok t) : step s = cycle t := by
  rw [step, h]

/-- Where an instruction is fetched, the step is that instruction. -/
theorem step_of_fetches (h : Fetches s i) : step s = runInstr i s := by
  obtain ⟨hrun, hpc, hc, hi⟩ := h
  rw [step_of_running hrun, cycle_of_code hpc hc, runWord_of_ok hi]

@[simp] theorem placeAtPc_pc (s : State) (w : Word) : (placeAtPc s w).pc = s.pc := rfl
@[simp] theorem placeAtPc_run (s : State) (w : Word) : (placeAtPc s w).run = .running := rfl
@[simp] theorem placeAtPc_launch (s : State) (w : Word) : (placeAtPc s w).launch = addCode s.launch s.pc := rfl

theorem fetches_placeAtPc {w : Word} (hpc : s.pc.toNat % 4 = 0) (hi : decode w = .ok i) : Fetches (placeAtPc s w) i := by
  rw [Fetches, placeAtPc_run, placeAtPc_pc, placeAtPc_launch, readWord_placeAtPc]
  exact ⟨rfl, hpc, allInCode_addCode s.launch hpc, hi⟩

/-- Settles O7: the placed word is the one fetched. -/
theorem withFetchWordRuns : Obligations.WithFetchWordRuns := by
  intro s w i hpc hw hi
  have hfetch : Fetches (s.withFetchWord 32 w) i := by
    rw [State.withFetchWord, Nat.mod_eq_of_lt hw]
    exact fetches_placeAtPc hpc hi
  exact ⟨hfetch, step_of_fetches hfetch⟩

/-! ### Decoding -/

/-- Settles O4: each word is closed, and so is its decoding. -/
theorem sampleWordsDecode : Obligations.SampleWordsDecode :=
  ⟨rfl, rfl, rfl, rfl, rfl, rfl, rfl, rfl, rfl, rfl, rfl, rfl, rfl, rfl⟩

/-- The row of SYSCALL, whose bits 25:6 are hyphens. -/
theorem rowDecodes_syscall : RowDecodes 0x0000000C 0xFC00003F (fun _ => .syscall) := by
  intro w hw
  obtain ⟨hop, hf⟩ := opcodes_of_shiftMask (f := 0x0C) hw
  refine decode_of_isWordOf ⟨rfl, rWord_eq_iff.mpr ?_⟩
  simp [Instr.hyphenBits.eq_def, hop, hf]

/-- Settles O40. -/
theorem syscallRule : Obligations.SyscallRule :=
  ⟨rowDecodes_syscall, fun _ => ⟨_, rfl, rfl, fun _ => rfl, ⟨rfl, rfl⟩, fun _ => rfl, rfl, rfl, rfl, rfl, rfl⟩⟩

end Sys2Proof.Machine
end

section
/-! SUPPORT. The faults of a step, said once (60_exceptions.md R200, R201, R208): those of the fetch and the decode beside those of
the instruction (`Faulted`). -/

namespace Sys2Proof.Machine

variable {i : Instr} {s : State} {f : Fault} {ea : Word} {n : Nat}

/-- The faults of the cycle at `s`, in the order of its checks (R208). -/
inductive CycleFaulted (s : State) : Fault → Prop
  | addressErrorFetch : s.pc.toNat % 4 ≠ 0 → CycleFaulted s (.addressErrorFetch s.pc s.npc)
  | busErrorFetch : s.pc.toNat % 4 = 0 → allInCode s.launch s.pc 4 = false → CycleFaulted s (.busErrorFetch s.pc s.npc)
  | reservedInstruction (e : DecodeError) : decode (s.readWord s.pc) = .error e →
      CycleFaulted s (.reservedInstruction (s.readWord s.pc) s.pc s.npc)
  | instruction (i : Instr) (f : Fault) : s.pc.toNat % 4 = 0 → allInCode s.launch s.pc 4 = true →
      decode (s.readWord s.pc) = .ok i → Faulted i s f → CycleFaulted s f

/-! ### The inversion of the cycle and of the step at a fault -/

/-- The optional checks refuse, so a decoded instruction faults by its own checks alone. -/
theorem runInstr_fault (h : runInstr i s = .fault f) : exec i s = .fault f := by
  cases hz : hazardCheck i s with
  | some r => exact absurd ((runInstr_of_hazard hz).symm.trans h) nofun
  | none =>
    rw [runInstr_of_no_hazard hz] at h
    cases he : exec i s with
    | fault g => rw [he] at h; exact h
    | next t | refused r => rw [he] at h; exact absurd h nofun

theorem cycle_faulted (h : cycle s = .fault f) : CycleFaulted s f := by
  by_cases hpc : s.pc.toNat % 4 = 0
  · cases hc : allInCode s.launch s.pc 4 with
    | false =>
      obtain rfl := Host.Outcome.fault.inj ((cycle_of_not_code hpc hc).symm.trans h)
      exact .busErrorFetch hpc hc
    | true =>
      rw [cycle_of_code hpc hc] at h
      cases hi : decode (s.readWord s.pc) with
      | error e =>
        obtain rfl := Host.Outcome.fault.inj ((runWord_of_error hi).symm.trans h)
        exact .reservedInstruction e hi
      | ok i =>
        rw [runWord_of_ok hi] at h
        exact .instruction i f hpc hc hi (exec_faulted (runInstr_fault h))
  · obtain rfl := Host.Outcome.fault.inj ((cycle_of_misaligned hpc).symm.trans h)
    exact .addressErrorFetch hpc

/-- What the environment cannot resume is refused, so a step that faults does so in the cycle. -/
theorem step_faulted (h : step s = .fault f) : ∃ t, s.resume = .ok t ∧ CycleFaulted t f := by
  unfold step at h
  split at h
  · exact absurd h nofun
  · next t ht => exact ⟨t, ht, cycle_faulted h⟩

/-! ### The counters of a fault -/

theorem Faulted.counters (h : Faulted i s f) : faultPc f = s.pc ∧ faultNpc f = s.npc := by
  cases h <;> exact ⟨rfl, rfl⟩

theorem CycleFaulted.counters (h : CycleFaulted s f) : faultPc f = s.pc ∧ faultNpc f = s.npc := by
  cases h with
  | instruction i f _ _ _ hf => exact hf.counters
  | addressErrorFetch | busErrorFetch | reservedInstruction => exact ⟨rfl, rfl⟩

/-- Settles O48: a reply moves neither counter, so they are those of the state the cycle faulted in. -/
theorem faultCarriesCounters : Obligations.FaultCarriesCounters := by
  intro s f h
  obtain ⟨t, ht, hf⟩ := step_faulted h
  obtain ⟨hpc, hnpc, -, -⟩ := State.resume_keeps ht
  exact hpc ▸ hnpc ▸ hf.counters

/-! ### The instructions of each fault -/

/-- A load of one byte is an LB, one of four an LW. -/
theorem lb_or_lw_of_loadTarget (h : loadTarget i s = some (ea, n)) :
    ∃ rs rt imm, ea = effectiveAddress (s.readReg rs) imm ∧ (i = .lb rs rt imm ∧ n = 1 ∨ i = .lw rs rt imm ∧ n = 4) := by
  cases i with
  | lb rs rt imm => cases h; exact ⟨rs, rt, imm, rfl, .inl ⟨rfl, rfl⟩⟩
  | lw rs rt imm => cases h; exact ⟨rs, rt, imm, rfl, .inr ⟨rfl, rfl⟩⟩
  | _ => exact absurd h nofun

/-- A store of one byte is an SB, one of four an SW. -/
theorem sb_or_sw_of_storeTarget (h : storeTarget i s = some (ea, n)) :
    ∃ rs rt imm, ea = effectiveAddress (s.readReg rs) imm ∧ (i = .sb rs rt imm ∧ n = 1 ∨ i = .sw rs rt imm ∧ n = 4) := by
  cases i with
  | sb rs rt imm => cases h; exact ⟨rs, rt, imm, rfl, .inl ⟨rfl, rfl⟩⟩
  | sw rs rt imm => cases h; exact ⟨rs, rt, imm, rfl, .inr ⟨rfl, rfl⟩⟩
  | _ => exact absurd h nofun

theorem lw_of_loadTarget (h : loadTarget i s = some (ea, 4)) :
    ∃ rs rt imm, i = .lw rs rt imm ∧ ea = effectiveAddress (s.readReg rs) imm := by
  obtain ⟨rs, rt, imm, hea, ⟨-, hn⟩ | ⟨hi, -⟩⟩ := lb_or_lw_of_loadTarget h
  · exact absurd hn (by decide)
  · exact ⟨rs, rt, imm, hi, hea⟩

theorem sw_of_storeTarget (h : storeTarget i s = some (ea, 4)) :
    ∃ rs rt imm, i = .sw rs rt imm ∧ ea = effectiveAddress (s.readReg rs) imm := by
  obtain ⟨rs, rt, imm, hea, ⟨-, hn⟩ | ⟨hi, -⟩⟩ := sb_or_sw_of_storeTarget h
  · exact absurd hn (by decide)
  · exact ⟨rs, rt, imm, hi, hea⟩

/-- Loads and stores together: the instructions that can raise BusErrorData (R48). -/
theorem byte_or_word_of_target (h : loadTarget i s = some (ea, n) ∨ storeTarget i s = some (ea, n)) :
    ∃ rs rt imm, ea = effectiveAddress (s.readReg rs) imm ∧
      ((i = .lb rs rt imm ∨ i = .sb rs rt imm) ∧ n = 1 ∨ (i = .lw rs rt imm ∨ i = .sw rs rt imm) ∧ n = 4) := by
  rcases h with hl | hs
  · obtain ⟨rs, rt, imm, hea, ⟨hi, hn⟩ | ⟨hi, hn⟩⟩ := lb_or_lw_of_loadTarget hl
    · exact ⟨rs, rt, imm, hea, .inl ⟨.inl hi, hn⟩⟩
    · exact ⟨rs, rt, imm, hea, .inr ⟨.inl hi, hn⟩⟩
  · obtain ⟨rs, rt, imm, hea, ⟨hi, hn⟩ | ⟨hi, hn⟩⟩ := sb_or_sw_of_storeTarget hs
    · exact ⟨rs, rt, imm, hea, .inl ⟨.inr hi, hn⟩⟩
    · exact ⟨rs, rt, imm, hea, .inr ⟨.inr hi, hn⟩⟩

/-- ADD, ADDI and SUB, each with its exact result (R101, R102, R105). -/
theorem trapping_of_not_fitsSword {r : Int} (h : signedResult i s = some r) (hfits : ¬FitsSword r) :
    (∃ rs rt rd, i = .add rs rt rd ∧ ¬FitsSword ((s.readReg rs).toInt + (s.readReg rt).toInt)) ∨
      (∃ rs rt imm, i = .addi rs rt imm ∧ ¬FitsSword ((s.readReg rs).toInt + imm.toInt)) ∨
      (∃ rs rt rd, i = .sub rs rt rd ∧ ¬FitsSword ((s.readReg rs).toInt - (s.readReg rt).toInt)) := by
  cases i with
  | add rs rt rd => cases h; exact .inl ⟨rs, rt, rd, rfl, hfits⟩
  | addi rs rt imm => cases h; exact .inr (.inl ⟨rs, rt, imm, rfl, hfits⟩)
  | sub rs rt rd => cases h; exact .inr (.inr ⟨rs, rt, rd, rfl, hfits⟩)
  | _ => exact absurd h nofun

theorem allInCode_eq_false_of_aligned {l : Launch} {a : Word} (h : a.toNat % 4 = 0) :
    allInCode l a 4 = false ↔ ∃ k < 4, inCode l (a.toNat + k) = false := by
  rw [← Bool.not_eq_true, allInCode_of_aligned h]
  simp

/-- Settles O47: each fault of the cycle, and each of the instruction fetched, is a row of the table. -/
theorem faultTable : Obligations.FaultTable := by
  intro s f hrun h
  rw [step_of_running hrun] at h
  cases cycle_faulted h with
  | addressErrorFetch hpc => exact ⟨rfl, hpc⟩
  | busErrorFetch hpc hc => exact ⟨rfl, hpc, (allInCode_eq_false_of_aligned hpc).mp hc⟩
  | reservedInstruction e he => exact ⟨rfl, decode_error_iff.mp ⟨e, he⟩⟩
  | instruction i f hpc hc hi hf =>
    have hfetch : Fetches s i := ⟨hrun, hpc, hc, hi⟩
    have hsame : ∀ j, i = j → Fetches s j := fun j hij => hij ▸ hfetch
    cases hf with
    | overflow r hr hfits => exact ⟨i, hfetch, trapping_of_not_fitsSword hr hfits⟩
    | addressErrorLoad ea hl ha =>
      obtain ⟨rs, rt, imm, rfl, hea⟩ := lw_of_loadTarget hl
      exact ⟨ha, rs, rt, imm, hfetch, hea⟩
    | addressErrorStore ea hs ha =>
      obtain ⟨rs, rt, imm, rfl, hea⟩ := sw_of_storeTarget hs
      exact ⟨ha, rs, rt, imm, hfetch, hea⟩
    | busErrorData ea n ht ha hm =>
      obtain ⟨rs, rt, imm, hea, ⟨hi, rfl⟩ | ⟨hi, rfl⟩⟩ := byte_or_word_of_target ht
      · refine ⟨rs, rt, imm, hea, .inl ⟨hi.imp (hsame _) (hsame _), ?_⟩⟩
        rwa [allMapped_one] at hm
      · exact ⟨rs, rt, imm, hea,
          .inr ⟨hi.imp (hsame _) (hsame _), (allMapped_eq_false_of_aligned (ha rfl)).mp hm⟩⟩

end Sys2Proof.Machine
end

section
/-! SUPPORT. What the environment does at an EnvCall (48_system.md R191; 60_exceptions.md R209, R219; entries 9 to 11). -/

namespace Sys2Proof.Machine

variable {s : State} {r : EnvReply} {rest : List EnvReply}

/-! ### The resumed state -/

/-- Without a reply the run has ended (R219; entry 10). -/
theorem State.resume_of_no_reply (hrun : s.run = .envCall) (henv : s.env = []) : s.resume = .error (.runEnded s.pc) := by
  simp only [State.resume, hrun, henv]

theorem State.resume_of_reply (hrun : s.run = .envCall) (henv : s.env = r :: rest) (hr : replyAllowed s.launch r = true) :
    s.resume = .ok { s.applyReply r with run := .running, env := rest } := by
  simp only [State.resume, hrun, henv, hr, if_pos]

/-- A reply outside mapped data is not applied (entry 11). -/
theorem State.resume_of_bad_reply (hrun : s.run = .envCall) (henv : s.env = r :: rest)
    (hr : replyAllowed s.launch r = false) : s.resume = .error (.envReplyOutsideMap s.pc) := by
  simp only [State.resume, hrun, henv, hr, if_neg Bool.false_ne_true]

theorem step_of_resume_error {q : Refusal} (h : s.resume = .error q) : step s = .refused q := by
  rw [step, h]

/-! ### The values of a reply -/

/-- A named register other than 0 has the last value named. -/
theorem State.readReg_applyReply_last {pre post : List (Reg × Word)} {d : Reg} {v : Word}
    (hregs : r.regs = pre ++ (d, v) :: post) (hlast : ∀ w ∈ post, w.1 ≠ d) (hd : d ≠ 0#5) : (s.applyReply r).readReg d = v := by
  rw [State.readReg_applyReply, hregs, State.readReg_writeRegs_last s v hd hlast]

theorem State.readReg_applyReply_ne {d : Reg} (h : ∀ w ∈ r.regs, w.1 ≠ d) : (s.applyReply r).readReg d = s.readReg d := by
  rw [State.readReg_applyReply, State.readReg_writeRegs_ne s h]

/-- A named byte has the last value named. -/
theorem State.readByte_applyReply_last {pre post : List (Word × Byte)} {a : Word} {v : Byte}
    (hmem : r.mem = pre ++ (a, v) :: post) (hlast : ∀ c ∈ post, c.1 ≠ a) : (s.applyReply r).readByte a = v := by
  rw [State.readByte_applyReply, hmem, State.readByte_writeBytes_last s v hlast]

theorem State.readByte_applyReply_ne {a : Word} (h : ∀ c ∈ r.mem, c.1 ≠ a) : (s.applyReply r).readByte a = s.readByte a := by
  rw [State.readByte_applyReply, State.readByte_writeBytes_ne s h]

/-! ### The statement -/

/-- Settles O8: the marks of the run apart, the resumed state reads as the reply leaves it. -/
theorem environmentActs : Obligations.EnvironmentActs := by
  intro s hrun
  refine ⟨fun henv => step_of_resume_error (State.resume_of_no_reply hrun henv), fun r rest henv => ⟨fun hr => ?_, fun hr => ?_⟩⟩
  · exact step_of_resume_error (State.resume_of_bad_reply hrun henv hr)
  · obtain ⟨hpc, hnpc, ⟨hlaunch, -, -, hload, hwindow⟩, hdraws⟩ := State.applyReply_keeps s r
    refine ⟨_, rfl, step_of_resume (State.resume_of_reply hrun henv hr), hpc, hnpc, hlaunch, hdraws, hload, hwindow,
      State.applyReply_hi s r, State.applyReply_lo s r, rfl, ?_, ?_, ?_, ?_, ?_⟩
    · exact fun d v pre post hregs hlast hd => State.readReg_applyReply_last hregs hlast hd
    · exact fun d h => State.readReg_applyReply_ne h
    · exact fun a v pre post hmem hlast => State.readByte_applyReply_last hmem hlast
    · exact fun a h => State.readByte_applyReply_ne h
    · exact fun a ha => State.readByte_applyReply_code hr ha

end Sys2Proof.Machine
end

section
/-! SUPPORT. The two optional checks (70_reset_and_hazards.md R243, R244; entry 14): when each refuses, and what a completed step
leaves for the next one. -/

namespace Sys2Proof.Machine

variable {i : Instr} {s t : State} {p : Word}

/-! ### The checks -/

theorem loadDelayHazard_iff : loadDelayHazard i s = true ↔ ∃ r, s.lastLoad = some r ∧ r ∈ readsRegs i := by
  unfold loadDelayHazard
  cases s.lastLoad with
  | none => simp
  | some r => simp

theorem hiLoHazard_iff : hiLoHazard i s = true ↔ writesHiLo i = true ∧ s.hiLoWindow ≠ .clear := by
  simp [hiLoHazard]

theorem hazardCheck_of_loadDelay (hon : s.launch.loadDelayCheck = true) (h : loadDelayHazard i s = true) :
    hazardCheck i s = some (.loadDelay s.pc) := by
  simp [hazardCheck, hon, h]

/-- The load delay check comes first (entry 14). -/
theorem hazardCheck_of_hiLoHazard (hon : s.launch.hiLoHazardCheck = true) (h : hiLoHazard i s = true) :
    hazardCheck i s = some (.hiLoHazard s.pc) ∨
      (s.launch.loadDelayCheck = true ∧ hazardCheck i s = some (.loadDelay s.pc)) := by
  cases hload : s.launch.loadDelayCheck && loadDelayHazard i s with
  | false => exact .inl (by simp [hazardCheck, hload, hon, h])
  | true =>
    obtain ⟨hloadOn, hhazard⟩ := (Bool.and_eq_true ..).mp hload
    exact .inr ⟨hloadOn, hazardCheck_of_loadDelay hloadOn hhazard⟩

/-- The refusals of the optional checks at the instruction `i`. -/
inductive HazardRefused (i : Instr) (s : State) : Refusal → Prop
  | loadDelay : s.launch.loadDelayCheck = true → loadDelayHazard i s = true → HazardRefused i s (.loadDelay s.pc)
  | hiLoHazard : s.launch.hiLoHazardCheck = true → hiLoHazard i s = true → HazardRefused i s (.hiLoHazard s.pc)

theorem hazardRefused_of_hazardCheck {r : Refusal} (h : hazardCheck i s = some r) : HazardRefused i s r := by
  unfold hazardCheck at h
  split at h
  · next hload =>
    obtain ⟨hon, hhazard⟩ := (Bool.and_eq_true ..).mp hload
    exact Option.some.inj h ▸ .loadDelay hon hhazard
  · split at h
    · next hhiLo =>
      obtain ⟨hon, hhazard⟩ := (Bool.and_eq_true ..).mp hhiLo
      exact Option.some.inj h ▸ .hiLoHazard hon hhazard
    · exact absurd h nofun

/-- A decoded instruction is refused by an optional check or by its own. -/
theorem runInstr_refused {r : Refusal} (h : runInstr i s = .refused r) : HazardRefused i s r ∨ Refused i s r := by
  cases hz : hazardCheck i s with
  | some q =>
    obtain rfl := Host.Outcome.refused.inj ((runInstr_of_hazard hz).symm.trans h)
    exact .inl (hazardRefused_of_hazardCheck hz)
  | none =>
    rw [runInstr_of_no_hazard hz] at h
    cases he : exec i s with
    | refused q =>
      rw [he] at h
      obtain rfl := Host.Outcome.refused.inj h
      exact .inr (exec_refused he)
    | next t | fault g => rw [he] at h; exact absurd h nofun

/-- The instruction's own refusals are of other kinds. -/
theorem runInstr_loadDelay (h : runInstr i s = .refused (.loadDelay p)) :
    s.launch.loadDelayCheck = true ∧ loadDelayHazard i s = true := by
  rcases runInstr_refused h with hz | hr
  · cases hz with
    | loadDelay hon hhazard => exact ⟨hon, hhazard⟩
  · cases hr

theorem runInstr_hiLoHazard (h : runInstr i s = .refused (.hiLoHazard p)) :
    s.launch.hiLoHazardCheck = true ∧ hiLoHazard i s = true := by
  rcases runInstr_refused h with hz | hr
  · cases hz with
    | hiLoHazard hon hhazard => exact ⟨hon, hhazard⟩
  · cases hr

/-! ### What a completed step notes -/

/-- The window is the bookkeeping's own: an instruction does not move it. -/
theorem Completed.hiLoWindow_eq (h : Completed i s t) : t.hiLoWindow = s.hiLoWindow := by
  cases h with
  | transfer u target _ _ hu => cases hu <;> simp
  | result | hiLo | storeByte | storeWord | envCall => simp

/-- A step that completes notes its load and moves the window on. -/
theorem runInstr_notes (h : runInstr i s = .next t) :
    t.lastLoad = loadedReg i ∧ t.hiLoWindow = if readsHiLo i then .twoLeft else s.hiLoWindow.tick := by
  obtain ⟨-, u, hu, rfl⟩ := runInstr_next h
  rw [← (exec_completed hu).hiLoWindow_eq]
  exact ⟨rfl, rfl⟩

theorem loadedReg_eq_some_iff {r : Reg} :
    loadedReg i = some r ↔ r ≠ 0#5 ∧ ∃ rs imm, i = .lb rs r imm ∨ i = .lw rs r imm := by
  cases i with
  | lb rs rt imm | lw rs rt imm =>
    by_cases hrt : rt = 0#5
    · simpa [loadedReg, hrt] using fun hr : ¬r = 0#5 => Ne.symm hr
    · simpa [loadedReg, hrt] using fun hr : rt = r => hr ▸ hrt
  | _ => simp [loadedReg]

theorem HiLoWindow.tick_ne_twoLeft (w : HiLoWindow) : w.tick ≠ .twoLeft := by
  cases w <;> nofun

theorem HiLoWindow.tick_eq_oneLeft_iff {w : HiLoWindow} : w.tick = .oneLeft ↔ w = .twoLeft := by
  cases w <;> simp [HiLoWindow.tick]

/-! ### The statements -/

/-- Settles O50. -/
theorem loadDelayRule : Obligations.LoadDelayRule := by
  intro s i hfetch
  rw [step_of_fetches hfetch]
  refine ⟨fun hon hread => ?_, fun p h => ?_, fun t h r => ?_⟩
  · exact runInstr_of_hazard (hazardCheck_of_loadDelay hon (loadDelayHazard_iff.mpr hread))
  · obtain ⟨hon, hhazard⟩ := runInstr_loadDelay h
    exact ⟨hon, loadDelayHazard_iff.mp hhazard⟩
  · obtain ⟨hload, -⟩ := runInstr_notes h
    rw [hload]
    exact loadedReg_eq_some_iff

/-- Settles O51: a move opens the window, and any other instruction ticks it. -/
theorem hiLoHazardRule : Obligations.HiLoHazardRule := by
  intro s i hfetch
  rw [step_of_fetches hfetch]
  refine ⟨fun hon hwrites hwindow => ?_, fun p h => ?_, fun t h => ?_⟩
  · exact (hazardCheck_of_hiLoHazard hon (hiLoHazard_iff.mpr ⟨hwrites, hwindow⟩)).imp runInstr_of_hazard
      fun ⟨hloadOn, hcheck⟩ => ⟨hloadOn, runInstr_of_hazard hcheck⟩
  · obtain ⟨hon, hhazard⟩ := runInstr_hiLoHazard h
    exact ⟨hon, hiLoHazard_iff.mp hhazard⟩
  · obtain ⟨-, hwindow⟩ := runInstr_notes h
    cases hreads : readsHiLo i with
    | true => simp [hwindow, hreads]
    | false => simp [hwindow, hreads, HiLoWindow.tick_ne_twoLeft, HiLoWindow.tick_eq_oneLeft_iff]

end Sys2Proof.Machine
end

section
/-! SUPPORT. The step with both optional checks off (70_reset_and_hazards.md R243, D33): no shared operation looks at their setting,
so an instruction does the same, and the step is refused less often. -/

namespace Sys2Proof.Machine

variable {s t u : State}

/-! ### The shared operations with the checks off -/

theorem writeReg_checksOff (s : State) (d : Reg) (v : Word) : (checksOff s).writeReg d v = checksOff (s.writeReg d v) := by
  unfold State.writeReg
  split <;> rfl

theorem link_checksOff (s : State) : (checksOff s).link = checksOff s.link := writeReg_checksOff s _ _

theorem linkNotTaken_checksOff (s : State) : (checksOff s).linkNotTaken = checksOff s.linkNotTaken := by
  unfold State.linkNotTaken
  rw [show (checksOff s).launch.linkNotTaken = s.launch.linkNotTaken from rfl]
  split
  · exact writeReg_checksOff s.afterDraw _ _
  · rfl
  · exact link_checksOff s

theorem multHi_checksOff (s : State) (p : Int) : (checksOff s).multHi p = checksOff (s.multHi p) := by
  unfold State.multHi
  rw [show (checksOff s).launch.multHi = s.launch.multHi from rfl]
  split <;> rfl

/-- A check that answers alike leaves the outcomes to compare. -/
theorem ite_mapNext {f : State → State} {c d : Prop} [Decidable c] [Decidable d] {a a' b b' : Result} (hc : c ↔ d)
    (ha : a' = mapNext f a) (hb : b' = mapNext f b) : (if c then a' else b') = mapNext f (if d then a else b) := by
  rw [apply_ite (mapNext f)]
  exact if_congr hc ha hb

theorem setReg_checksOff (s : State) (d : Reg) (v : Word) :
    setReg (checksOff s) d v = mapNext checksOff (setReg s d v) :=
  congrArg (fun t : State => advance t) (writeReg_checksOff s d v)

theorem setRegTrapping_checksOff (s : State) (o : Bool) (d : Reg) (v : Word) :
    setRegTrapping (checksOff s) o d v = mapNext checksOff (setRegTrapping s o d v) := by
  unfold setRegTrapping
  exact ite_mapNext Iff.rfl rfl (setReg_checksOff s d v)

theorem transfer_checksOff (ht : t = checksOff u) : transfer (checksOff s) t = mapNext checksOff (transfer s u) := by
  unfold transfer
  exact ite_mapNext Iff.rfl (congrArg Host.Outcome.next ht) rfl

theorem branchAndLink_checksOff (s : State) (taken : Bool) (imm : Imm) :
    branchAndLink (checksOff s) taken imm = mapNext checksOff (branchAndLink s taken imm) := by
  refine transfer_checksOff ?_
  cases taken with
  | true => exact congrArg (State.advancePc · (branchOffset imm)) (link_checksOff s)
  | false => exact congrArg (State.advancePc · 4#32) (linkNotTaken_checksOff s)

theorem setProduct_checksOff (s : State) (p : Int) :
    setProduct (checksOff s) p = mapNext checksOff (setProduct s p) :=
  congrArg (fun t : State => advance t) (multHi_checksOff (s.setLo (productLow p)) p)

theorem setQuotient_checksOff (s : State) (undefined : Bool) (q r : Word) :
    setQuotient (checksOff s) undefined q r = mapNext checksOff (setQuotient s undefined q r) := by
  cases undefined <;> rfl

theorem loadByte_checksOff {ea : Word} {use use' : Byte → Result} (huse : ∀ b, use' b = mapNext checksOff (use b)) :
    loadByte (checksOff s) ea use' = mapNext checksOff (loadByte s ea use) := by
  unfold loadByte
  exact ite_mapNext Iff.rfl (huse _) rfl

theorem loadWord_checksOff {ea : Word} {use use' : Word → Result} (huse : ∀ w, use' w = mapNext checksOff (use w)) :
    loadWord (checksOff s) ea use' = mapNext checksOff (loadWord s ea use) := by
  unfold loadWord
  exact ite_mapNext Iff.rfl (ite_mapNext Iff.rfl (huse _) rfl) rfl

theorem storeChecks_checksOff (s : State) (ea : Word) (n : Nat) (t : State) :
    storeChecks (checksOff s) ea n (advance (checksOff t)) = mapNext checksOff (storeChecks s ea n (advance t)) := by
  unfold storeChecks
  exact ite_mapNext Iff.rfl (ite_mapNext Iff.rfl rfl rfl) rfl

theorem storeWord_checksOff (s : State) (ea v : Word) :
    storeWord (checksOff s) ea v = mapNext checksOff (storeWord s ea v) := by
  unfold storeWord
  exact ite_mapNext Iff.rfl (storeChecks_checksOff s ea 4 (s.writeWord ea v)) rfl

/-! ### An instruction, a resumed state, the step -/

/-- The meaning of an instruction does not depend on the optional checks. -/
theorem exec_checksOff (i : Instr) (s : State) : exec i (checksOff s) = mapNext checksOff (exec i s) := by
  cases i with
  | add | addi | sub => exact setRegTrapping_checksOff s _ _ _
  | addiu | addu | subu | and | andi | or | ori | xor | xori | lui => exact setReg_checksOff s _ _
  | sll | sllv | sra | srl | srlv | slt | slti | sltiu | sltu | mfhi | mflo => exact setReg_checksOff s _ _
  | noop | syscall => rfl
  | beq | bne | bgez | bgtz | blez | bltz | j | jr => exact transfer_checksOff rfl
  | bgezal | bltzal => exact branchAndLink_checksOff s _ _
  | jal target => exact transfer_checksOff (congrArg (State.jumpTo · (jumpTarget s.npc target)) (link_checksOff s))
  | div | divu => exact setQuotient_checksOff s _ _ _
  | mult | multu => exact setProduct_checksOff s _
  | lb => exact loadByte_checksOff fun _ => setReg_checksOff s _ _
  | lw => exact loadWord_checksOff fun _ => setReg_checksOff s _ _
  | sb => exact storeChecks_checksOff s _ 1 (s.writeByte _ _)
  | sw => exact storeWord_checksOff s _ _

theorem writeRegs_checksOff (s : State) (values : List (Reg × Word)) :
    (checksOff s).writeRegs values = checksOff (s.writeRegs values) :=
  List.foldl_hom checksOff fun t w => writeReg_checksOff t w.1 w.2

theorem writeBytes_checksOff (s : State) (values : List (Word × Byte)) :
    (checksOff s).writeBytes values = checksOff (s.writeBytes values) :=
  List.foldl_hom (g₁ := fun (t : State) (w : Word × Byte) => t.writeByte w.1 w.2) checksOff fun _ _ => rfl

theorem applyReply_checksOff (s : State) (r : EnvReply) : (checksOff s).applyReply r = checksOff (s.applyReply r) := by
  unfold State.applyReply
  rw [writeRegs_checksOff]
  exact writeBytes_checksOff (((s.writeRegs r.regs).setHi (r.hi.getD s.hi)).setLo (r.lo.getD s.lo)) r.mem

theorem resume_checksOff (h : s.resume = .ok t) : (checksOff s).resume = .ok (checksOff t) := by
  rcases State.resume_ok h with ⟨hrun, rfl⟩ | ⟨r, rest, hrun, henv, hr, rfl⟩
  · exact State.resume_of_running hrun
  · rw [State.resume_of_reply (s := checksOff s) hrun henv hr, applyReply_checksOff]
    rfl

/-- Settles O52: the resumed state fetches the same instruction, no optional check refuses it, and it does the same. -/
theorem checksOnlyRemoveRuns : Obligations.ChecksOnlyRemoveRuns := by
  intro s t h
  obtain ⟨v, i, u, hv, ha, hc, hi, -, hu, rfl⟩ := step_next h
  have hexec : exec i (checksOff v) = .next (checksOff u) := by rw [exec_checksOff, hu]; rfl
  calc step (checksOff s)
      _ = cycle (checksOff v) := step_of_resume (resume_checksOff hv)
      _ = runWord ((checksOff v).readWord v.pc) (checksOff v) := cycle_of_code ((aligned4_iff v.pc).mp ha) hc
      _ = runInstr i (checksOff v) := runWord_of_ok hi
      _ = noted i (exec i (checksOff v)) := runInstr_of_no_hazard (hazardCheck_of_off i rfl rfl)
      _ = .next (checksOff (u.noteHazards i)) := by rw [hexec]; rfl

end Sys2Proof.Machine
end

section
/-! SUPPORT. The start of a run (70_reset_and_hazards.md R230; 10_state.md R32; entry 23): the table of R32 with a launch's named
values and its image applied as a reply is. -/

namespace Sys2Proof.Machine

variable {u : Start} {l : Launch} {o : ByteOrder}

theorem State.writeRegs_launch (s : State) (values : List (Reg × Word)) : (s.writeRegs values).launch = s.launch := by
  obtain ⟨x, hx⟩ := s.writeRegs_keeps values
  rw [hx]

theorem State.writeBytes_launch (s : State) (values : List (Word × Byte)) : (s.writeBytes values).launch = s.launch := by
  obtain ⟨m, hm⟩ := s.writeBytes_keeps values
  rw [hm]

/-! ### The start as a reply to the unnamed start -/

/-- The bytes of an image that lie in MAPPED (R41). -/
def keepMapped (l : Launch) (image : List (Word × Byte)) : List (Word × Byte) := image.filter fun c => inMapped l c.1.toNat

/-- A launch's named values and its image, in the form of a reply. -/
def startReply (u : Start) : EnvReply := { regs := u.regs, hi := u.hi, lo := u.lo, mem := keepMapped u.launch (startImage u) }

theorem startState_eq (u : Start) : startState u = (unnamedStart u.launch u.env).applyReply (startReply u) := rfl

theorem startState_keeps (u : Start) :
    (startState u).pc = u.launch.entryPc ∧ (startState u).npc = u.launch.entryPc + 4#32 ∧
      KeepsControl (unnamedStart u.launch u.env) (startState u) ∧ (startState u).draws = 0 :=
  State.applyReply_keeps (unnamedStart u.launch u.env) (startReply u)

theorem startState_launch (u : Start) : (startState u).launch = u.launch := by
  obtain ⟨-, -, ⟨hlaunch, -⟩, -⟩ := startState_keeps u
  exact hlaunch

theorem mem_keepMapped {image : List (Word × Byte)} {c : Word × Byte} :
    c ∈ keepMapped l image ↔ c ∈ image ∧ inMapped l c.1.toNat = true := List.mem_filter

theorem keepMapped_append (l : Launch) (xs ys : List (Word × Byte)) :
    keepMapped l (xs ++ ys) = keepMapped l xs ++ keepMapped l ys := List.filter_append ..

theorem keepMapped_cons {a : Word} (h : inMapped l a.toNat = true) (v : Byte) (image : List (Word × Byte)) :
    keepMapped l ((a, v) :: image) = (a, v) :: keepMapped l image := List.filter_cons_of_pos h

/-- Settles O56: a byte of the image that lies in MAPPED is the last one for its address among those that do. -/
theorem startOfARun : Obligations.StartOfARun := by
  intro u
  obtain ⟨hpc, hnpc, ⟨hlaunch, hrun, henv, -⟩, -⟩ := startState_keeps u
  refine ⟨hlaunch, hpc, hnpc, rfl, hrun, henv, ?_, fun v hv => ?_, fun v hv => ?_, ?_⟩
  · exact fun d v pre post hregs hlast hd => State.readReg_applyReply_last (r := startReply u) hregs hlast hd
  · rw [startState_eq, State.applyReply_hi, startReply, hv, Option.getD_some]
  · rw [startState_eq, State.applyReply_lo, startReply, hv, Option.getD_some]
  · intro a v pre post himage hlast ha
    have hmem : (startReply u).mem = keepMapped u.launch pre ++ (a, v) :: keepMapped u.launch post := by
      rw [startReply, himage, keepMapped_append, keepMapped_cons ha]
    exact State.readByte_applyReply_last hmem fun c hc => hlast c (mem_keepMapped.mp hc).1

/-! ### The invariant at the start -/

theorem inv_unnamedStart (l : Launch) (env : List EnvReply) : Inv (unnamedStart l env) :=
  ⟨rfl, fun _ hc => absurd hc List.not_mem_nil, rfl, nofun⟩

theorem Inv.writeRegs {s : State} (h : Inv s) (values : List (Reg × Word)) : Inv (s.writeRegs values) :=
  State.writeRegs_induction values h fun _ d v ht => ht.writeReg d v

/-- Writing bytes of MAPPED, of CODE too, keeps the invariant. -/
theorem Inv.writeBytes {s : State} {values : List (Word × Byte)} (h : Inv s)
    (hmapped : ∀ c ∈ values, inMapped s.launch c.1.toNat = true) : Inv (s.writeBytes values) := by
  have key : Inv (s.writeBytes values) ∧ (s.writeBytes values).launch = s.launch :=
    State.writeBytes_induction (P := fun t => Inv t ∧ t.launch = s.launch) values ⟨h, rfl⟩
      fun t c hc ⟨ht, hl⟩ => ⟨ht.writeByte (hl ▸ hmapped c hc) c.2, hl⟩
  exact key.1

/-- Settles O58: an image reaches MAPPED only, whether or not it lies in CODE. -/
theorem startMeetsInv : Obligations.StartMeetsInv := by
  intro u
  have hnamed : Inv ((unnamedStart u.launch u.env).writeRegs u.regs) := (inv_unnamedStart u.launch u.env).writeRegs u.regs
  have hlaunch : ((unnamedStart u.launch u.env).writeRegs u.regs).launch = u.launch := State.writeRegs_launch ..
  refine Inv.writeBytes (hnamed.congr rfl rfl rfl rfl) fun c hc => ?_
  exact (congrArg (inMapped · c.1.toNat) hlaunch).trans (mem_keepMapped.mp hc).2

/-! ### A word in a list of bytes -/

theorem State.writeBytes_append (s : State) (xs ys : List (Word × Byte)) :
    s.writeBytes (xs ++ ys) = (s.writeBytes xs).writeBytes ys := List.foldl_append

/-- Writing the four bytes of a word is writing the word (R41). -/
theorem State.writeBytes_wordAt (s : State) (a v : Word) :
    s.writeBytes (wordAt s.launch.byteOrder a v) = s.writeWord a v := by
  simp [State.writeBytes, wordAt, State.writeWord, List.range_succ]

/-- A word none of whose bytes is in the list reads as before. -/
theorem State.readWord_writeBytes_ne (s : State) {values : List (Word × Byte)} {a : Word}
    (h : ∀ c ∈ values, ∀ k < 4, c.1 ≠ a + BitVec.ofNat 32 k) : (s.writeBytes values).readWord a = s.readWord a := by
  have hk : ∀ k < 4, (s.writeBytes values).readByte (a + BitVec.ofNat 32 k) = s.readByte (a + BitVec.ofNat 32 k) :=
    fun k hk => s.readByte_writeBytes_ne fun c hc => h c hc k hk
  have h0 : (s.writeBytes values).readByte a = s.readByte a := by simpa using hk 0 (by omega)
  unfold State.readWord
  rw [State.writeBytes_launch, h0, hk 1 (by omega), hk 2 (by omega), hk 3 (by omega)]

/-- Where the bytes of a word stand in a list and no byte after them lies over one, the word is read back. -/
theorem State.readWord_writeBytes_wordAt (s : State) (pre : List (Word × Byte)) {post : List (Word × Byte)} {a : Word} (v : Word)
    (h : ∀ c ∈ post, ∀ k < 4, c.1 ≠ a + BitVec.ofNat 32 k) :
    (s.writeBytes (pre ++ wordAt s.launch.byteOrder a v ++ post)).readWord a = v := by
  rw [State.writeBytes_append, State.writeBytes_append, State.readWord_writeBytes_ne _ h, ← s.writeBytes_launch pre,
    State.writeBytes_wordAt, State.readWord_writeWord]

theorem mem_wordAt {a v : Word} {c : Word × Byte} (h : c ∈ wordAt o a v) : ∃ k < 4, c.1 = a + BitVec.ofNat 32 k := by
  obtain ⟨k, hk, rfl⟩ := List.mem_map.mp h
  exact ⟨k, List.mem_range.mp hk, rfl⟩

theorem inMapped_of_inCode {a : Nat} (h : inCode l a = true) : inMapped l a = true := by
  obtain ⟨r, hr, hra⟩ := List.any_eq_true.mp h
  exact List.any_eq_true.mpr ⟨r, hr, ((Bool.and_eq_true ..).mp hra).2⟩

/-- A word in CODE lies whole in MAPPED. -/
theorem keepMapped_wordAt {a : Word} (h : allInCode l a 4 = true) (o : ByteOrder) (v : Word) :
    keepMapped l (wordAt o a v) = wordAt o a v := by
  refine List.filter_eq_self.mpr fun c hc => ?_
  obtain ⟨k, hk, hck⟩ := mem_wordAt hc
  have hcode := List.all_eq_true.mp h _ (List.mem_map.mpr ⟨k, List.mem_range.mpr hk, rfl⟩)
  exact inMapped_of_inCode (hck ▸ hcode)

/-! ### The program -/

/-- The bytes of a program (R230). -/
def programImage (o : ByteOrder) (program : List (Word × Word)) : List (Word × Byte) :=
  program.flatMap fun c => wordAt o c.1 c.2

theorem startImage_eq (u : Start) : startImage u = programImage u.launch.byteOrder u.program ++ u.data := rfl

theorem programImage_split (o : ByteOrder) (pre post : List (Word × Word)) (a w : Word) :
    programImage o (pre ++ (a, w) :: post) = programImage o pre ++ (wordAt o a w ++ programImage o post) := by
  rw [programImage, List.flatMap_append, List.flatMap_cons]
  rfl

/-- Two aligned words at different addresses have no byte in common. -/
theorem add_ne_add_of_aligned {a b : Word} (ha : a.toNat % 4 = 0) (hb : b.toNat % 4 = 0) (hab : a ≠ b) {j k : Nat} (hj : j < 4)
    (hk : k < 4) : a + BitVec.ofNat 32 j ≠ b + BitVec.ofNat 32 k := by
  intro h
  have htoNat := congrArg BitVec.toNat h
  rw [toNat_add_of_aligned ha hj, toNat_add_of_aligned hb hk] at htoNat
  exact hab (BitVec.eq_of_toNat_eq (by omega))

/-- Aligned words at other addresses lie over no byte of the word at `a`. -/
theorem programImage_ne {program : List (Word × Word)} {a : Word} (ha : a.toNat % 4 = 0)
    (haligned : ∀ c ∈ program, c.1.toNat % 4 = 0) (hne : ∀ c ∈ program, c.1 ≠ a) :
    ∀ c ∈ programImage o program, ∀ k < 4, c.1 ≠ a + BitVec.ofNat 32 k := by
  intro c hc k hk
  obtain ⟨d, hd, hcd⟩ := List.mem_flatMap.mp hc
  obtain ⟨j, hj, hcj⟩ := mem_wordAt hcd
  exact hcj ▸ add_ne_add_of_aligned (haligned d hd) ha (hne d hd) hj hk

theorem startWf_program (h : startWf u = true) : ∀ c ∈ u.program, c.1.toNat % 4 = 0 ∧ allInCode u.launch c.1 4 = true := by
  simp only [startWf, Bool.and_eq_true, List.all_eq_true, aligned4_iff] at h
  obtain ⟨⟨-, hprogram⟩, -⟩ := h
  exact hprogram

theorem startWf_entryPc (h : startWf u = true) :
    u.launch.entryPc.toNat % 4 = 0 ∧ allInCode u.launch u.launch.entryPc 4 = true := by
  simp only [startWf, launchWf, Bool.and_eq_true, aligned4_iff] at h
  obtain ⟨⟨⟨⟨-, haligned⟩, hcode⟩, -⟩, -⟩ := h
  exact ⟨haligned, hcode⟩

/-- The words at the start are those of the image. -/
theorem readWord_startState (u : Start) (a : Word) : (startState u).readWord a =
    ((unnamedStart u.launch u.env).writeBytes (keepMapped u.launch (startImage u))).readWord a := by
  unfold State.readWord
  rw [startState_launch, State.writeBytes_launch]
  simp only [startState_eq, State.readByte_applyReply]
  rfl

/-- A word of the program that nothing after it in the image lies over is read back. -/
theorem readWord_startState_of_program {a w : Word} {pre post : List (Word × Word)} (hwf : startWf u = true)
    (hprogram : u.program = pre ++ (a, w) :: post) (hpost : ∀ c ∈ post, c.1 ≠ a)
    (hdata : ∀ c ∈ u.data, ∀ k < 4, c.1 ≠ a + BitVec.ofNat 32 k) : (startState u).readWord a = w := by
  have hwords : ∀ c ∈ (a, w) :: post, c.1.toNat % 4 = 0 ∧ allInCode u.launch c.1 4 = true :=
    fun c hc => startWf_program hwf c (hprogram ▸ List.mem_append_right pre hc)
  obtain ⟨haligned, hcode⟩ := hwords (a, w) List.mem_cons_self
  have hlater : ∀ c ∈ keepMapped u.launch (programImage u.launch.byteOrder post) ++ keepMapped u.launch u.data,
      ∀ k < 4, c.1 ≠ a + BitVec.ofNat 32 k := by
    intro c hc
    rcases List.mem_append.mp hc with hc | hc
    · exact programImage_ne haligned (fun d hd => (hwords d (List.mem_cons_of_mem _ hd)).1) hpost c (mem_keepMapped.mp hc).1
    · exact hdata c (mem_keepMapped.mp hc).1
  have himage : keepMapped u.launch (startImage u) =
      keepMapped u.launch (programImage u.launch.byteOrder pre) ++ wordAt u.launch.byteOrder a w ++
        (keepMapped u.launch (programImage u.launch.byteOrder post) ++ keepMapped u.launch u.data) := by
    simp only [startImage_eq, hprogram, programImage_split, keepMapped_append, keepMapped_wordAt hcode, List.append_assoc]
  rw [readWord_startState, himage]
  exact State.readWord_writeBytes_wordAt (unnamedStart u.launch u.env) _ w hlater

/-- Settles O57: the word is read back, and the counter of the start is ENTRY_PC, aligned and in CODE. -/
theorem programIsLoaded : Obligations.ProgramIsLoaded := by
  intro u a w pre post hwf hprogram hpost hdata
  have hword := readWord_startState_of_program hwf hprogram hpost hdata
  refine ⟨hword, fun i ha hi => ?_⟩
  obtain ⟨hpc, -, ⟨-, hrun, -⟩, -⟩ := startState_keeps u
  obtain ⟨haligned, hcode⟩ := startWf_entryPc hwf
  subst ha
  rw [Fetches, hpc, startState_launch, hword]
  exact ⟨hrun, haligned, hcode, hi⟩

/-! ### The reset state -/

/-- Settles O59: the launch names every register but 0, so no unspecified value is left. -/
theorem resetIsAStart : Obligations.ResetIsAStart := rfl

end Sys2Proof.Machine
end
